-- ==== Sys2Proof/Word.lean ====
section
/-!
DEFINITION. The words of the HD44780 protocol sequencer: the host operation word of rule R80 and the three
far-side formats of 30_encoding.md section 7 (a command byte, a data byte, a handshake nibble).
-/

namespace Sys2Proof

/-- Eight bits: a character code, a command byte, an operand field of the host word. -/
abbrev Byte := BitVec 8

/-- Four bits: what `write4` drives and `read4` returns (R50). -/
abbrev Nibble := BitVec 4

/-- One host operation as HOST presents it: the 32-bit word `W` and the 64-bit side operand `GLYPH` (R80). -/
structure HostWord where
  w     : BitVec 32
  glyph : BitVec 64
  deriving DecidableEq, Repr

/-- One far-side transfer as the sequencer hands it to its transfer engine (R94, R102, R103): the register-select
line tells a command byte from a data byte, and a handshake pulse carries one nibble. -/
inductive Transfer where
  | cmd  (c : Byte)
  | data (d : Byte)
  | sync (n : Nibble)
  deriving DecidableEq, Repr

/-- A word of any of the four formats of the opcode table: HOST32, or CTRL8, DATA8 and NIB4. -/
inductive Word where
  | host (h : HostWord)
  | far  (t : Transfer)
  deriving DecidableEq, Repr

end Sys2Proof
end

