-- ==== Sys2Proof/Config.lean ====
section
/-!
DEFINITION. The implementation parameters of rule R6 (00_scope.md), fixed before reset is released, and the free
values of the model. State carries a configuration as strapped (R35); no operation changes it.
-/

namespace Sys2Proof

/-- GEOM (R6): the five panel geometries, columns by rows. -/
inductive Geom where
  | g8x2 | g16x2 | g20x2 | g20x4 | g40x2
  deriving DecidableEq, Repr

/-- STRATEGY (R6, R8): how the block waits until the controller is ready. -/
inductive Strategy where
  | busyFlagPolling | fixedDelay
  deriving DecidableEq, Repr

/-- BUS_WIDTH (R6): four or eight data lines. -/
inductive BusWidth where
  | w4 | w8
  deriving DecidableEq, Repr

/-- FONT (R6). -/
inductive Font where
  | f5x8 | f5x10
  deriving DecidableEq, Repr

/-- The configuration record of R6. Times are microseconds, but for `tClkNs`: the clock period T_CLK, which the spec
leaves OPEN and no rule reads (R262 alone mentions it), in nanoseconds (log entry 19). -/
structure Config where
  geom       : Geom
  strategy   : Strategy
  busWidth   : BusWidth
  canRead    : Bool
  font       : Font
  oledResync : Bool
  syncSeq    : List (Nibble × Nat)
  tELow      : Nat
  tEHigh     : Nat
  tHold      : Nat
  tCmd       : Nat
  tHome      : Nat
  tClear     : Nat
  tPowerOn   : Nat
  lfCode     : Byte
  tClkNs     : Nat
  deriving DecidableEq, Repr

/-- The default SYNC_SEQ of R142: the 8-bit-select nibble twice with the source's two delays and, in 4-bit width, the
4-bit-select nibble once. -/
def Config.defaultSyncSeq : BusWidth → List (Nibble × Nat)
  | .w4 => [(0x3, 4100), (0x3, 100), (0x2, 0)]
  | .w8 => [(0x3, 4100), (0x3, 100)]

/-- The configuration with every default of R6, for the three parameters that select what is built. -/
def Config.standard (g : Geom) (st : Strategy) (bw : BusWidth) : Config where
  geom       := g
  strategy   := st
  busWidth   := bw
  canRead    := true
  font       := .f5x8
  oledResync := false
  syncSeq    := Config.defaultSyncSeq bw
  tELow      := 2
  tEHigh     := 2
  tHold      := 40
  tCmd       := 40
  tHome      := 1520
  tClear     := 6200
  tPowerOn   := 40000
  lfCode     := 0x0A
  tClkNs     := 1000

/-- The configuration of `State.reset`. GEOM and STRATEGY have no default in R6 ("must be given"): 16x2 and fixed
delay are a DESIGN CHOICE (log entry 1), and no statement rests on them. Unsafe. -/
def Config.strapped : Config := Config.standard .g16x2 .fixedDelay .w4

/-- A free value: the `k`-th value of width `w` that the spec leaves open (an unspecified register, an answer of the
environment). It has no body, so no proof can see what it is. -/
opaque Config.freeValue (w k : Nat) : BitVec w

/-- The free value that the `k`-th result carries where it must not be read (R86). No body either. -/
opaque Config.freeResult (k : Nat) : Byte

end Sys2Proof
end

