-- ==== Sys2Proof/Syntax.lean ====
section
/-!
DEFINITION. The instructions: one constructor for each row of spec/opcode_table.json. The first nineteen are the host
operations of R81 (SET_MODE once for each of its ten modes, R85); the last nine are the far-side transfers that the
command encoder forms (R95 to R103).
-/

namespace Sys2Proof

inductive Instr where
  /-- INIT (R140). -/
  | init
  /-- WRITE_AT column, row, code (R190). -/
  | writeAt (column row code : Byte)
  /-- WRITE_STREAM byte (R191). -/
  | writeStream (byte : Byte)
  /-- MOVE_TO column, row (R192). -/
  | moveTo (column row : Byte)
  /-- CLEAR (R193). -/
  | clear
  /-- HOME (R194). -/
  | home
  /-- SET_MODE DISPLAY_OFF (R222). -/
  | setDisplayOff
  /-- SET_MODE DISPLAY_ON (R223). -/
  | setDisplayOn
  /-- SET_MODE CURSOR_OFF (R224). -/
  | setCursorOff
  /-- SET_MODE CURSOR_ON (R225). -/
  | setCursorOn
  /-- SET_MODE BLINK_OFF (R226). -/
  | setBlinkOff
  /-- SET_MODE BLINK_ON (R227). -/
  | setBlinkOn
  /-- SET_MODE FLOW_DECREMENT (R228). -/
  | setFlowDecrement
  /-- SET_MODE FLOW_INCREMENT (R229). -/
  | setFlowIncrement
  /-- SET_MODE SHIFT_OFF (R230). -/
  | setShiftOff
  /-- SET_MODE SHIFT_ON (R231). -/
  | setShiftOn
  /-- DEFINE_GLYPH slot, bitmap (R240); `glyph` is the side operand GLYPH, byte `k` at bits 8k+7..8k. -/
  | defineGlyph (slot : Byte) (glyph : BitVec 64)
  /-- COLUMNS (R195). -/
  | columns
  /-- ROWS (R196). -/
  | rows
  /-- The command byte CLEAR_DISPLAY (R95). -/
  | clearDisplay
  /-- The command byte RETURN_HOME (R96). -/
  | returnHome
  /-- The command byte ENTRY_MODE_SET with its fields ID and S (R97). -/
  | entryModeSet (id s : Bool)
  /-- The command byte DISPLAY_CONTROL with its fields D, C and B (R98). -/
  | displayControl (d c b : Bool)
  /-- The command byte FUNCTION_SET with its fields DL, N and F (R99). -/
  | functionSet (dl n f : Bool)
  /-- The command byte SET_CGRAM_ADDR with its glyph slot (R100). -/
  | setCgramAddr (slot : BitVec 3)
  /-- The command byte SET_DDRAM_ADDR with its address (R101). -/
  | setDdramAddr (addr : BitVec 7)
  /-- A handshake or resynchronisation pulse carrying one nibble (R103). -/
  | syncPulse (n : Nibble)
  /-- A data byte (R102). -/
  | dataByte (d : Byte)
  deriving DecidableEq, Repr

end Sys2Proof
end

