-- ==== Sys2Proof/Machine/State.lean ====
section
/-!
DEFINITION. Everything the spec gives the sequencer (10_state.md), the record of what it put out (R299), and the inputs
its environment holds ready for it (R5, R52, R53, R280), all as plain data.
-/

namespace Sys2Proof.Machine

/-- The phase register, nine values (R24). Codes 0 to 8 in this order. -/
inductive Phase where
  | reset | synchronizing | functionSet | displayOff | cleared | homePosition | entryModeSet | ready | failed
  deriving DecidableEq, Repr

/-- Direction of the data-line group (R10). -/
inductive Dir where
  | input | output
  deriving DecidableEq, Repr

/-- The statuses a host operation ends with (R250). -/
inductive Status where
  | ok | errNotReady | errRange | errTransport | errIllegalOp
  deriving DecidableEq, Repr

/-- What an operation returns (R86). The value means something only for COLUMNS and ROWS that end with OK; elsewhere it is
a free value. -/
structure Result where
  status : Status
  value  : Byte
  deriving DecidableEq, Repr

/-- A bus event (R10): the seven primitives of R50, `r4` with the value read, and the delay, in microseconds. -/
inductive BusEvent where
  | w4 (n : Nibble)
  | w8 (b : Byte)
  | r4 (v : Nibble)
  | dir (d : Dir)
  | e (x : Bool)
  | rs (x : Bool)
  | rw (x : Bool)
  | delay (t : Nat)
  deriving DecidableEq, Repr

/-- The line image (R30): what was last driven on each of the five line groups. -/
structure Lines where
  e    : Bool
  rs   : Bool
  rw   : Bool
  dir  : Dir
  data : Byte
  deriving DecidableEq, Repr

/-- One action of a micro-sequence. A running operation is the list of those it has still to take (R26). -/
inductive Micro where
  /-- `emit ev` (R13): a primitive other than a read, or a delay. -/
  | emit (ev : BusEvent)
  /-- The loop of POLLWAIT (R163, R164): poll until the busy flag reads 0. -/
  | poll
  /-- `phase <- p` -/
  | setPhase (p : Phase)
  /-- `displayControl <- v` -/
  | setDisplayControl (v : BitVec 3)
  /-- `entryMode <- v` -/
  | setEntryMode (v : BitVec 2)
  /-- `curCol <- column ; curRow <- row` -/
  | setCursor (column row : Byte)
  /-- ADVANCE (R199). -/
  | advance
  /-- `return st` -/
  | ret (st : Status)
  deriving DecidableEq, Repr

/-- The realisation of BUS that is attached (R53, R67): direct GPIO, which acknowledges every primitive, or an
I2C expander, which may not. -/
inductive Transport where
  | directGpio | i2cExpander
  deriving DecidableEq, Repr

/-- The environment's answer to one primitive (R52, R53): acknowledged or not, and what the data lines read. -/
structure BusAnswer where
  ack  : Bool
  data : Nibble
  deriving DecidableEq, Repr

structure State where
  /-- The configuration constants, as strapped; not changed by reset (R6, R35). -/
  cfg            : Config
  /-- R24. -/
  phase          : Phase
  /-- R21. -/
  curCol         : Byte
  /-- R22. -/
  curRow         : Byte
  /-- R27: D is bit 2, C bit 1, B bit 0. -/
  displayControl : BitVec 3
  /-- R28: ID is bit 1, S bit 0. -/
  entryMode      : BitVec 2
  /-- R30. -/
  lines          : Lines
  /-- The micro-sequence position (R26): what the running operation has still to do; empty when none runs. -/
  position       : List Micro
  /-- The status and value output of the last operation that returned; none while none is pending (R35). -/
  output         : Option Result
  /-- Every result returned so far, oldest first (R299; log entry 18). -/
  results        : List Result
  /-- The bus-level trace, oldest event first (R10, R68; log entry 18). -/
  trace          : List BusEvent
  /-- The words HOST has still to present, in order (R71, R92, R299; log entries 13, 14). -/
  hostPort       : List HostWord
  /-- A far-side transfer given to the transfer engine on its own. The MODEL's own way in for the far-side rows of the
  opcode table; in every run of host words it is none (log entry 3). -/
  transferPort   : Option Transfer
  /-- Which realisation of BUS is attached (R53, R67). -/
  transport      : Transport
  /-- The environment's next answers, one for each primitive, as far as the state fixes them; further answers are free
  values. The MODEL's own field (R52, R53; log entry 4). -/
  script         : List BusAnswer
  /-- The reset input (R280, R281): asserted now (`some 0`), after that many more bus events, or not at all
  (log entry 10). -/
  resetIn        : Option Nat
  /-- How many free values have been drawn. The MODEL's own counter (log entry 5). -/
  draws          : Nat
  deriving DecidableEq, Repr

/-- Why the machine stops. -/
inductive Fault where
  /-- Raised by WRITE_STREAM when the cursor lies outside the grid, where R180 defines no address. No run reaches such a
  state (R31, R197; log entry 16). Safe: the spec gives no address and the model forms none. -/
  | cursorOffGrid
  deriving DecidableEq, Repr

/-- Why an instruction has no meaning. -/
inductive Refusal where
  /-- Raised by `exec` for an instruction that has no meaning yet. Safe. -/
  | notModelled (mnemonic : String)
  /-- Raised by `step` for a configuration that is not admitted: "the spec gives it no behaviour" (R7; 93, U17; log entry 15). Safe. -/
  | configurationNotAdmitted
  /-- Raised by `step` for a command byte on the transfer port that the command encoder never forms (R104; log entry 25). Safe. -/
  | commandNeverFormed
  deriving DecidableEq, Repr

/-- The line image at reset: the spec leaves it unspecified (R35), and every line is at its first value here. DESIGN
CHOICE (log entry 6), unsafe. -/
def Lines.atReset : Lines :=
  { e := false, rs := false, rw := false, dir := .input, data := 0 }

/-- The machine right after reset (R35): phase Reset, no operation running, no status pending. R35 leaves the cursor, both
shadow registers and the line image unspecified; zero is a DESIGN CHOICE (log entry 6), unsafe. The configuration and the
attached transport are as strapped (log entry 1), and HOST has presented nothing. -/
def State.reset : State where
  cfg            := Config.strapped
  phase          := .reset
  curCol         := 0
  curRow         := 0
  displayControl := 0
  entryMode      := 0
  lines          := Lines.atReset
  position       := []
  output         := none
  results        := []
  trace          := []
  hostPort       := []
  transferPort   := none
  transport      := .directGpio
  script         := []
  resetIn        := none
  draws          := 0

end Sys2Proof.Machine
end

