-- ==== Sys2Proof/Machine/Operands.lean ====
section
/-!
DEFINITION. Operands: the panel geometry, the RAM address mapper (43_address_map.md) and the bytes of the glyph operand.
-/

namespace Sys2Proof.Machine

/-- COLS (R6). -/
def cols : Geom → Nat
  | .g8x2 => 8
  | .g16x2 => 16
  | .g20x2 => 20
  | .g20x4 => 20
  | .g40x2 => 40

/-- ROWS (R6). -/
def rows : Geom → Nat
  | .g8x2 => 2
  | .g16x2 => 2
  | .g20x2 => 2
  | .g20x4 => 4
  | .g40x2 => 2

/-- `inRange(column, row)`: both comparisons on unsigned values (R182). -/
def inRange (g : Geom) (column row : Byte) : Bool :=
  column.toNat < cols g && row.toNat < rows g

/-- `base(GEOM, row)`: where a row starts in DDRAM (R180). Rows a geometry does not have are never asked for. -/
def rowBase (g : Geom) (row : Nat) : Nat :=
  match g, row with
  | _, 0 => 0x00
  | _, 1 => 0x40
  | .g20x4, 2 => 0x14
  | .g20x4, _ => 0x54
  | _, _ => 0x00

/-- `addr(column, row)` (R180), defined only for a position in range: the address mapper is a partial function and forms
no address outside the geometry (R182). -/
def addr (g : Geom) (column row : Byte) : Option (BitVec 7) :=
  if inRange g column row then some (BitVec.ofNat 7 (rowBase g row.toNat + column.toNat)) else none

/-- Byte `k` of the glyph bitmap: GLYPH[8k+7:8k] (R60, R80). -/
def glyphByte (glyph : BitVec 64) (k : Nat) : Byte := glyph.extractLsb' (8 * k) 8

/-- The eight bitmap bytes in index order (R60, R240). -/
def glyphBytes (glyph : BitVec 64) : List Byte := (List.range 8).map (glyphByte glyph)

end Sys2Proof.Machine
end

