-- ==== Sys2Proof/Machine/Flags.lean ====
section
/-!
DEFINITION. The busy flag, the codes of statuses and phases, the bits of the two shadow registers, and the command encoder that forms a command byte from
them (30_encoding.md section 7). The block has no condition codes (R32). Bit positions and command
bits are the spec's general knowledge (log entry 17).
-/

namespace Sys2Proof.Machine

/-- BF, the busy flag: bit 3 of what a poll reads (R32, R163). -/
def busy (v : Nibble) : Bool := v.getLsbD 3

/-! ## Codes -/

/-- The 3-bit code of a status at the host port (R86, R250); codes 5 to 7 are never returned. -/
def Status.code : Status → BitVec 3
  | .ok => 0
  | .errNotReady => 1
  | .errRange => 2
  | .errTransport => 3
  | .errIllegalOp => 4

/-- The 4-bit code of a phase (R24). -/
def Phase.code : Phase → BitVec 4
  | .reset => 0
  | .synchronizing => 1
  | .functionSet => 2
  | .displayOff => 3
  | .cleared => 4
  | .homePosition => 5
  | .entryModeSet => 6
  | .ready => 7
  | .failed => 8

/-! ## The five bit positions (R27, R28, R221) -/

/-- D, display on. -/
def bitD : Nat := 2
/-- C, cursor shown. -/
def bitC : Nat := 1
/-- B, blink on. -/
def bitB : Nat := 0
/-- ID, increment. -/
def bitID : Nat := 1
/-- S, shift on write. -/
def bitS : Nat := 0

/-- Set bit `k`. -/
def setBit {n : Nat} (k : Nat) (v : BitVec n) : BitVec n := v ||| (1#n <<< k)

/-- Clear bit `k`. -/
def clearBit {n : Nat} (k : Nat) (v : BitVec n) : BitVec n := v &&& ~~~(1#n <<< k)

/-! ## Command bytes -/

/-- CLEAR_DISPLAY (R95). -/
def clearByte : Byte := 0x01
/-- RETURN_HOME (R96). -/
def homeByte : Byte := 0x02

/-- `EM_BYTE = 0x04 | zext_8(entryMode)` (R28, R97). -/
def entryByte (v : BitVec 2) : Byte := 0x04#8 ||| v.setWidth 8

/-- `DC_BYTE = 0x08 | zext_8(displayControl)` (R27, R98). -/
def displayByte (v : BitVec 3) : Byte := 0x08#8 ||| v.setWidth 8

/-- FUNCTION_SET from its three fields (R99). -/
def functionByte (dl n f : Bool) : Byte :=
  0x20#8 ||| ((BitVec.ofBool dl).setWidth 8 <<< 4) ||| ((BitVec.ofBool n).setWidth 8 <<< 3)
    ||| ((BitVec.ofBool f).setWidth 8 <<< 2)

/-- `FS_BYTE` (R99): DL from the bus width, N from the number of rows, F from the font. -/
def functionByteOf (c : Config) : Byte :=
  functionByte (c.busWidth == .w8) (2 ≤ rows c.geom) (c.font == .f5x10)

/-- SET_CGRAM_ADDR for a slot below 8: `0x40 | (slot << 3)` (R100). -/
def cgramByte (slot : BitVec 3) : Byte := 0x40#8 ||| (slot.setWidth 8 <<< 3)

/-- SET_DDRAM_ADDR: `0x80 | a` (R101); `addressOf` of R180. -/
def ddramByte (a : BitVec 7) : Byte := 0x80#8 ||| a.setWidth 8

/-- The wait classes (R105, R160). -/
inductive WaitClass where
  | ordinary | home | clear
  deriving DecidableEq, Repr

/-- The wait class of a command byte (R105). -/
def waitClass (c : Byte) : WaitClass :=
  if c = clearByte then .clear else if c = homeByte then .home else .ordinary

end Sys2Proof.Machine
end

