-- ==== Sys2Proof/Machine/Sequences.lean ====
section
/-!
DEFINITION. The micro-sequences every operation is made of (40_bus_transfer.md, 41_init_sync.md section 2,
42_readiness.md), as lists of bus events or of micro actions.
-/

namespace Sys2Proof.Machine

/-- `DELAY(t)`, omitted where `t` is zero (R10). -/
def delayFor (t : Nat) : List BusEvent := if t = 0 then [] else [.delay t]

/-- `emit` of every event of a list, in order (R13). -/
def emitting (evs : List BusEvent) : List Micro := evs.map .emit

/-- PULSE_W, the enable pulse (R110). -/
def pulse (c : Config) : List BusEvent :=
  [.e false] ++ delayFor c.tELow ++ [.e true] ++ delayFor c.tEHigh ++ [.e false] ++ delayFor c.tHold

/-- NIBBLE(n) (R111). -/
def nibble (c : Config) (n : Nibble) : List BusEvent := .w4 n :: pulse c

/-- BYTE8(b) (R111). -/
def byte8 (c : Config) (b : Byte) : List BusEvent := .w8 b :: pulse c

/-- XFER(b): the high nibble first, then the low nibble; the whole byte in 8-bit width (R59, R112). -/
def xfer (c : Config) (b : Byte) : List BusEvent :=
  match c.busWidth with
  | .w4 => nibble c (b.extractLsb' 4 4) ++ nibble c (b.extractLsb' 0 4)
  | .w8 => byte8 c b

/-- SYNCX(n): one handshake pulse, a nibble or the byte `{n, 0b0000}` (R103, R143). -/
def syncx (c : Config) (n : Nibble) : List BusEvent :=
  match c.busWidth with
  | .w4 => nibble c n
  | .w8 => byte8 c (n ++ 0x0#4)

/-! ## Readiness (R160) -/

/-- T(k) (R161). -/
def waitTime (c : Config) : WaitClass → Nat
  | .ordinary => c.tCmd
  | .home => c.tHome
  | .clear => c.tClear

/-- FIXED(k) (R161). -/
def fixedWait (c : Config) (k : WaitClass) : List BusEvent := delayFor (waitTime c k)

/-- The entry of POLLWAIT (R162). -/
def pollEntry : List BusEvent := [.dir .input, .rs false, .rw true]

/-- The exit of POLLWAIT (R164). -/
def pollExit : List BusEvent := [.dir .output, .rw false]

/-- One poll iteration up to the sample (R163). -/
def pollRise (c : Config) : List BusEvent := [.e true] ++ delayFor c.tEHigh

/-- One poll iteration after the sample: enable falls and, in 4-bit width, the low nibble is clocked and not read (R163). -/
def pollFall (c : Config) : List BusEvent :=
  [.e false] ++ delayFor c.tELow ++
    (match c.busWidth with
      | .w4 => [.e true] ++ delayFor c.tEHigh ++ [.e false] ++ delayFor c.tELow
      | .w8 => [])

/-- POLLWAIT (R162 to R164): the class is ignored under polling. -/
def pollWait : List Micro := emitting pollEntry ++ [.poll] ++ emitting pollExit

/-- WAIT(k): the strategy alone decides (R8, R160). -/
def waitFor (c : Config) (k : WaitClass) : List Micro :=
  match c.strategy with
  | .fixedDelay => emitting (fixedWait c k)
  | .busyFlagPolling => pollWait

/-- CMD(c) (R113). -/
def cmd (c : Config) (b : Byte) : List Micro := emitting (.rs false :: xfer c b) ++ waitFor c (waitClass b)

/-- DATA(d) (R114). -/
def data (c : Config) (d : Byte) : List Micro := emitting (.rs true :: xfer c d) ++ waitFor c .ordinary

/-! ## INIT (R140) -/

/-- PRESET (R141). -/
def preset (c : Config) : List BusEvent :=
  [.e false, .rs false, .rw false, .dir .output] ++ delayFor c.tPowerOn

/-- RESYNC, five all-zero pulses where the configuration asks for them (R140, R144). -/
def resync (c : Config) : List BusEvent :=
  if c.oledResync then (List.replicate 5 (syncx c 0x0)).flatten else []

/-- HANDSHAKE (R143). -/
def handshake (c : Config) : List BusEvent :=
  c.syncSeq.flatMap fun p => syncx c p.1 ++ delayFor p.2

/-- The whole of INIT (R140): the stages in the order of the source's state machine. -/
def initProgram (c : Config) : List Micro :=
  [.setPhase .synchronizing]
    ++ emitting (preset c) ++ emitting (resync c) ++ emitting (handshake c)
    ++ cmd c (functionByteOf c)
    ++ [.setPhase .functionSet, .setDisplayControl 0b000]
    ++ cmd c (displayByte 0b000)
    ++ [.setPhase .displayOff]
    ++ cmd c clearByte
    ++ [.setPhase .cleared]
    ++ cmd c homeByte
    ++ [.setCursor 0 0, .setPhase .homePosition, .setEntryMode 0b10]
    ++ cmd c (entryByte 0b10)
    ++ [.setPhase .entryModeSet, .setPhase .ready, .ret .ok]

/-! ## The other operations, after their checks -/

/-- Set the DDRAM address, then write one character there (R190, R191, R198). -/
def charProgram (c : Config) (a : BitVec 7) (code : Byte) : List Micro := cmd c (ddramByte a) ++ data c code

/-- WRITE_AT at a mapped address (R190). -/
def writeAtProgram (c : Config) (a : BitVec 7) (code : Byte) : List Micro := charProgram c a code ++ [.ret .ok]

/-- WRITE_STREAM of a byte that is no line feed, at a mapped address (R191). -/
def writeStreamProgram (c : Config) (a : BitVec 7) (byte : Byte) : List Micro :=
  charProgram c a byte ++ [.advance, .ret .ok]

/-- CLEAR (R193). -/
def clearProgram (c : Config) : List Micro := cmd c clearByte ++ [.setCursor 0 0, .ret .ok]

/-- HOME (R194). -/
def homeProgram (c : Config) : List Micro := cmd c homeByte ++ [.setCursor 0 0, .ret .ok]

/-- A display mode of SET_MODE: the shadow first, then the full byte formed from it (R220). -/
def displayProgram (c : Config) (v : BitVec 3) : List Micro :=
  [.setDisplayControl v] ++ cmd c (displayByte v) ++ [.ret .ok]

/-- An entry mode of SET_MODE (R220). -/
def entryProgram (c : Config) (v : BitVec 2) : List Micro :=
  [.setEntryMode v] ++ cmd c (entryByte v) ++ [.ret .ok]

/-- DEFINE_GLYPH for a slot below 8 (R240): the CGRAM address, then the eight bytes in index order, none interpreted (R242). -/
def glyphProgram (c : Config) (slot : BitVec 3) (glyph : BitVec 64) : List Micro :=
  cmd c (cgramByte slot) ++ (glyphBytes glyph).flatMap (data c) ++ [.ret .ok]

end Sys2Proof.Machine
end

