-- ==== Sys2Proof/Machine/Ops.lean ====
section
/-!
DEFINITION. The operations every meaning goes through: emitting one bus event, returning a status, refusing, failing in
transport, taking the reset input, moving the cursor, and running a micro-sequence.
-/

namespace Sys2Proof.Machine

/-! ## The line image and the environment -/

/-- What an event leaves on the lines (R30). A delay and a read drive nothing. -/
def Lines.drive (l : Lines) : BusEvent → Lines
  | .w4 n => { l with data := n ++ l.data.extractLsb' 0 4 }
  | .w8 b => { l with data := b }
  | .r4 _ => l
  | .dir d => { l with dir := d }
  | .e x => { l with e := x }
  | .rs x => { l with rs := x }
  | .rw x => { l with rw := x }
  | .delay _ => l

/-- Whether an event is a primitive, which BUS answers; a delay is not (R10, R53). -/
def BusEvent.isPrimitive : BusEvent → Bool
  | .w4 _ => true
  | .w8 _ => true
  | .r4 _ => true
  | .dir _ => true
  | .e _ => true
  | .rs _ => true
  | .rw _ => true
  | .delay _ => false

/-- The environment's answer to the `j`-th primitive from now: from the script while it lasts, then free (R52, R53). -/
def State.answerAt (s : State) (j : Nat) : BusAnswer :=
  match s.script[j]? with
  | some a => a
  | none =>
    { ack := Config.freeValue 1 (s.draws + j) == 1#1, data := Config.freeValue 4 (s.draws + j) }

/-- Whether the `j`-th primitive from now is acknowledged: always on direct GPIO, which has no acknowledgement channel
(R53, R251). -/
def State.ackedAt (s : State) (j : Nat) : Bool :=
  s.transport == .directGpio || (s.answerAt j).ack

/-- What the data lines read at the next primitive (R52). -/
def State.readData (s : State) : Nibble := (s.answerAt 0).data

/-- The state after an event: in the trace, on the lines, its answer taken, the reset input one event nearer. -/
def State.after (s : State) (ev : BusEvent) : State :=
  { s with
    trace := s.trace ++ [ev]
    lines := s.lines.drive ev
    script := if ev.isPrimitive then s.script.tail else s.script
    draws := if ev.isPrimitive then s.draws + 1 else s.draws
    resetIn := s.resetIn.map (· - 1) }

/-- How an event ends. -/
inductive Signal where
  /-- The event is over and the operation goes on. -/
  | ack
  /-- BUS did not acknowledge the primitive (R53). -/
  | nack
  /-- The reset input was asserted (R281). -/
  | reset
  deriving DecidableEq, Repr

/-- The signal an event ends with. The reset input wins over everything: it ends the trace and no status is returned
(R281). DESIGN CHOICE where both fall together (log entry 10), unsafe. -/
def State.signal (s : State) (ev : BusEvent) : Signal :=
  if (s.after ev).resetIn = some 0 then .reset
  else if ev.isPrimitive && !s.ackedAt 0 then .nack
  else .ack

/-- `emit ev` (R13): the nacked primitive is in the trace (R255), and so is the event the reset input cut after (R281). -/
def emitOne (ev : BusEvent) (s : State) : Signal × State := (s.signal ev, s.after ev)

/-- Events in order, up to the first that is not acknowledged. -/
def emitAll : List BusEvent → State → Signal × State
  | [], s => (.ack, s)
  | ev :: evs, s =>
    match emitOne ev s with
    | (.ack, t) => emitAll evs t
    | (.nack, t) => (.nack, t)
    | (.reset, t) => (.reset, t)

/-! ## Values the spec leaves unspecified -/

/-- Cursor and shadow registers unspecified (R20): each a free value. -/
def State.forgetRegisters (s : State) : State :=
  { s with
    curCol := Config.freeValue 8 s.draws
    curRow := Config.freeValue 8 (s.draws + 1)
    displayControl := Config.freeValue 3 s.draws
    entryMode := Config.freeValue 2 s.draws
    draws := s.draws + 2 }

/-- Line image unspecified (R20, R30): each line a free value. -/
def State.forgetLines (s : State) : State :=
  { s with
    lines :=
      { e := Config.freeValue 1 s.draws == 1#1
        rs := Config.freeValue 1 (s.draws + 1) == 1#1
        rw := Config.freeValue 1 (s.draws + 2) == 1#1
        dir := if Config.freeValue 1 (s.draws + 3) == 1#1 then .output else .input
        data := Config.freeValue 8 s.draws }
    draws := s.draws + 4 }

/-! ## Returning, refusing, failing (60_exceptions.md) -/

/-- `return (st, value)`: the operation ends, and its result is the output (R86, R251). -/
def State.returnValue (st : Status) (value : Byte) (s : State) : State :=
  { s with output := some { status := st, value := value }, results := s.results ++ [{ status := st, value := value }] }

/-- `return st`, with the value that must not be read (R86): a free value, numbered by the results returned so far.
DESIGN CHOICE (log entry 7), safe. -/
def State.returnStatus (st : Status) (s : State) : State := s.returnValue st (Config.freeResult s.results.length)

/-- A refusal (R259): no event, no register changed; the status is all there is. -/
def refuse (st : Status) (s : State) : State := s.returnStatus st

/-- A transport failure (R255): nothing more is emitted, phase Failed, every other register and the line image
unspecified, ERR_TRANSPORT. DEDUCED (log entry 8), safe. -/
def transportFailure (s : State) : State :=
  ({ s.forgetRegisters.forgetLines with phase := .failed, position := [] }).returnStatus .errTransport

/-- The reset input, asserted and released (R280, R35): phase Reset, registers unspecified, no operation running, no status
pending, no event. While an operation runs the lines are left as they stand (R281); at rest the line image is
unspecified (R35). DEDUCED (log entry 9), safe. -/
def assertReset (running : Bool) (s : State) : State :=
  let t := if running then s.forgetRegisters else s.forgetRegisters.forgetLines
  { t with phase := .reset, position := [], output := none, resetIn := none }

/-! ## The cursor (44_text_grid.md section 2) -/

/-- The row after this one, with the row wrap of R199 and R200. -/
def nextRow (g : Geom) (row : Byte) : Byte :=
  if row.toNat + 1 = rows g then 0 else row + 1

/-- ADVANCE (R199). -/
def State.advance (s : State) : State :=
  { s with
    curCol := if s.curCol.toNat + 1 = cols s.cfg.geom then 0 else s.curCol + 1
    curRow := if s.curCol.toNat + 1 = cols s.cfg.geom then nextRow s.cfg.geom s.curRow else s.curRow }

/-- NEWLINE (R200). -/
def State.newline (s : State) : State :=
  { s with curCol := 0, curRow := nextRow s.cfg.geom s.curRow }

/-! ## Running a micro-sequence -/

/-- How one micro action ends: the operation goes on, waits in the poll loop, or is over. -/
inductive Flow where
  | go (s : State)
  | wait (s : State)
  | halt (s : State)
  deriving DecidableEq, Repr

/-- What an event's end means for the running operation. -/
def afterSignal : Signal × State → Flow
  | (.ack, t) => .go t
  | (.nack, t) => .halt (transportFailure t)
  | (.reset, t) => .halt (assertReset true t)

/-- One poll iteration (R163): the read pulse, the sample, and the test of BF; while BF = 1 the loop stands (R164, R165). -/
def pollOnce (s : State) : Flow :=
  match emitAll (pollRise s.cfg) s with
  | (.ack, t) =>
    match emitAll (.r4 t.readData :: pollFall s.cfg) t with
    | (.ack, u) => if busy t.readData then .wait u else .go u
    | (.nack, u) => .halt (transportFailure u)
    | (.reset, u) => .halt (assertReset true u)
  | (.nack, t) => .halt (transportFailure t)
  | (.reset, t) => .halt (assertReset true t)

/-- One micro action. -/
def Micro.run (m : Micro) (s : State) : Flow :=
  match m with
  | .emit ev => afterSignal (emitOne ev s)
  | .poll => pollOnce s
  | .setPhase p => .go { s with phase := p }
  | .setDisplayControl v => .go { s with displayControl := v }
  | .setEntryMode v => .go { s with entryMode := v }
  | .setCursor column row => .go { s with curCol := column, curRow := row }
  | .advance => .go s.advance
  | .ret st => .go (s.returnStatus st)

/-- Run a micro-sequence: to its end, to the end of a poll iteration that read busy (the rest is then the position, and
the next step goes on from there, R26, R165), or to a transport failure or reset. -/
def run : List Micro → State → State
  | [], s => { s with position := [] }
  | m :: ms, s =>
    match m.run s with
    | .go t => run ms t
    | .wait t => { t with position := m :: ms }
    | .halt t => t

/-! ## The two shapes of a meaning -/

/-- A host operation other than INIT (R189, R253): refused with ERR_NOT_READY unless the phase is Ready. -/
def whenReady (s : State) (body : State → Host.Outcome State Fault Refusal) : Host.Outcome State Fault Refusal :=
  if s.phase = .ready then body s else .next (refuse .errNotReady s)

/-- A micro-sequence run from here. -/
def perform (p : List Micro) (s : State) : Host.Outcome State Fault Refusal := .next (run p s)

end Sys2Proof.Machine
end

