-- ==== Sys2Proof/Machine/BusTransfer.lean ====
section
/-!
DEFINITION. The far-side transfers on their own (40_bus_transfer.md, R94 to R103): a command byte is CMD, a data byte is
DATA, a handshake pulse is SYNCX. None writes a register (R118) and none returns a status, since a transfer is no host
operation.
-/

namespace Sys2Proof.Machine

/-- CLEAR_DISPLAY (R95, R113). -/
def execClearDisplay (s : State) : Host.Outcome State Fault Refusal := perform (cmd s.cfg clearByte) s

/-- RETURN_HOME (R96, R113). -/
def execReturnHome (s : State) : Host.Outcome State Fault Refusal := perform (cmd s.cfg homeByte) s

/-- ENTRY_MODE_SET (R97, R113). -/
def execEntryModeSet (id sh : Bool) (s : State) : Host.Outcome State Fault Refusal :=
  perform (cmd s.cfg (entryByte (BitVec.ofBool id ++ BitVec.ofBool sh))) s

/-- DISPLAY_CONTROL (R98, R113). -/
def execDisplayControl (d cu b : Bool) (s : State) : Host.Outcome State Fault Refusal :=
  perform (cmd s.cfg (displayByte (BitVec.ofBool d ++ BitVec.ofBool cu ++ BitVec.ofBool b))) s

/-- FUNCTION_SET (R99, R113). -/
def execFunctionSet (dl n f : Bool) (s : State) : Host.Outcome State Fault Refusal :=
  perform (cmd s.cfg (functionByte dl n f)) s

/-- SET_CGRAM_ADDR (R100, R113). -/
def execSetCgramAddr (slot : BitVec 3) (s : State) : Host.Outcome State Fault Refusal :=
  perform (cmd s.cfg (cgramByte slot)) s

/-- SET_DDRAM_ADDR (R101, R113). -/
def execSetDdramAddr (a : BitVec 7) (s : State) : Host.Outcome State Fault Refusal :=
  perform (cmd s.cfg (ddramByte a)) s

/-- A handshake or resynchronisation pulse (R103, R143): no register-select event and no readiness wait. -/
def execSyncPulse (n : Nibble) (s : State) : Host.Outcome State Fault Refusal :=
  perform (emitting (syncx s.cfg n)) s

/-- A data byte (R102, R114). -/
def execDataByte (d : Byte) (s : State) : Host.Outcome State Fault Refusal := perform (data s.cfg d) s

end Sys2Proof.Machine
end

