-- ==== Sys2Proof/Machine/DisplayMode.lean ====
section
/-!
DEFINITION. SET_MODE and its ten modes (45_display_mode.md): change one bit of one shadow, form the whole byte from the
shadow, send it, whether or not the bit changed (R220).
-/

namespace Sys2Proof.Machine

/-- A display mode that changes the shadow by `f` (R220). -/
def changeDisplay (f : BitVec 3 → BitVec 3) (s : State) : Host.Outcome State Fault Refusal :=
  whenReady s fun s => perform (displayProgram s.cfg (f s.displayControl)) s

/-- An entry mode that changes the shadow by `f` (R220). -/
def changeEntry (f : BitVec 2 → BitVec 2) (s : State) : Host.Outcome State Fault Refusal :=
  whenReady s fun s => perform (entryProgram s.cfg (f s.entryMode)) s

/-- DISPLAY_OFF (R222). -/
def execSetDisplayOff (s : State) : Host.Outcome State Fault Refusal := changeDisplay (clearBit bitD) s
/-- DISPLAY_ON (R223). -/
def execSetDisplayOn (s : State) : Host.Outcome State Fault Refusal := changeDisplay (setBit bitD) s
/-- CURSOR_OFF (R224). -/
def execSetCursorOff (s : State) : Host.Outcome State Fault Refusal := changeDisplay (clearBit bitC) s
/-- CURSOR_ON (R225). -/
def execSetCursorOn (s : State) : Host.Outcome State Fault Refusal := changeDisplay (setBit bitC) s
/-- BLINK_OFF (R226). -/
def execSetBlinkOff (s : State) : Host.Outcome State Fault Refusal := changeDisplay (clearBit bitB) s
/-- BLINK_ON (R227). -/
def execSetBlinkOn (s : State) : Host.Outcome State Fault Refusal := changeDisplay (setBit bitB) s
/-- FLOW_DECREMENT (R228). -/
def execSetFlowDecrement (s : State) : Host.Outcome State Fault Refusal := changeEntry (clearBit bitID) s
/-- FLOW_INCREMENT (R229). -/
def execSetFlowIncrement (s : State) : Host.Outcome State Fault Refusal := changeEntry (setBit bitID) s
/-- SHIFT_OFF (R230). -/
def execSetShiftOff (s : State) : Host.Outcome State Fault Refusal := changeEntry (clearBit bitS) s
/-- SHIFT_ON (R231). -/
def execSetShiftOn (s : State) : Host.Outcome State Fault Refusal := changeEntry (setBit bitS) s

end Sys2Proof.Machine
end

