-- ==== Sys2Proof/Machine/Glyph.lean ====
section
/-!
DEFINITION. DEFINE_GLYPH (46_glyph.md).
-/

namespace Sys2Proof.Machine

/-- DEFINE_GLYPH (R240); a slot above 7 is a silent no-op with status OK (R241). -/
def execDefineGlyph (slot : Byte) (glyph : BitVec 64) (s : State) : Host.Outcome State Fault Refusal :=
  whenReady s fun s =>
    if 7 < slot.toNat then .next (s.returnStatus .ok)
    else perform (glyphProgram s.cfg (slot.extractLsb' 0 3) glyph) s

end Sys2Proof.Machine
end

