-- ==== Sys2Proof/Machine/Init.lean ====
section
/-!
DEFINITION. INIT (41_init_sync.md).
-/

namespace Sys2Proof.Machine

/-- INIT (R140): accepted in every phase a quiescent block can hold (R152), it reads no register
(log entry 26). -/
def execInit (s : State) : Host.Outcome State Fault Refusal := perform (initProgram s.cfg) s

end Sys2Proof.Machine
end

