-- ==== Sys2Proof/Machine/TextGrid.lean ====
section
/-!
DEFINITION. The text-grid operations (44_text_grid.md).
-/

namespace Sys2Proof.Machine

/-- WRITE_AT (R190): out of range is refused before any event (R182); the cursor is not moved. -/
def execWriteAt (column row code : Byte) (s : State) : Host.Outcome State Fault Refusal :=
  whenReady s fun s =>
    match addr s.cfg.geom column row with
    | some a => perform (writeAtProgram s.cfg a code) s
    | none => .next (refuse .errRange s)

/-- WRITE_STREAM (R191): a line feed moves the cursor and emits nothing (R202); any other byte goes to the cursor's cell,
and the cursor advances after both transfers. Off the grid there is no address (R180): a fault no run reaches. -/
def execWriteStream (byte : Byte) (s : State) : Host.Outcome State Fault Refusal :=
  whenReady s fun s =>
    if byte = s.cfg.lfCode then .next (s.newline.returnStatus .ok)
    else
      match addr s.cfg.geom s.curCol s.curRow with
      | some a => perform (writeStreamProgram s.cfg a byte) s
      | none => .fault .cursorOffGrid

/-- MOVE_TO (R192): no bus event. -/
def execMoveTo (column row : Byte) (s : State) : Host.Outcome State Fault Refusal :=
  whenReady s fun s =>
    if inRange s.cfg.geom column row then .next (({ s with curCol := column, curRow := row }).returnStatus .ok)
    else .next (refuse .errRange s)

/-- CLEAR (R193). -/
def execClear (s : State) : Host.Outcome State Fault Refusal :=
  whenReady s fun s => perform (clearProgram s.cfg) s

/-- HOME (R194). -/
def execHome (s : State) : Host.Outcome State Fault Refusal :=
  whenReady s fun s => perform (homeProgram s.cfg) s

/-- COLUMNS (R195): no event, no register. -/
def execColumns (s : State) : Host.Outcome State Fault Refusal :=
  whenReady s fun s => .next (s.returnValue .ok (BitVec.ofNat 8 (cols s.cfg.geom)))

/-- ROWS (R196). -/
def execRows (s : State) : Host.Outcome State Fault Refusal :=
  whenReady s fun s => .next (s.returnValue .ok (BitVec.ofNat 8 (rows s.cfg.geom)))

end Sys2Proof.Machine
end

