-- ==== Sys2Proof/Machine/Dispatch.lean ====
section
/-! DEFINITION. The dispatch: one arm for each constructor of Instr, each one call of its meaning. -/

namespace Sys2Proof.Machine

def exec (i : Instr) (s : State) : Host.Outcome State Fault Refusal :=
  match i with
  -- 41_init_sync.md
  | .init => Sys2Proof.Machine.execInit s
  -- 44_text_grid.md
  | .writeAt column row code => Sys2Proof.Machine.execWriteAt column row code s
  | .writeStream byte => Sys2Proof.Machine.execWriteStream byte s
  | .moveTo column row => Sys2Proof.Machine.execMoveTo column row s
  | .clear => Sys2Proof.Machine.execClear s
  | .home => Sys2Proof.Machine.execHome s
  -- 45_display_mode.md
  | .setDisplayOff => Sys2Proof.Machine.execSetDisplayOff s
  | .setDisplayOn => Sys2Proof.Machine.execSetDisplayOn s
  | .setCursorOff => Sys2Proof.Machine.execSetCursorOff s
  | .setCursorOn => Sys2Proof.Machine.execSetCursorOn s
  | .setBlinkOff => Sys2Proof.Machine.execSetBlinkOff s
  | .setBlinkOn => Sys2Proof.Machine.execSetBlinkOn s
  | .setFlowDecrement => Sys2Proof.Machine.execSetFlowDecrement s
  | .setFlowIncrement => Sys2Proof.Machine.execSetFlowIncrement s
  | .setShiftOff => Sys2Proof.Machine.execSetShiftOff s
  | .setShiftOn => Sys2Proof.Machine.execSetShiftOn s
  -- 46_glyph.md
  | .defineGlyph slot glyph => Sys2Proof.Machine.execDefineGlyph slot glyph s
  -- 44_text_grid.md
  | .columns => Sys2Proof.Machine.execColumns s
  | .rows => Sys2Proof.Machine.execRows s
  -- 30_encoding.md section 7, 40_bus_transfer.md
  | .clearDisplay => Sys2Proof.Machine.execClearDisplay s
  | .returnHome => Sys2Proof.Machine.execReturnHome s
  | .entryModeSet id sh => Sys2Proof.Machine.execEntryModeSet id sh s
  | .displayControl d cu b => Sys2Proof.Machine.execDisplayControl d cu b s
  | .functionSet dl n f => Sys2Proof.Machine.execFunctionSet dl n f s
  | .setCgramAddr slot => Sys2Proof.Machine.execSetCgramAddr slot s
  | .setDdramAddr a => Sys2Proof.Machine.execSetDdramAddr a s
  | .syncPulse n => Sys2Proof.Machine.execSyncPulse n s
  | .dataByte d => Sys2Proof.Machine.execDataByte d s

end Sys2Proof.Machine
end

