-- ==== Sys2Proof/WellFormed.lean ====
section
/-!
DEFINITION. Which instructions the block can form, and which configurations are admitted.
-/

namespace Sys2Proof

/-- The DDRAM addresses the address mapper can form (R56): `0x00..0x27` and `0x40..0x67`. -/
def ddramFormed (a : BitVec 7) : Bool :=
  a ≤ 0x27#7 || (0x40#7 ≤ a && a ≤ 0x67#7)

/-- Well-formed instructions. Every operand of a host operation is admitted, since each field is exactly as wide as its
operand (R80, R82); an operand outside the geometry is refused when the operation runs, not here. On the far side the
block forms FUNCTION_SET with N = 1 only (R99) and SET_DDRAM_ADDR with an address of the map only (R56); the other
forms execute all the same (log entry 22). -/
def Instr.wellFormed : Instr → Bool
  | .init => true
  | .writeAt _ _ _ => true
  | .writeStream _ => true
  | .moveTo _ _ => true
  | .clear => true
  | .home => true
  | .setDisplayOff => true
  | .setDisplayOn => true
  | .setCursorOff => true
  | .setCursorOn => true
  | .setBlinkOff => true
  | .setBlinkOn => true
  | .setFlowDecrement => true
  | .setFlowIncrement => true
  | .setShiftOff => true
  | .setShiftOn => true
  | .defineGlyph _ _ => true
  | .columns => true
  | .rows => true
  | .clearDisplay => true
  | .returnHome => true
  | .entryModeSet _ _ => true
  | .displayControl _ _ _ => true
  | .functionSet _ n _ => n
  | .setCgramAddr _ => true
  | .setDdramAddr a => ddramFormed a
  | .syncPulse _ => true
  | .dataByte _ => true

/-- Whether a host operation of R81 (true) or a far-side transfer (false). -/
def Instr.isHost : Instr → Bool
  | .init => true
  | .writeAt _ _ _ => true
  | .writeStream _ => true
  | .moveTo _ _ => true
  | .clear => true
  | .home => true
  | .setDisplayOff => true
  | .setDisplayOn => true
  | .setCursorOff => true
  | .setCursorOn => true
  | .setBlinkOff => true
  | .setBlinkOn => true
  | .setFlowDecrement => true
  | .setFlowIncrement => true
  | .setShiftOff => true
  | .setShiftOn => true
  | .defineGlyph _ _ => true
  | .columns => true
  | .rows => true
  | .clearDisplay => false
  | .returnHome => false
  | .entryModeSet _ _ => false
  | .displayControl _ _ _ => false
  | .functionSet _ _ _ => false
  | .setCgramAddr _ => false
  | .setDdramAddr _ => false
  | .syncPulse _ => false
  | .dataByte _ => false

/-- The delays of the handshake entries after the second: at least 100 where another pulse follows (R142). -/
def syncTailWf : List (Nibble × Nat) → Bool
  | [] => true
  | [_] => true
  | (_, d) :: rest => 100 ≤ d && syncTailWf rest

/-- SYNC_SEQ is admitted (R142): at least two entries, the first delay at least 4100, the second at least 100. -/
def syncSeqWf : List (Nibble × Nat) → Bool
  | (_, d1) :: (_, d2) :: rest => 4100 ≤ d1 && 100 ≤ d2 && syncTailWf rest
  | _ => false

/-- Busy-flag polling needs a read path (R7). -/
def Config.readPathWf (c : Config) : Bool :=
  match c.strategy with
  | .busyFlagPolling => c.canRead
  | .fixedDelay => true

/-- The lower bounds of R6 on the six timing minima. -/
def Config.timingWf (c : Config) : Bool :=
  2 ≤ c.tELow && 2 ≤ c.tEHigh && 40 ≤ c.tHold && 40 ≤ c.tCmd && 1520 ≤ c.tHome && 6200 ≤ c.tClear

/-- An admitted configuration (R6, R7, R142): a block with any other one does not exist (93, U17). -/
def Config.wf (c : Config) : Bool :=
  c.readPathWf && syncSeqWf c.syncSeq && c.timingWf

end Sys2Proof
end

