-- ==== Sys2Proof/Decode.lean ====
section
/-!
DEFINITION. Decoding of the four formats (30_encoding.md), total and rejecting by name, and after it the encoder, written
from the same tables.
-/

namespace Sys2Proof

/-- Why a word is no instruction. -/
inductive DecodeError where
  /-- `op` is in 0xA..0xF (R83). -/
  | reservedOpcode
  /-- `rsv` is not zero (R83). -/
  | reservedBits
  /-- SET_MODE with a mode code of 0x0A or more (R83, R85). -/
  | reservedMode
  /-- A command byte the encoder never forms (R104). -/
  | neverFormed
  deriving DecidableEq, Repr

/-- What a decoder answers. -/
inductive Decoded where
  | instr (i : Instr)
  | reject (why : DecodeError)
  deriving DecidableEq, Repr

/-- The instruction, where there is one. -/
def Decoded.toOption : Decoded → Option Instr
  | .instr i => some i
  | .reject _ => none

/-! ## The fields of the host word (R80) -/

/-- W[31:28], the operation code. -/
def HostWord.op (h : HostWord) : BitVec 4 := h.w.extractLsb' 28 4
/-- W[27:24], reserved. -/
def HostWord.rsv (h : HostWord) : BitVec 4 := h.w.extractLsb' 24 4
/-- W[23:16]: column or glyph slot. -/
def HostWord.fieldA (h : HostWord) : Byte := h.w.extractLsb' 16 8
/-- W[15:8]: row. -/
def HostWord.fieldB (h : HostWord) : Byte := h.w.extractLsb' 8 8
/-- W[7:0]: character code, stream byte or mode code. -/
def HostWord.fieldC (h : HostWord) : Byte := h.w.extractLsb' 0 8

/-- The ten modes of SET_MODE (R85): an even code clears a bit, the next odd code sets it. -/
def decodeMode (c : Byte) : Decoded :=
  match c with
  | 0x00#8 => .instr .setDisplayOff
  | 0x01#8 => .instr .setDisplayOn
  | 0x02#8 => .instr .setCursorOff
  | 0x03#8 => .instr .setCursorOn
  | 0x04#8 => .instr .setBlinkOff
  | 0x05#8 => .instr .setBlinkOn
  | 0x06#8 => .instr .setFlowDecrement
  | 0x07#8 => .instr .setFlowIncrement
  | 0x08#8 => .instr .setShiftOff
  | 0x09#8 => .instr .setShiftOn
  | _ => .reject .reservedMode

/-- The host operation a word names (R81, R83). A field the operation does not use is ignored (R80). -/
def decodeHost (h : HostWord) : Decoded :=
  if h.rsv ≠ 0#4 then .reject .reservedBits
  else
    match h.op with
    | 0x0#4 => .instr .init
    | 0x1#4 => .instr (.writeAt h.fieldA h.fieldB h.fieldC)
    | 0x2#4 => .instr (.writeStream h.fieldC)
    | 0x3#4 => .instr (.moveTo h.fieldA h.fieldB)
    | 0x4#4 => .instr .clear
    | 0x5#4 => .instr .home
    | 0x6#4 => decodeMode h.fieldC
    | 0x7#4 => .instr (.defineGlyph h.fieldA h.glyph)
    | 0x8#4 => .instr .columns
    | 0x9#4 => .instr .rows
    | _ => .reject .reservedOpcode

/-- The command a byte stands for (R94 to R101): the leading set bit selects the kind. A byte the encoder never forms is
rejected (R104). -/
def decodeCommand (byte : Byte) : Decoded :=
  if byte[7] then .instr (.setDdramAddr (byte.extractLsb' 0 7))
  else if byte[6] then
    if byte.extractLsb' 0 3 = 0#3 then .instr (.setCgramAddr (byte.extractLsb' 3 3)) else .reject .neverFormed
  else if byte[5] then
    if byte.extractLsb' 0 2 = 0#2 then .instr (.functionSet (byte[4]) (byte[3]) (byte[2])) else .reject .neverFormed
  else if byte[4] then .reject .neverFormed
  else if byte[3] then .instr (.displayControl (byte[2]) (byte[1]) (byte[0]))
  else if byte[2] then .instr (.entryModeSet (byte[1]) (byte[0]))
  else if byte = 0x02#8 then .instr .returnHome
  else if byte = 0x01#8 then .instr .clearDisplay
  else .reject .neverFormed

/-- The far-side instruction of a transfer: register-select low a command (R94), high a data byte (R102); a pulse
carries any nibble (R103). -/
def decodeTransfer : Transfer → Decoded
  | .cmd c => decodeCommand c
  | .data d => .instr (.dataByte d)
  | .sync n => .instr (.syncPulse n)

/-- The decoder: total on every word of every format. -/
def decode : Word → Decoded
  | .host h => decodeHost h
  | .far t => decodeTransfer t

/-! ## Words numbered as the opcode table numbers them -/

/-- The transfer a table word of at most 8 bits stands for. The table gives the word no register-select bit: a word of at
most 4 bits is a pulse (NIB4); a byte that is a command the encoder forms is read as that command (CTRL8); any other byte
can only be a data byte (DATA8), since no command has it (R94, R104). DESIGN CHOICE (log entry 2), safe. -/
def tableTransfer (nbits w : Nat) : Transfer :=
  if nbits ≤ 4 then .sync (BitVec.ofNat 4 w)
  else if (decodeCommand (BitVec.ofNat 8 w)).toOption.isSome then .cmd (BitVec.ofNat 8 w)
  else .data (BitVec.ofNat 8 w)

/-- The host word of a table word: `W` is bits 31..0, and `GLYPH` the 64 bits above them, zero where the table gives none. -/
def tableHostWord (w : Nat) : HostWord :=
  { w := BitVec.ofNat 32 w, glyph := BitVec.ofNat 64 (w / 2 ^ 32) }

/-- The word of a table word: a host word if it has more than 8 bits, else a far-side transfer. -/
def tableWord (nbits w : Nat) : Word :=
  if nbits ≤ 8 then .far (tableTransfer nbits w) else .host (tableHostWord w)

/-- The instruction the decoder reads from a table word. -/
def decodeTableWord (nbits w : Nat) : Option Instr := (decode (tableWord nbits w)).toOption

/-! ## The encoder -/

/-- `W = op, 0b0000, A, B, C` (R91). -/
def packHost (op : BitVec 4) (a b c : Byte) (glyph : BitVec 64) : Word :=
  .host { w := op ++ 0#4 ++ a ++ b ++ c, glyph := glyph }

/-- SET_MODE with a mode code (R85, R220). -/
def packMode (c : Byte) : Word := packHost 0x6 0 0 c 0

/-- One bit as a vector. -/
def bit (b : Bool) : BitVec 1 := BitVec.ofBool b

/-- The word of an instruction, every unused operand field zero (R91). -/
def encode : Instr → Word
  | .init => packHost 0x0 0 0 0 0
  | .writeAt column row code => packHost 0x1 column row code 0
  | .writeStream byte => packHost 0x2 0 0 byte 0
  | .moveTo column row => packHost 0x3 column row 0 0
  | .clear => packHost 0x4 0 0 0 0
  | .home => packHost 0x5 0 0 0 0
  | .setDisplayOff => packMode 0x00
  | .setDisplayOn => packMode 0x01
  | .setCursorOff => packMode 0x02
  | .setCursorOn => packMode 0x03
  | .setBlinkOff => packMode 0x04
  | .setBlinkOn => packMode 0x05
  | .setFlowDecrement => packMode 0x06
  | .setFlowIncrement => packMode 0x07
  | .setShiftOff => packMode 0x08
  | .setShiftOn => packMode 0x09
  | .defineGlyph slot glyph => packHost 0x7 slot 0 0 glyph
  | .columns => packHost 0x8 0 0 0 0
  | .rows => packHost 0x9 0 0 0 0
  | .clearDisplay => .far (.cmd 0x01)
  | .returnHome => .far (.cmd 0x02)
  | .entryModeSet id s => .far (.cmd (0b000001#6 ++ bit id ++ bit s))
  | .displayControl d c b => .far (.cmd (0b00001#5 ++ bit d ++ bit c ++ bit b))
  | .functionSet dl n f => .far (.cmd (0b001#3 ++ bit dl ++ bit n ++ bit f ++ 0b00#2))
  | .setCgramAddr slot => .far (.cmd (0b01#2 ++ slot ++ 0b000#3))
  | .setDdramAddr addr => .far (.cmd (0b1#1 ++ addr))
  | .syncPulse n => .far (.sync n)
  | .dataByte d => .far (.data d)

/-! ## The assembler's pseudo-operations (R93) -/

/-- The pseudo-operations of R93. -/
inductive Pseudo where
  | print (s : List Byte)
  | newline
  | putc (c : Byte)
  | locate (col row : Byte)
  | cls
  deriving DecidableEq, Repr

/-- What a pseudo-operation expands to before encoding (R93); NEWLINE is written for the default `LF_CODE`. -/
def Pseudo.expand : Pseudo → List Instr
  | .print s => s.map .writeStream
  | .newline => [.writeStream 0x0A]
  | .putc c => [.writeStream c]
  | .locate col row => [.moveTo col row]
  | .cls => [.clear]

end Sys2Proof
end

