-- ==== Sys2Proof/Machine/Fetch.lean ====
section
/-!
DEFINITION. How the block takes its next word (R71, R251, R299), the moves of HOST, and the word placement the host's checks use.
-/

namespace Sys2Proof.Machine

/-- What the block is about to do. -/
inductive Task where
  /-- The reset input is asserted (R280). -/
  | reset
  /-- An operation is running (R26). -/
  | resume
  /-- A far-side transfer stands at the transfer port. -/
  | transfer (t : Transfer)
  /-- HOST presents a word (R71). -/
  | word (h : HostWord)
  /-- Idle: nothing is presented. -/
  | idle
  deriving DecidableEq, Repr

/-- The next task: reset before everything, then the running operation (R66, R251), then the ports. -/
def State.task (s : State) : Task :=
  if s.resetIn = some 0 then .reset
  else
    match s.position, s.transferPort, s.hostPort with
    | _ :: _, _, _ => .resume
    | [], some t, _ => .transfer t
    | [], none, h :: _ => .word h
    | [], none, [] => .idle

/-- The state as an operation begins: its word is taken and no status is pending any more (R71, R251; log
entry 28). -/
def State.takeWord (s : State) : State := { s with hostPort := s.hostPort.tail, output := none }

/-- The state as a transfer begins. -/
def State.takeTransfer (s : State) : State := { s with transferPort := none }

/-- The running operation goes on from its position (R26, R164). -/
def State.resume (s : State) : State := run s.position s

/-- HOST gets further words ready to present (R92, R299). -/
def State.present (s : State) (ws : List HostWord) : State := { s with hostPort := s.hostPort ++ ws }

/-- A table word placed where the next step takes it: a host word at the head of the host port, a transfer at the transfer
port, with no operation running and no reset coming. -/
def placeWord (w : Word) (s : State) : State :=
  match w with
  | .host h => { s with hostPort := h :: s.hostPort, transferPort := none, position := [], resetIn := none }
  | .far t => { s with transferPort := some t, position := [], resetIn := none }

end Sys2Proof.Machine
end

