-- ==== Sys2Proof/Machine/Step.lean ====
section
/-!
DEFINITION. The step. One step takes one host operation as far as it goes: to its end or, under busy-flag polling, to the
end of a poll iteration that read busy, after which each further step is one more iteration of the same loop (R165; log entry 11).
-/

namespace Sys2Proof.Machine

/-- One step of the block. A configuration that is not admitted has no behaviour (R7). -/
def step (s : State) : Host.Outcome State Fault Refusal :=
  if s.cfg.wf then
    match s.task with
    | .reset => .next (assertReset (!s.position.isEmpty) s)
    | .resume => .next s.resume
    | .transfer t =>
      match decodeTransfer t with
      | .instr i => exec i s.takeTransfer
      | .reject _ => .refused .commandNeverFormed
    | .word h =>
      match decodeHost h with
      | .instr i => exec i s.takeWord
      | .reject _ => .next (refuse .errIllegalOp s.takeWord)
    | .idle => .next s
  else .refused .configurationNotAdmitted

/-- A state whose next step takes the given table word and runs exactly it. -/
def State.withFetchWord (s : State) (nbits w : Nat) : State := placeWord (tableWord nbits w) s

end Sys2Proof.Machine
end

