-- ==== Sys2Proof/Machine/Trace.lean ====
section
/-!
DEFINITION. What the spec says of a trace as a whole: its delays, timing conformance (R11), and the abstraction to the
command level (R14, R117). No meaning reads any of it.
-/

namespace Sys2Proof.Machine

/-! ## Delays (R11, R262, R298) -/

/-- The duration an event stands for: a delay's argument, nothing for a primitive (R9). -/
def BusEvent.duration : BusEvent → Nat
  | .delay t => t
  | .w4 _ => 0
  | .w8 _ => 0
  | .r4 _ => 0
  | .dir _ => 0
  | .e _ => 0
  | .rs _ => 0
  | .rw _ => 0

/-- The sum of the delays of a trace: a lower bound on its duration (R298). -/
def delaySum (evs : List BusEvent) : Nat := (evs.map BusEvent.duration).sum

/-- The number of primitives of a trace. -/
def primitives (evs : List BusEvent) : Nat := evs.countP BusEvent.isPrimitive

/-- Each event that is not a delay, with the sum of the delays between it and the next such event (R11). Delays before
the first are not compared (log entry 27). -/
def spaced : List BusEvent → List (BusEvent × Nat)
  | [] => []
  | ev :: evs =>
    if ev.isPrimitive then (ev, delaySum (evs.takeWhile (!·.isPrimitive))) :: spaced evs else spaced evs

/-- Timing conformance (R11): `second` has the events of `first` other than delays, in the same order, and waits at least
as long after each. -/
def conforms (first second : List BusEvent) : Bool :=
  (spaced first).map (·.1) == (spaced second).map (·.1)
    && ((spaced first).zip (spaced second)).all fun p => p.1.2 ≤ p.2.2

/-- The clock cycles a delay of `t` microseconds takes at least in a clocked implementation (R262). -/
def delayCycles (c : Config) (t : Nat) : Nat := (t * 1000 + c.tClkNs - 1) / c.tClkNs

/-- What the delay counter must be able to hold (R262). -/
def delayCounterBound (c : Config) : Nat :=
  delayCycles c (max (max c.tPowerOn c.tClear) ((c.syncSeq.map (·.2)).headD 0))

/-! ## The command level (R14, R117) -/

/-- The command-level trace's alphabet (R14): a handshake pulse carries a nibble, or a byte in 8-bit width. -/
inductive CommandEvent where
  | sync (n : Nibble)
  | syncByte (b : Byte)
  | cmd (c : Byte)
  | data (d : Byte)
  deriving DecidableEq, Repr

/-- What the abstraction remembers as it reads a trace (R117). `syncs` is how many write pulses of the Synchronizing region
are still to come: the trace alone does not tell where that region ends
(log entry 23). -/
structure AbsState where
  rs      : Bool
  rw      : Bool
  dir     : Dir
  last    : Byte
  pending : Option Nibble
  syncs   : Nat
  deriving DecidableEq, Repr

/-- The abstraction starts from the lines as they stand. -/
def AbsState.start (l : Lines) (syncs : Nat) : AbsState :=
  { rs := l.rs, rw := l.rw, dir := l.dir, last := l.data, pending := none, syncs := syncs }

/-- A whole byte on the lines: a command or a data byte by register-select. -/
def AbsState.transfer (a : AbsState) (b : Byte) : CommandEvent := if a.rs then .data b else .cmd b

/-- A write pulse (R117). -/
def AbsState.writePulse (w : BusWidth) (a : AbsState) : AbsState × List CommandEvent :=
  match a.syncs, w, a.pending with
  | k + 1, .w4, _ => ({ a with syncs := k }, [.sync (a.last.extractLsb' 4 4)])
  | k + 1, .w8, _ => ({ a with syncs := k }, [.syncByte a.last])
  | 0, .w8, _ => (a, [a.transfer a.last])
  | 0, .w4, none => ({ a with pending := some (a.last.extractLsb' 4 4) }, [])
  | 0, .w4, some hi => ({ a with pending := none }, [a.transfer (hi ++ a.last.extractLsb' 4 4)])

/-- One event of the abstraction (R117). -/
def AbsState.read (w : BusWidth) (a : AbsState) : BusEvent → AbsState × List CommandEvent
  | .delay _ => (a, [])
  | .r4 _ => (a, [])
  | .dir d => ({ a with dir := d }, [])
  | .rw x => ({ a with rw := x }, [])
  | .rs x => ({ a with rs := x }, [])
  | .w4 n => ({ a with last := n ++ 0x0#4 }, [])
  | .w8 b => ({ a with last := b }, [])
  | .e false => (a, [])
  | .e true => if !a.rw && a.dir == .output then a.writePulse w else (a, [])

/-- `abs` (R117). -/
def commandTrace (w : BusWidth) (a : AbsState) : List BusEvent → List CommandEvent
  | [] => []
  | ev :: evs => (a.read w ev).2 ++ commandTrace w (a.read w ev).1 evs

/-- How many write pulses INIT emits before its first CMD (R143, R144). -/
def initSyncs (c : Config) : Nat := (if c.oledResync then 5 else 0) + c.syncSeq.length

end Sys2Proof.Machine
end

