-- ==== Sys2Proof/Safety.lean ====
section
/-!
DEFINITION. The terms the claims use: the lines at rest, where a running operation is heading, what the configuration lets
the block emit, and what a claim asks of the environment.
-/

namespace Sys2Proof.Machine

/-! ## At rest (R31, R287) -/

/-- Enable low, read/write low, direction output (R287). -/
def Lines.atRest (l : Lines) : Bool := !l.e && !l.rw && l.dir == .output

/-- The phases a quiescent block can hold (R25). -/
def Phase.quiescent : Phase → Bool
  | .reset => true
  | .ready => true
  | .failed => true
  | .synchronizing => false
  | .functionSet => false
  | .displayOff => false
  | .cleared => false
  | .homePosition => false
  | .entryModeSet => false

/-- The invariant of a quiescent point (R25, R31): a quiescent phase and, in phase Ready, a cursor on the grid and lines at
rest. -/
def State.quiescentOk (s : State) : Bool :=
  s.phase.quiescent && (s.phase != .ready || (inRange s.cfg.geom s.curCol s.curRow && s.lines.atRest))

/-- What a micro action leaves in the registers and on the lines when BUS acknowledges it and the poll ends. -/
def Micro.effect (s : State) : Micro → State
  | .emit ev => { s with lines := s.lines.drive ev }
  | .poll => { s with lines := { s.lines with e := false } }
  | .setPhase p => { s with phase := p }
  | .setDisplayControl v => { s with displayControl := v }
  | .setEntryMode v => { s with entryMode := v }
  | .setCursor column row => { s with curCol := column, curRow := row }
  | .advance => s.advance
  | .ret _ => s

/-- Where the running operation is heading: its remaining actions taken one after the other. -/
def State.settled (s : State) : State := s.position.foldl Micro.effect s

/-- The invariant of every step: where the running operation is heading is a good quiescent point. When none is running
this is R31 itself. -/
def State.settles (s : State) : Bool := s.settled.quiescentOk

/-! ## What the configuration lets the block emit (R10, R51, R286) -/

/-- Reads and their line changes under polling only; the primitive of the other bus width never; no delay of zero. -/
def BusEvent.allowed (c : Config) : BusEvent → Bool
  | .w4 _ => c.busWidth == .w4
  | .w8 _ => c.busWidth == .w8
  | .r4 _ => c.strategy == .busyFlagPolling
  | .dir d => d == .output || c.strategy == .busyFlagPolling
  | .rw x => !x || c.strategy == .busyFlagPolling
  | .e _ => true
  | .rs _ => true
  | .delay t => t != 0

/-- The same of a micro action. -/
def Micro.allowed (c : Config) : Micro → Bool
  | .emit ev => ev.allowed c
  | .poll => c.strategy == .busyFlagPolling
  | .setPhase _ => true
  | .setDisplayControl _ => true
  | .setEntryMode _ => true
  | .setCursor _ _ => true
  | .advance => true
  | .ret _ => true

/-- The data lines are written only while their direction is output, and read only while it is input (R51). -/
def directionOk (l : Lines) : List BusEvent → Bool
  | [] => true
  | ev :: evs =>
    (match ev with
      | .w4 _ => l.dir == .output
      | .w8 _ => l.dir == .output
      | .r4 _ => l.dir == .input
      | .dir _ => true
      | .e _ => true
      | .rs _ => true
      | .rw _ => true
      | .delay _ => true) && directionOk (l.drive ev) evs

/-- The same of a micro-sequence about to run from these lines. -/
def programDirectionOk (l : Lines) : List Micro → Bool
  | [] => true
  | .emit ev :: ms => directionOk l [ev] && programDirectionOk (l.drive ev) ms
  | .poll :: ms => l.dir == .input && programDirectionOk { l with e := false } ms
  | .setPhase _ :: ms => programDirectionOk l ms
  | .setDisplayControl _ :: ms => programDirectionOk l ms
  | .setEntryMode _ :: ms => programDirectionOk l ms
  | .setCursor _ _ :: ms => programDirectionOk l ms
  | .advance :: ms => programDirectionOk l ms
  | .ret _ :: ms => programDirectionOk l ms

/-! ## What a claim asks of the environment (R52, R53, R166) -/

/-- The primitives of one poll iteration (R163). -/
def pollCost (c : Config) : Nat := primitives (pollRise c) + 1 + primitives (pollFall c)

/-- The primitives a micro action takes when a poll ends at its first iteration. -/
def Micro.cost (c : Config) : Micro → Nat
  | .emit ev => if ev.isPrimitive then 1 else 0
  | .poll => pollCost c
  | .setPhase _ => 0
  | .setDisplayControl _ => 0
  | .setEntryMode _ => 0
  | .setCursor _ _ => 0
  | .advance => 0
  | .ret _ => 0

/-- The primitives a micro-sequence takes when every poll ends at its first iteration. -/
def cost (c : Config) (p : List Micro) : Nat := (p.map (Micro.cost c)).sum

/-- Whether a micro action emits one event whatever the environment answers: all but the poll and the register actions. -/
def Micro.emits : Micro → Bool
  | .emit _ => true
  | .poll => false
  | .setPhase _ => false
  | .setDisplayControl _ => false
  | .setEntryMode _ => false
  | .setCursor _ _ => false
  | .advance => false
  | .ret _ => false

/-- No reset input is coming, and the next `n` primitives are acknowledged. -/
def State.Acks (s : State) (n : Nat) : Prop :=
  s.resetIn = none ∧ ∀ j, j < n → s.ackedAt j = true

/-- As `Acks`, and under busy-flag polling every one of those answers has the busy flag clear. -/
def State.Grants (s : State) (n : Nat) : Prop :=
  s.Acks n ∧ (s.cfg.strategy = .busyFlagPolling → ∀ j, j < n → busy (s.answerAt j).data = false)

/-- No reset input is coming, and every primitive from now on is acknowledged. -/
def State.AcksAll (s : State) : Prop := s.resetIn = none ∧ ∀ j, s.ackedAt j = true

/-- A running operation stands in the loop of POLLWAIT: its last sample was busy (R164). -/
def State.inPoll (s : State) : Bool :=
  match s.position with
  | .poll :: _ => true
  | _ => false

/-- Of the samples that the polls from now on would read, one has bit 3 clear, after however many that have it set: the
`k`-th iteration reads the answer to its second primitive (R163). -/
def State.PollClears (s : State) : Prop := ∃ k, (s.answerAt (k * pollCost s.cfg + 1)).data.toNat < 8

/-- ENV_BF_CLEARS (R166), the premise of every claim that an operation ends under busy-flag polling: wherever the run from
here stands in a poll loop, some later sample of that POLLWAIT has bit 3 clear. No bound on the number of iterations. -/
def State.EnvBfClears (s : State) : Prop :=
  ∀ n t, Host.Core.run Sys2Proof.core n s = .next t → t.inPoll = true → t.PollClears

/-- The samples of one POLLWAIT: any number with bit 3 set, then one with it clear (R164). -/
def BusyUntilReady (vs : List Nibble) : Prop :=
  ∃ bs v, vs = bs ++ [v] ∧ (∀ b ∈ bs, 8 ≤ b.toNat) ∧ v.toNat < 8

/-! ## What a claim says of a completed operation -/

/-- The statuses returned so far (R299). -/
def State.statuses (s : State) : List Status := s.results.map (·.status)

/-- What no operation ever changes: the configuration, the attached transport, the words HOST has still to present, the
transfer port. -/
def SameOutside (s t : State) : Prop :=
  t.cfg = s.cfg ∧ t.transport = s.transport ∧ t.hostPort = s.hostPort ∧ t.transferPort = s.transferPort

/-- The cursor is as it was. -/
def SameCursor (s t : State) : Prop := t.curCol = s.curCol ∧ t.curRow = s.curRow

/-- Both shadow registers are as they were. -/
def SameShadows (s t : State) : Prop := t.displayControl = s.displayControl ∧ t.entryMode = s.entryMode

/-- The events since `s` are, at the command level, `cmds`, read from the lines of `s` with `syncs` handshake pulses first
(R117); the operation is over and the lines are at rest. -/
def Sent (s t : State) (syncs : Nat) (cmds : List CommandEvent) : Prop :=
  (∃ evs, t.trace = s.trace ++ evs ∧ commandTrace s.cfg.busWidth (.start s.lines syncs) evs = cmds)
    ∧ t.position = [] ∧ t.lines.atRest = true

/-- Exactly one status was returned since `s`, and it is the pending output. -/
def Returned (s t : State) (st : Status) : Prop :=
  ∃ v, t.output = some { status := st, value := v } ∧ t.results = s.results ++ [{ status := st, value := v }]

/-- Nothing happened but that a status was returned (R259): no event, no register, no line, no operation begun. -/
def Refused (s t : State) (st : Status) : Prop :=
  Returned s t st ∧ t.trace = s.trace ∧ t.phase = s.phase ∧ SameCursor s t ∧ SameShadows s t ∧ t.lines = s.lines
    ∧ t.position = s.position ∧ SameOutside s t ∧ t.resetIn = s.resetIn

/-- No register of the block and no result changed: phase, cursor, shadows, output. -/
def SameRegisters (s t : State) : Prop :=
  t.phase = s.phase ∧ SameCursor s t ∧ SameShadows s t ∧ t.output = s.output ∧ t.results = s.results

/-! ## The event lists as the spec prints them, for configurations whose delays are not zero -/

/-- PULSE_W (R110). -/
def pulseEvents (c : Config) : List BusEvent :=
  [.e false, .delay c.tELow, .e true, .delay c.tEHigh, .e false, .delay c.tHold]

/-- `W4(n) P` as R154 prints it: a nibble and its pulse with the default constants of R6. -/
def defaultNibble (n : Nibble) : List BusEvent :=
  [.w4 n, .e false, .delay 2, .e true, .delay 2, .e false, .delay 40]

/-- The bus-level trace of INIT with every parameter at its default, 4-bit width, fixed delay, as R154 prints it. -/
def defaultInitEvents : List BusEvent :=
  List.flatten
    [[.e false, .rs false, .rw false, .dir .output, .delay 40000],
      defaultNibble 3, [.delay 4100], defaultNibble 3, [.delay 100], defaultNibble 2,
      [.rs false], defaultNibble 2, defaultNibble 8, [.delay 40],
      [.rs false], defaultNibble 0, defaultNibble 8, [.delay 40],
      [.rs false], defaultNibble 0, defaultNibble 1, [.delay 6200],
      [.rs false], defaultNibble 0, defaultNibble 2, [.delay 1520],
      [.rs false], defaultNibble 0, defaultNibble 6, [.delay 40]]

/-- Register-select, then XFER (R112, R113, R114). -/
def transferEvents (c : Config) (rs : Bool) (b : Byte) : List BusEvent :=
  match c.busWidth with
  | .w4 =>
    [.rs rs] ++ [.w4 (BitVec.ofNat 4 (b.toNat / 16))] ++ pulseEvents c
      ++ [.w4 (BitVec.ofNat 4 (b.toNat % 16))] ++ pulseEvents c
  | .w8 => [.rs rs] ++ [.w8 b] ++ pulseEvents c

/-- What fixed delay waits after a byte (R105, R161): `T_CLEAR` after the command 0x01, `T_HOME` after the command 0x02,
`T_CMD` after every other command and after data. -/
def fixedTime (c : Config) (rs : Bool) (b : Byte) : Nat :=
  if rs = false ∧ b = 0x01 then c.tClear else if rs = false ∧ b = 0x02 then c.tHome else c.tCmd

/-- CMD or DATA under fixed delay (R113, R114). -/
def fixedTransfer (c : Config) (rs : Bool) (b : Byte) : List BusEvent :=
  transferEvents c rs b ++ [.delay (fixedTime c rs b)]

/-- One poll iteration that reads `v` (R163). -/
def pollIteration (c : Config) (v : Nibble) : List BusEvent :=
  match c.busWidth with
  | .w4 =>
    [.e true, .delay c.tEHigh, .r4 v, .e false, .delay c.tELow, .e true, .delay c.tEHigh, .e false, .delay c.tELow]
  | .w8 => [.e true, .delay c.tEHigh, .r4 v, .e false, .delay c.tELow]

/-- CMD or DATA under polling, the polls reading `vs` in order (R113, R114, R162 to R164). -/
def polledTransfer (c : Config) (rs : Bool) (b : Byte) (vs : List Nibble) : List BusEvent :=
  transferEvents c rs b ++ [.dir .input, .rs false, .rw true] ++ vs.flatMap (pollIteration c) ++ [.dir .output, .rw false]

/-- Transfers in order under polling, each with the samples of its own POLLWAIT. -/
def polledTransfers (c : Config) (xs : List (Bool × Byte)) (vss : List (List Nibble)) : List BusEvent :=
  (xs.zip vss).flatMap fun x => polledTransfer c x.1.1 x.1.2 x.2

/-! ## The events an operation emits (R250) -/

/-- What one action emits where nothing cuts it short: a poll any number of iterations that read busy, then one that reads
ready (R164). -/
def Micro.Emits (c : Config) (m : Micro) (evs : List BusEvent) : Prop :=
  match m with
  | .emit ev => evs = [ev]
  | .poll => ∃ vs, BusyUntilReady vs ∧ evs = vs.flatMap (pollIteration c)
  | .setPhase _ => evs = []
  | .setDisplayControl _ => evs = []
  | .setEntryMode _ => evs = []
  | .setCursor _ _ => evs = []
  | .advance => evs = []
  | .ret _ => evs = []

/-- `evs` is all that the micro-sequence `p` emits, in order, for some samples of its polls: the one event list there is
where `p` has no poll. `Emits c p (evs ++ rest)` says that `evs` is a prefix of the operation's own events. -/
def Emits (c : Config) : List Micro → List BusEvent → Prop
  | [], evs => evs = []
  | m :: ms, evs => ∃ first rest, evs = first ++ rest ∧ m.Emits c first ∧ Emits c ms rest

/-! ## The instructions by what they do -/

/-- The register-select level and the byte of a far-side transfer instruction, as the numbers of R95 to R102; a handshake
pulse is no transfer (R64). -/
def farByte : Instr → Option (Bool × Byte)
  | .clearDisplay => some (false, 0x01)
  | .returnHome => some (false, 0x02)
  | .entryModeSet id sh => some (false, BitVec.ofNat 8 (4 + 2 * id.toNat + sh.toNat))
  | .displayControl d cu b => some (false, BitVec.ofNat 8 (8 + 4 * d.toNat + 2 * cu.toNat + b.toNat))
  | .functionSet dl n f => some (false, BitVec.ofNat 8 (32 + 16 * dl.toNat + 8 * n.toNat + 4 * f.toNat))
  | .setCgramAddr slot => some (false, BitVec.ofNat 8 (64 + 8 * slot.toNat))
  | .setDdramAddr a => some (false, BitVec.ofNat 8 (128 + a.toNat))
  | .dataByte d => some (true, d)
  | _ => none

/-- The shadow a display mode leaves, by the masks of R222 to R227. -/
def displayAfter (v : BitVec 3) : Instr → Option (BitVec 3)
  | .setDisplayOff => some (v &&& 0b011)
  | .setDisplayOn => some (v ||| 0b100)
  | .setCursorOff => some (v &&& 0b101)
  | .setCursorOn => some (v ||| 0b010)
  | .setBlinkOff => some (v &&& 0b110)
  | .setBlinkOn => some (v ||| 0b001)
  | _ => none

/-- The shadow an entry mode leaves, by the masks of R228 to R231. -/
def entryAfter (v : BitVec 2) : Instr → Option (BitVec 2)
  | .setFlowDecrement => some (v &&& 0b01)
  | .setFlowIncrement => some (v ||| 0b10)
  | .setShiftOff => some (v &&& 0b10)
  | .setShiftOn => some (v ||| 0b01)
  | _ => none

/-- The cursor that a completed operation of transfers leaves (R190, R191, R193, R194, R199, R220, R240). -/
def cursorAfter (s : State) : Instr → Byte × Byte
  | .writeStream _ => (s.advance.curCol, s.advance.curRow)
  | .clear => (0, 0)
  | .home => (0, 0)
  | _ => (s.curCol, s.curRow)

/-- The operations that write the cursor (R21, R22). -/
def writesCursor : Instr → Bool
  | .init => true
  | .writeStream _ => true
  | .moveTo _ _ => true
  | .clear => true
  | .home => true
  | _ => false

/-- The operations that write `displayControl` (R27). -/
def writesDisplay : Instr → Bool
  | .init => true
  | .setDisplayOff => true
  | .setDisplayOn => true
  | .setCursorOff => true
  | .setCursorOn => true
  | .setBlinkOff => true
  | .setBlinkOn => true
  | _ => false

/-- The operations that write `entryMode` (R28). -/
def writesEntry : Instr → Bool
  | .init => true
  | .setFlowDecrement => true
  | .setFlowIncrement => true
  | .setShiftOff => true
  | .setShiftOn => true
  | _ => false

/-- The micro-sequence of a display mode. -/
def displayModeProgram (s : State) (i : Instr) : Option (List Micro) :=
  (displayAfter s.displayControl i).map (displayProgram s.cfg)

/-- The micro-sequence of an entry mode. -/
def entryModeProgram (s : State) (i : Instr) : Option (List Micro) :=
  (entryAfter s.entryMode i).map (entryProgram s.cfg)

/-- The micro-sequence a host operation runs in phase Ready, where it runs one (INIT in any phase). -/
def hostProgram (s : State) : Instr → Option (List Micro)
  | .init => some (initProgram s.cfg)
  | .writeAt column row code => (addr s.cfg.geom column row).map fun a => writeAtProgram s.cfg a code
  | .writeStream byte =>
    if byte = s.cfg.lfCode then none
    else (addr s.cfg.geom s.curCol s.curRow).map fun a => writeStreamProgram s.cfg a byte
  | .clear => some (clearProgram s.cfg)
  | .home => some (homeProgram s.cfg)
  | .defineGlyph slot glyph =>
    if slot.toNat ≤ 7 then some (glyphProgram s.cfg (slot.extractLsb' 0 3) glyph) else none
  | .setDisplayOff => displayModeProgram s .setDisplayOff
  | .setDisplayOn => displayModeProgram s .setDisplayOn
  | .setCursorOff => displayModeProgram s .setCursorOff
  | .setCursorOn => displayModeProgram s .setCursorOn
  | .setBlinkOff => displayModeProgram s .setBlinkOff
  | .setBlinkOn => displayModeProgram s .setBlinkOn
  | .setFlowDecrement => entryModeProgram s .setFlowDecrement
  | .setFlowIncrement => entryModeProgram s .setFlowIncrement
  | .setShiftOff => entryModeProgram s .setShiftOff
  | .setShiftOn => entryModeProgram s .setShiftOn
  | .moveTo _ _ => none
  | .columns => none
  | .rows => none
  | .clearDisplay => none
  | .returnHome => none
  | .entryModeSet _ _ => none
  | .displayControl _ _ _ => none
  | .functionSet _ _ _ => none
  | .setCgramAddr _ => none
  | .setDdramAddr _ => none
  | .syncPulse _ => none
  | .dataByte _ => none

/-- The one transfer of a display mode: the byte formed from the changed shadow (R98, R220). -/
def displayModeTransfers (s : State) (i : Instr) : Option (List (Bool × Byte)) :=
  (displayAfter s.displayControl i).map fun v => [(false, BitVec.ofNat 8 (8 + v.toNat))]

/-- The one transfer of an entry mode (R97, R220). -/
def entryModeTransfers (s : State) (i : Instr) : Option (List (Bool × Byte)) :=
  (entryAfter s.entryMode i).map fun v => [(false, BitVec.ofNat 8 (4 + v.toNat))]

/-- The five commands of INIT, in order (R140, R145 to R149): the function set byte from the configuration (R99). -/
def initTransfers (c : Config) : List (Bool × Byte) :=
  [(false, BitVec.ofNat 8 (32 + (if c.busWidth = .w8 then 16 else 0) + 8 + (if c.font = .f5x10 then 4 else 0))),
    (false, 0x08), (false, 0x01), (false, 0x02), (false, 0x06)]

/-- The transfers of a host operation other than INIT, in order: register-select level and byte (R14, R190 to R194, R220,
R240). -/
def hostTransfers (s : State) : Instr → Option (List (Bool × Byte))
  | .init => none
  | .writeAt column row code =>
    (addr s.cfg.geom column row).map fun a => [(false, BitVec.ofNat 8 (128 + a.toNat)), (true, code)]
  | .writeStream byte =>
    if byte = s.cfg.lfCode then none
    else (addr s.cfg.geom s.curCol s.curRow).map fun a => [(false, BitVec.ofNat 8 (128 + a.toNat)), (true, byte)]
  | .clear => some [(false, 0x01)]
  | .home => some [(false, 0x02)]
  | .defineGlyph slot glyph =>
    if slot.toNat ≤ 7 then
      some ((false, BitVec.ofNat 8 (64 + 8 * slot.toNat))
        :: (List.range 8).map fun k => (true, BitVec.ofNat 8 (glyph.toNat / 2 ^ (8 * k))))
    else none
  | .setDisplayOff => displayModeTransfers s .setDisplayOff
  | .setDisplayOn => displayModeTransfers s .setDisplayOn
  | .setCursorOff => displayModeTransfers s .setCursorOff
  | .setCursorOn => displayModeTransfers s .setCursorOn
  | .setBlinkOff => displayModeTransfers s .setBlinkOff
  | .setBlinkOn => displayModeTransfers s .setBlinkOn
  | .setFlowDecrement => entryModeTransfers s .setFlowDecrement
  | .setFlowIncrement => entryModeTransfers s .setFlowIncrement
  | .setShiftOff => entryModeTransfers s .setShiftOff
  | .setShiftOn => entryModeTransfers s .setShiftOn
  | .moveTo _ _ => none
  | .columns => none
  | .rows => none
  | .clearDisplay => none
  | .returnHome => none
  | .entryModeSet _ _ => none
  | .displayControl _ _ _ => none
  | .functionSet _ _ _ => none
  | .setCgramAddr _ => none
  | .setDdramAddr _ => none
  | .syncPulse _ => none
  | .dataByte _ => none

/-- The durations of R298, in microseconds: fixed delay, 4-bit width, default constants, line feed 0x0A, in phase Ready. An
operation without bus events takes 0; R298 gives a far-side transfer on its own no figure. -/
def durationBound (g : Geom) : Instr → Option Nat
  | .init => some 52612
  | .writeAt column row _ => if inRange g column row then some 256 else some 0
  | .writeStream byte => if byte = 0x0A then some 0 else some 256
  | .moveTo _ _ => some 0
  | .clear => some 6288
  | .home => some 1608
  | .setDisplayOff => some 128
  | .setDisplayOn => some 128
  | .setCursorOff => some 128
  | .setCursorOn => some 128
  | .setBlinkOff => some 128
  | .setBlinkOn => some 128
  | .setFlowDecrement => some 128
  | .setFlowIncrement => some 128
  | .setShiftOff => some 128
  | .setShiftOn => some 128
  | .defineGlyph slot _ => if slot.toNat ≤ 7 then some 1152 else some 0
  | .columns => some 0
  | .rows => some 0
  | .clearDisplay => none
  | .returnHome => none
  | .entryModeSet _ _ => none
  | .displayControl _ _ _ => none
  | .functionSet _ _ _ => none
  | .setCgramAddr _ => none
  | .setDdramAddr _ => none
  | .syncPulse _ => none
  | .dataByte _ => none

end Sys2Proof.Machine
end

