-- ==== Sys2Proof/Certificates/Slice0/Obligations.lean ====
section
/-!
DEFINITION. The statements for the provers, taken from the spec's numbered rules. `s.Acks n` and `s.Grants n` say what the
environment answers to the next `n` primitives (R52, R53); `cost` counts the primitives of the operation's own
micro-sequence.
-/

open Sys2Proof Sys2Proof.Machine

/-! ## Encoding -/

/-- Decoding what the encoder wrote gives the instruction back, with every operand at every value, for all 28
instructions. -/
def Obligations.DecodeInvertsEncode : Prop :=
  ∀ i : Instr, decode (encode i) = .instr i

/-- R83: exactly these host words are illegal. -/
def Obligations.IllegalHostWordsAreTheListed : Prop :=
  ∀ h : HostWord,
    (∃ why, decodeHost h = .reject why) ↔
      10 ≤ h.w.toNat / 2 ^ 28 ∨ h.w.toNat / 2 ^ 24 % 16 ≠ 0 ∨ (h.w.toNat / 2 ^ 28 = 6 ∧ 10 ≤ h.w.toNat % 2 ^ 8)

/-- R80, R84: a field that an operation does not use has no effect, and GLYPH none on any operation but DEFINE_GLYPH:
two words that agree in `op` and `rsv` and in what the operation uses name the same operation. -/
def Obligations.UnusedFieldsAreIgnored : Prop :=
  ∀ h k : HostWord, h.op = k.op → h.rsv = k.rsv →
    (h.op ∈ [0x1#4, 0x3#4, 0x7#4] → h.fieldA = k.fieldA) →
    (h.op ∈ [0x1#4, 0x3#4] → h.fieldB = k.fieldB) →
    (h.op ∈ [0x1#4, 0x2#4, 0x6#4] → h.fieldC = k.fieldC) →
    (h.op = 0x7#4 → h.glyph = k.glyph) →
    decodeHost h = decodeHost k

/-- The decoder rejects exactly the command bytes R104 lists. R104 lets a decoder reject them (log entry 25); the other
bytes the block itself never forms, a function set with N = 0 and an address outside the map, decode (log entry 22). -/
def Obligations.NeverFormedBytesAreRejected : Prop :=
  ∀ b : Byte, decodeCommand b = .reject .neverFormed ↔
    b.toNat = 0 ∨ b.toNat = 3 ∨ (0x10 ≤ b.toNat ∧ b.toNat ≤ 0x1F)
      ∨ (0x20 ≤ b.toNat ∧ b.toNat < 0x40 ∧ b.toNat % 4 ≠ 0) ∨ (0x40 ≤ b.toNat ∧ b.toNat < 0x80 ∧ b.toNat % 8 ≠ 0)

/-- Words written out from R81, R85, R91 and R95 to R101 decode to the instructions they stand for. -/
def Obligations.WordsOfTheSpecDecode : Prop :=
  decodeHost ⟨0x30130300, 0⟩ = .instr (.moveTo 19 3) ∧
  decodeHost ⟨0x20000041, 0⟩ = .instr (.writeStream 0x41) ∧
  decodeHost ⟨0x60000003, 0⟩ = .instr .setCursorOn ∧
  decodeHost ⟨0x100F015A, 0⟩ = .instr (.writeAt 15 1 0x5A) ∧
  decodeHost ⟨0x70010000, 0x0000040E1F1F0A00⟩ = .instr (.defineGlyph 1 0x0000040E1F1F0A00) ∧
  decodeCommand 0x0E = .instr (.displayControl true true false) ∧
  decodeCommand 0x48 = .instr (.setCgramAddr 1) ∧
  decodeCommand 0x94 = .instr (.setDdramAddr 0x14)

/-! ## One step -/

/-- A step with a host word at the port runs the decoded operation (R71, R251): the word is taken, no status is pending any
more (log entry 28), and the step is `exec` there. -/
def Obligations.StepRunsTheHostWord : Prop :=
  ∀ (s : State) (h : HostWord) (rest : List HostWord) (i : Instr),
    s.cfg.wf = true → s.resetIn ≠ some 0 → s.position = [] → s.transferPort = none → s.hostPort = h :: rest →
    decodeHost h = .instr i →
    step s = exec i { s with hostPort := rest, output := none }

/-- A step with a transfer at the transfer port runs the decoded instruction. The transfer port is the model's own (log
entry 3). -/
def Obligations.StepRunsTheTransfer : Prop :=
  ∀ (s : State) (x : Transfer) (i : Instr),
    s.cfg.wf = true → s.resetIn ≠ some 0 → s.position = [] → s.transferPort = some x → decodeTransfer x = .instr i →
    step s = exec i { s with transferPort := none }

/-- A step is refused for its configuration exactly if polling has no read path (R7), the handshake has fewer than two
entries or a delay below its bound (R142), or a timing is below its minimum (R6). That the clause on later entries and the
minima are conditions of admission is the model's reading (log entry 15). -/
def Obligations.BadConfigurationIsRefused : Prop :=
  ∀ s : State,
    step s = .refused .configurationNotAdmitted ↔
      (s.cfg.strategy = .busyFlagPolling ∧ s.cfg.canRead = false) ∨
      s.cfg.syncSeq.length < 2 ∨
      (∃ n d, s.cfg.syncSeq[0]? = some (n, d) ∧ d < 4100) ∨
      (∃ n d, s.cfg.syncSeq[1]? = some (n, d) ∧ d < 100) ∨
      (∃ k n d, 2 ≤ k ∧ k + 1 < s.cfg.syncSeq.length ∧ s.cfg.syncSeq[k]? = some (n, d) ∧ d < 100) ∨
      s.cfg.tELow < 2 ∨ s.cfg.tEHigh < 2 ∨ s.cfg.tHold < 40 ∨ s.cfg.tCmd < 40 ∨ s.cfg.tHome < 1520 ∨ s.cfg.tClear < 6200

/-- R83, R252: a word with a reserved opcode, a non-zero reserved field or a reserved mode code is refused with
ERR_ILLEGAL_OP in every phase: no event, no register change. -/
def Obligations.IllegalWordIsRefusedInEveryPhase : Prop :=
  ∀ (s : State) (h : HostWord) (rest : List HostWord),
    s.cfg.wf = true → s.resetIn ≠ some 0 → s.position = [] → s.transferPort = none → s.hostPort = h :: rest →
    (10 ≤ h.w.toNat / 2 ^ 28 ∨ h.w.toNat / 2 ^ 24 % 16 ≠ 0 ∨ (h.w.toNat / 2 ^ 28 = 6 ∧ 10 ≤ h.w.toNat % 2 ^ 8)) →
    ∃ t, step s = .next t ∧ Refused { s with hostPort := rest, output := none } t .errIllegalOp

/-- R253, R257, R261: a legal operation other than INIT is refused with ERR_NOT_READY in every phase but Ready, whatever
its operands. -/
def Obligations.NotReadyIsRefused : Prop :=
  ∀ (s : State) (i : Instr), i.isHost = true → i ≠ .init → s.phase ≠ .ready →
    ∃ t, exec i s = .next t ∧ Refused s t .errNotReady

/-- R182, R254: in phase Ready, WRITE_AT and MOVE_TO of a position outside the geometry are refused with ERR_RANGE. -/
def Obligations.OutOfRangeIsRefused : Prop :=
  ∀ (s : State) (column row code : Byte), s.phase = .ready →
    (cols s.cfg.geom ≤ column.toNat ∨ rows s.cfg.geom ≤ row.toNat) →
    (∃ t, exec (.writeAt column row code) s = .next t ∧ Refused s t .errRange) ∧
    (∃ t, exec (.moveTo column row) s = .next t ∧ Refused s t .errRange)

/-! ## The address mapper -/

/-- R180: the address and the SET_DDRAM_ADDR byte of every position in range, `row*0x40 + column` in the two-line
geometries and from the four row starts in 20x4; a position out of range has none. -/
def Obligations.MapperFollowsTheRowStarts : Prop :=
  ∀ (g : Geom) (column row : Byte),
    (column.toNat < cols g ∧ row.toNat < rows g →
      ∃ a, addr g column row = some a ∧ (ddramByte a).toNat = 0x80 + a.toNat ∧
        (g ≠ .g20x4 → a.toNat = row.toNat * 0x40 + column.toNat) ∧
        (g = .g20x4 → a.toNat = [0x00, 0x40, 0x14, 0x54].getD row.toNat 0 + column.toNat)) ∧
    (¬ (column.toNat < cols g ∧ row.toNat < rows g) → addr g column row = none)

/-- R183: two positions in range whose SET_DDRAM_ADDR bytes agree are the same position. -/
def Obligations.MapperIsInjective : Prop :=
  ∀ (g : Geom) (c1 r1 c2 r2 : Byte) (a b : BitVec 7),
    addr g c1 r1 = some a → addr g c2 r2 = some b → ddramByte a = ddramByte b → c1 = c2 ∧ r1 = r2

/-- R56, R181, R182: an address is formed exactly for a position in range, never above `0x67`, and never in
`0x28..0x3F`. -/
def Obligations.MapperStaysInTheFormedAddresses : Prop :=
  ∀ (g : Geom) (column row : Byte),
    (addr g column row = none ↔ ¬ (column.toNat < cols g ∧ row.toNat < rows g)) ∧
    (∀ a, addr g column row = some a → a.toNat ≤ 0x67 ∧ ddramFormed a = true)

/-! ## Transfers (40_bus_transfer.md, 42_readiness.md) -/

/-- R110: PULSE_W of an admitted configuration is these six events. -/
def Obligations.PulseIsSixEvents : Prop :=
  ∀ c : Config, c.wf = true →
    pulse c = [.e false, .delay c.tELow, .e true, .delay c.tEHigh, .e false, .delay c.tHold]

/-- R112 to R114, R161: under fixed delay every far-side command instruction, and the data byte, completes at the model's
transfer port (log entry 3): register-select
at its level, the byte high nibble first (or whole), then the delay of its class. Nothing else changes: no register, no
direction or read/write line, nothing outside. -/
def Obligations.FarTransferUnderFixedDelay : Prop :=
  ∀ (s : State) (i : Instr) (rs : Bool) (b : Byte),
    s.cfg.wf = true → s.cfg.strategy = .fixedDelay → farByte i = some (rs, b) →
    s.Acks (primitives (fixedTransfer s.cfg rs b)) →
    ∃ t, exec i s = .next t ∧ t.trace = s.trace ++ fixedTransfer s.cfg rs b ∧ t.position = [] ∧
      SameRegisters s t ∧ SameOutside s t ∧
      t.lines.e = false ∧ t.lines.rs = rs ∧ t.lines.rw = s.lines.rw ∧ t.lines.dir = s.lines.dir

/-- R162 to R164: under busy-flag polling, where the poll's first sample `v` has bit 3 clear, the same instructions
complete (log entry 3) with one poll iteration between the entry and the exit of POLLWAIT, and leave the lines at rest. -/
def Obligations.FarTransferUnderPolling : Prop :=
  ∀ (s : State) (i : Instr) (rs : Bool) (b : Byte) (v : Nibble),
    s.cfg.wf = true → s.cfg.strategy = .busyFlagPolling → farByte i = some (rs, b) →
    s.Acks (primitives (polledTransfer s.cfg rs b [v])) →
    (s.answerAt (primitives (transferEvents s.cfg rs b) + 4)).data = v → v.toNat < 8 →
    ∃ t, exec i s = .next t ∧ t.trace = s.trace ++ polledTransfer s.cfg rs b [v] ∧ t.position = [] ∧
      SameRegisters s t ∧ SameOutside s t ∧ t.lines.atRest = true ∧ t.lines.rs = false

/-- R103, R143: a handshake pulse drives one nibble, or in 8-bit width the byte with that nibble on top, and clocks it
with one pulse; it drives no other line and no readiness wait follows (on its own, log entry 3). -/
def Obligations.SyncPulseIsOnePulse : Prop :=
  ∀ (s : State) (n : Nibble), s.cfg.wf = true → s.Acks 4 →
    ∃ t, exec (.syncPulse n) s = .next t ∧
      t.trace = s.trace ++
        (match s.cfg.busWidth with
          | .w4 => BusEvent.w4 n
          | .w8 => BusEvent.w8 (BitVec.ofNat 8 (16 * n.toNat))) :: pulseEvents s.cfg ∧
      t.position = [] ∧ SameRegisters s t ∧ SameOutside s t ∧
      t.lines.e = false ∧ t.lines.rs = s.lines.rs ∧ t.lines.rw = s.lines.rw ∧ t.lines.dir = s.lines.dir

/-- R163 to R165: while the sample has bit 3 set the loop stands: a step is one more iteration, and the operation has
neither moved on nor returned. Enable is low after it, and no other line has changed. -/
def Obligations.BusySampleKeepsPolling : Prop :=
  ∀ (s : State) (ms : List Micro),
    s.cfg.wf = true → s.position = .poll :: ms → s.Acks (primitives (pollIteration s.cfg 0)) →
    8 ≤ (s.answerAt 1).data.toNat →
    ∃ t, step s = .next t ∧ t.position = s.position ∧
      t.trace = s.trace ++ pollIteration s.cfg (s.answerAt 1).data ∧
      SameRegisters s t ∧ SameOutside s t ∧ t.lines = { s.lines with e := false }

/-- R164: the first sample with bit 3 clear ends the loop, and POLLWAIT restores direction to output and read/write to low
before the operation goes on with what it has still to do, `ms`, from the state `u`: no register has changed, and the
environment's answers are those that follow. -/
def Obligations.ReadySampleEndsPolling : Prop :=
  ∀ (s : State) (ms : List Micro),
    s.cfg.wf = true → s.position = .poll :: .emit (.dir .output) :: .emit (.rw false) :: ms →
    s.Acks (primitives (pollIteration s.cfg 0) + 2) → (s.answerAt 1).data.toNat < 8 →
    ∃ u, step s = .next (run ms u) ∧
      u.trace = s.trace ++ pollIteration s.cfg (s.answerAt 1).data ++ [.dir .output, .rw false] ∧
      u.lines.atRest = true ∧ u.lines.rs = s.lines.rs ∧ u.lines.data = s.lines.data ∧
      SameRegisters s u ∧ SameOutside s u ∧ u.resetIn = none ∧
      ∀ j, u.answerAt j = s.answerAt (j + primitives (pollIteration s.cfg 0) + 2)

/-- R165: no iteration limit. However many iterations one asks for, a controller that answers busy in each of them keeps
the operation polling: it has not returned, and it stands in the same loop. -/
def Obligations.BusyControllerHangsTheOperation : Prop :=
  ∀ (n : Nat) (s : State) (ms : List Micro),
    s.cfg.wf = true → s.position = .poll :: ms → s.Acks (n * primitives (pollIteration s.cfg 0)) →
    (∀ k, k < n → 8 ≤ (s.answerAt (k * primitives (pollIteration s.cfg 0) + 1)).data.toNat) →
    ∃ t, Host.Core.run Sys2Proof.core n s = .next t ∧ t.position = s.position ∧
      t.trace = s.trace ++ (List.range n).flatMap (fun k =>
        pollIteration s.cfg (s.answerAt (k * primitives (pollIteration s.cfg 0) + 1)).data) ∧
      SameRegisters s t ∧ SameOutside s t

/-- R161 and conflict C3: under fixed delay no operation waits: whatever BUS answers, an instruction begun with no
operation running ends in the same step. -/
def Obligations.FixedDelayOperationsEnd : Prop :=
  ∀ (i : Instr) (s t : State), s.cfg.strategy = .fixedDelay → s.position = [] → exec i s = .next t → t.position = []

/-! ## INIT (41_init_sync.md) -/

/-- R140 to R149, R152: INIT completes from every state, whatever its phase, registers and lines: the handshake pulses of
the configuration, then the five commands; phase Ready, cursor (0,0), display off, increment without shift, lines at rest,
status OK. That it runs in a phase no quiescent block holds is the model's (log entry 26). -/
def Obligations.InitInitialises : Prop :=
  ∀ s : State, s.Grants (cost s.cfg (initProgram s.cfg)) →
    ∃ t, exec .init s = .next t ∧
      Sent s t (initSyncs s.cfg)
        (((if s.cfg.oledResync then List.replicate 5 (0x0#4) else []) ++ s.cfg.syncSeq.map (·.1)).map
            (fun n => match s.cfg.busWidth with
              | .w4 => CommandEvent.sync n
              | .w8 => CommandEvent.syncByte (BitVec.ofNat 8 (16 * n.toNat))) ++
          [.cmd (BitVec.ofNat 8 (32 + (if s.cfg.busWidth = .w8 then 16 else 0) + 8
              + (if s.cfg.font = .f5x10 then 4 else 0))),
            .cmd 0x08, .cmd 0x01, .cmd 0x02, .cmd 0x06]) ∧
      Returned s t .ok ∧ t.phase = .ready ∧ t.curCol = 0 ∧ t.curRow = 0 ∧
      t.displayControl = 0b000 ∧ t.entryMode = 0b10 ∧ SameOutside s t

/-- R154: the whole default INIT, 4-bit width, fixed delay: these 108 events, the end state, and the sum of the delays. -/
def Obligations.DefaultInitTrace : Prop :=
  (∀ s : State, s.cfg = Config.standard .g16x2 .fixedDelay .w4 → s.Acks 61 →
    ∃ t, exec .init s = .next t ∧ t.trace = s.trace ++ defaultInitEvents ∧ Returned s t .ok ∧
      t.phase = .ready ∧ t.curCol = 0 ∧ t.curRow = 0 ∧ t.displayControl = 0b000 ∧ t.entryMode = 0b10 ∧
      t.lines.e = false ∧ t.lines.rs = false ∧ t.lines.rw = false ∧ t.lines.dir = .output ∧
      t.lines.data.extractLsb' 4 4 = 0x6) ∧
  defaultInitEvents.length = 108 ∧ delaySum defaultInitEvents = 52612

/-- R150, R151, R260: with no operation running, a step leaves the phase as it is, unless it takes the reset input, takes an
INIT word, or ends in a transport failure; and outside phase Ready a host word other than INIT emits nothing. -/
def Obligations.OnlyInitLeavesResetAndFailed : Prop :=
  ∀ s t : State, s.position = [] → s.transferPort = none → s.resetIn = none → step s = .next t →
    (∃ h rest, s.hostPort = h :: rest ∧ decodeHost h = .instr .init) ∨
    (t.phase = s.phase ∧ (s.phase ≠ .ready → t.trace = s.trace)) ∨
    (s.phase = .ready ∧ t.phase = .failed)

/-! ## The text grid (44_text_grid.md) -/

/-- R190: WRITE_AT in range addresses its cell and writes the code, whatever the code; the cursor does not move. -/
def Obligations.WriteAtWritesItsCell : Prop :=
  ∀ (s : State) (column row code : Byte) (a : BitVec 7),
    s.phase = .ready → s.lines.atRest = true → addr s.cfg.geom column row = some a →
    s.Grants (cost s.cfg (writeAtProgram s.cfg a code)) →
    ∃ t, exec (.writeAt column row code) s = .next t ∧
      Sent s t 0 [.cmd (BitVec.ofNat 8 (128 + a.toNat)), .data code] ∧ Returned s t .ok ∧
      t.phase = .ready ∧ SameCursor s t ∧ SameShadows s t ∧ SameOutside s t

/-- R191, R199: WRITE_STREAM of a byte that is no line feed addresses the cursor's cell, writes the byte and advances: the
next column, or column 0 of the next row after the last column, or of row 0 after the last row. -/
def Obligations.WriteStreamWritesAtTheCursor : Prop :=
  ∀ (s : State) (byte : Byte) (a : BitVec 7),
    s.phase = .ready → s.lines.atRest = true → byte ≠ s.cfg.lfCode → addr s.cfg.geom s.curCol s.curRow = some a →
    s.Grants (cost s.cfg (writeStreamProgram s.cfg a byte)) →
    ∃ t, exec (.writeStream byte) s = .next t ∧
      Sent s t 0 [.cmd (BitVec.ofNat 8 (128 + a.toNat)), .data byte] ∧ Returned s t .ok ∧
      t.curCol.toNat = (s.curCol.toNat + 1) % cols s.cfg.geom ∧
      t.curRow.toNat =
        (if s.curCol.toNat + 1 = cols s.cfg.geom then (s.curRow.toNat + 1) % rows s.cfg.geom else s.curRow.toNat) ∧
      t.phase = .ready ∧ SameShadows s t ∧ SameOutside s t

/-- R191, R200, R202: a line feed sets column 0 of the next row, with the row wrap, and emits nothing at all. -/
def Obligations.LineFeedMovesToTheNextRow : Prop :=
  ∀ s : State, s.phase = .ready → s.curRow.toNat < rows s.cfg.geom →
    ∃ t, exec (.writeStream s.cfg.lfCode) s = .next t ∧ Returned s t .ok ∧
      t.curCol = 0 ∧ t.curRow.toNat = (s.curRow.toNat + 1) % rows s.cfg.geom ∧
      t.trace = s.trace ∧ t.phase = .ready ∧ SameShadows s t ∧ t.lines = s.lines ∧ t.position = s.position ∧
      SameOutside s t

/-- Off the grid, a state no run reaches (R31), WRITE_STREAM of a byte that is no line feed stops with the model's fault:
R180 defines no address there (log entry 16). -/
def Obligations.WriteStreamOffGridFaults : Prop :=
  ∀ (s : State) (byte : Byte), s.phase = .ready → byte ≠ s.cfg.lfCode →
    (cols s.cfg.geom ≤ s.curCol.toNat ∨ rows s.cfg.geom ≤ s.curRow.toNat) →
    exec (.writeStream byte) s = .fault .cursorOffGrid

/-- R192: MOVE_TO in range sets the cursor and emits no bus event. -/
def Obligations.MoveToSetsTheCursor : Prop :=
  ∀ (s : State) (column row : Byte),
    s.phase = .ready → column.toNat < cols s.cfg.geom → row.toNat < rows s.cfg.geom →
    ∃ t, exec (.moveTo column row) s = .next t ∧ Returned s t .ok ∧ t.curCol = column ∧ t.curRow = row ∧
      t.trace = s.trace ∧ t.phase = .ready ∧ SameShadows s t ∧ t.lines = s.lines ∧ t.position = s.position ∧
      SameOutside s t

/-- R193: CLEAR emits the one command 0x01, no data, and sets the cursor to (0,0). -/
def Obligations.ClearSendsOneCommand : Prop :=
  ∀ s : State, s.phase = .ready → s.lines.atRest = true → s.Grants (cost s.cfg (clearProgram s.cfg)) →
    ∃ t, exec .clear s = .next t ∧ Sent s t 0 [.cmd 0x01] ∧ Returned s t .ok ∧
      t.curCol = 0 ∧ t.curRow = 0 ∧ t.phase = .ready ∧ SameShadows s t ∧ SameOutside s t

/-- R194: HOME emits the one command 0x02 and sets the cursor to (0,0). -/
def Obligations.HomeSendsOneCommand : Prop :=
  ∀ s : State, s.phase = .ready → s.lines.atRest = true → s.Grants (cost s.cfg (homeProgram s.cfg)) →
    ∃ t, exec .home s = .next t ∧ Sent s t 0 [.cmd 0x02] ∧ Returned s t .ok ∧
      t.curCol = 0 ∧ t.curRow = 0 ∧ t.phase = .ready ∧ SameShadows s t ∧ SameOutside s t

/-- R195, R196: COLUMNS and ROWS, with their words, return the geometry's numbers with OK in phase Ready, and nothing else
changes; in every other phase they are refused. -/
def Obligations.QueriesReturnTheGeometry : Prop :=
  (∀ glyph, decodeHost ⟨0x80000000, glyph⟩ = .instr .columns ∧ decodeHost ⟨0x90000000, glyph⟩ = .instr .rows) ∧
  (∀ s : State, s.phase ≠ .ready →
    (∃ t, exec .columns s = .next t ∧ Refused s t .errNotReady) ∧
    (∃ t, exec .rows s = .next t ∧ Refused s t .errNotReady)) ∧
  ∀ s : State, s.phase = .ready →
    (∃ t, exec .columns s = .next t ∧ Refused s t .ok ∧
      ∃ v, t.output = some { status := .ok, value := v } ∧
        v.toNat = (match s.cfg.geom with | .g8x2 => 8 | .g16x2 => 16 | .g20x2 => 20 | .g20x4 => 20 | .g40x2 => 40)) ∧
    (∃ t, exec .rows s = .next t ∧ Refused s t .ok ∧
      ∃ v, t.output = some { status := .ok, value := v } ∧
        v.toNat = (match s.cfg.geom with | .g8x2 => 2 | .g16x2 => 2 | .g20x2 => 2 | .g20x4 => 4 | .g40x2 => 2))

/-- R201: as many advances as the geometry has columns, from column 0, lead to column 0 of the next row (mod rows), and one
more to column 1 there. -/
def Obligations.OneRowOfAdvancesWraps : Prop :=
  ∀ s : State, s.curCol = 0 → s.curRow.toNat < rows s.cfg.geom →
    (State.advance^[cols s.cfg.geom] s).curCol = 0 ∧
    (State.advance^[cols s.cfg.geom] s).curRow.toNat = (s.curRow.toNat + 1) % rows s.cfg.geom ∧
    (State.advance^[cols s.cfg.geom + 1] s).curCol = 1 ∧
    (State.advance^[cols s.cfg.geom + 1] s).curRow.toNat = (s.curRow.toNat + 1) % rows s.cfg.geom

/-! ## SET_MODE (45_display_mode.md) -/

/-- R222 to R227: each display mode, with its word, changes its bit of `displayControl` and sends the whole byte formed from
the changed shadow, even where the bit already had the value; nothing else changes. -/
def Obligations.DisplayModesChangeTheirBit : Prop :=
  (∀ glyph, decodeHost ⟨0x60000000, glyph⟩ = .instr .setDisplayOff ∧
    decodeHost ⟨0x60000001, glyph⟩ = .instr .setDisplayOn ∧ decodeHost ⟨0x60000002, glyph⟩ = .instr .setCursorOff ∧
    decodeHost ⟨0x60000003, glyph⟩ = .instr .setCursorOn ∧ decodeHost ⟨0x60000004, glyph⟩ = .instr .setBlinkOff ∧
    decodeHost ⟨0x60000005, glyph⟩ = .instr .setBlinkOn) ∧
  ∀ (s : State) (i : Instr) (v : BitVec 3),
    s.phase = .ready → s.lines.atRest = true → displayAfter s.displayControl i = some v →
    s.Grants (cost s.cfg (displayProgram s.cfg v)) →
    ∃ t, exec i s = .next t ∧ Sent s t 0 [.cmd (BitVec.ofNat 8 (8 + v.toNat))] ∧ Returned s t .ok ∧
      t.displayControl = v ∧ t.entryMode = s.entryMode ∧ t.phase = .ready ∧ SameCursor s t ∧ SameOutside s t

/-- R228 to R231: each entry mode, with its word, changes its bit of `entryMode` and sends the whole byte formed from the
changed shadow; nothing else changes. -/
def Obligations.EntryModesChangeTheirBit : Prop :=
  (∀ glyph, decodeHost ⟨0x60000006, glyph⟩ = .instr .setFlowDecrement ∧
    decodeHost ⟨0x60000007, glyph⟩ = .instr .setFlowIncrement ∧ decodeHost ⟨0x60000008, glyph⟩ = .instr .setShiftOff ∧
    decodeHost ⟨0x60000009, glyph⟩ = .instr .setShiftOn) ∧
  ∀ (s : State) (i : Instr) (v : BitVec 2),
    s.phase = .ready → s.lines.atRest = true → entryAfter s.entryMode i = some v →
    s.Grants (cost s.cfg (entryProgram s.cfg v)) →
    ∃ t, exec i s = .next t ∧ Sent s t 0 [.cmd (BitVec.ofNat 8 (4 + v.toNat))] ∧ Returned s t .ok ∧
      t.entryMode = v ∧ t.displayControl = s.displayControl ∧ t.phase = .ready ∧ SameCursor s t ∧ SameOutside s t

/-- R232: CURSOR_ON then CURSOR_OFF restores `displayControl` bit for bit, provided the cursor bit was clear before. -/
def Obligations.CursorOnThenOffRestoresTheShadow : Prop :=
  ∀ s : State, s.phase = .ready → s.displayControl.getLsbD 1 = false →
    s.Grants (2 * cost s.cfg (cmd s.cfg 0x0E)) →
    ∃ t u, exec .setCursorOn s = .next t ∧ exec .setCursorOff t = .next u ∧
      t.displayControl = s.displayControl ||| 0b010 ∧ u.displayControl = s.displayControl ∧ SameOutside s u

/-! ## DEFINE_GLYPH (46_glyph.md) -/

/-- R240, R242: a slot of 0 to 7: one CGRAM address command, then the eight bytes in index order, unchanged. -/
def Obligations.DefineGlyphSendsEightBytes : Prop :=
  ∀ (s : State) (slot : Byte) (glyph : BitVec 64),
    s.phase = .ready → s.lines.atRest = true → slot.toNat ≤ 7 →
    s.Grants (cost s.cfg (glyphProgram s.cfg (BitVec.ofNat 3 slot.toNat) glyph)) →
    ∃ t, exec (.defineGlyph slot glyph) s = .next t ∧
      Sent s t 0 (.cmd (BitVec.ofNat 8 (64 + 8 * slot.toNat))
        :: (List.range 8).map fun k => .data (BitVec.ofNat 8 (glyph.toNat / 2 ^ (8 * k)))) ∧
      Returned s t .ok ∧ t.phase = .ready ∧ SameCursor s t ∧ SameShadows s t ∧ SameOutside s t

/-- R241: in phase Ready a slot above 7 is a silent no-op with status OK, and in every other phase it is refused with
ERR_NOT_READY. -/
def Obligations.InvalidSlotIsASilentNoOp : Prop :=
  ∀ (s : State) (slot : Byte) (glyph : BitVec 64), 7 < slot.toNat →
    ∃ t, exec (.defineGlyph slot glyph) s = .next t ∧
      Refused s t (if s.phase = .ready then .ok else .errNotReady)

/-! ## All operations -/

/-- Under fixed delay, the bus-level trace of every host operation of transfers (all but INIT): its transfers in order,
each register-select, byte and delay, and nothing else. -/
def Obligations.FixedDelayTraceOfEveryOperation : Prop :=
  ∀ (s : State) (i : Instr) (xs : List (Bool × Byte)),
    s.cfg.wf = true → s.cfg.strategy = .fixedDelay → s.phase = .ready → hostTransfers s i = some xs →
    s.Acks (primitives (xs.flatMap fun x => fixedTransfer s.cfg x.1 x.2)) →
    ∃ t, exec i s = .next t ∧ t.trace = s.trace ++ xs.flatMap (fun x => fixedTransfer s.cfg x.1 x.2) ∧
      Returned s t .ok ∧ t.position = []

/-- The frame of every instruction, whatever BUS answers, where it neither fails in transport nor is reset: the cursor
changes only in INIT, WRITE_STREAM, MOVE_TO, CLEAR and HOME (R21), `displayControl` only in INIT and the display modes
(R27), `entryMode` only in INIT and the entry modes (R28), the phase only in INIT; nothing outside changes, and the trace
only grows. -/
def Obligations.EveryInstructionKeepsItsFrame : Prop :=
  ∀ (i : Instr) (s t : State), s.resetIn = none → exec i s = .next t → t.phase ≠ .failed →
    (writesCursor i = false → SameCursor s t) ∧
    (writesDisplay i = false → t.displayControl = s.displayControl) ∧
    (writesEntry i = false → t.entryMode = s.entryMode) ∧
    (i ≠ .init → t.phase = s.phase) ∧
    SameOutside s t ∧ ∃ evs, t.trace = s.trace ++ evs

/-- R298: lower bounds under fixed delay, 4-bit width, default constants, as the sum of the delays of each operation. -/
def Obligations.DurationsUnderFixedDelay : Prop :=
  ∀ (s : State) (g : Geom) (i : Instr) (bound : Nat),
    s.cfg = Config.standard g .fixedDelay .w4 → s.phase = .ready → inRange g s.curCol s.curRow = true → s.Acks 200 →
    durationBound g i = some bound →
    ∃ t evs, exec i s = .next t ∧ t.trace = s.trace ++ evs ∧ delaySum evs = bound

/-! ## Transport failure and reset (60_exceptions.md, 70_reset_and_hazards.md) -/

/-- R250, R255: under fixed delay, if the `j`-th primitive of a host operation is the first that BUS does not acknowledge,
the events emitted are a prefix of the operation's own, and that primitive is the last of them; phase Failed,
ERR_TRANSPORT, nothing further. -/
def Obligations.NackEndsTheOperation : Prop :=
  ∀ (s : State) (i : Instr) (p : List Micro) (j : Nat),
    s.cfg.strategy = .fixedDelay → (i = .init ∨ s.phase = .ready) → hostProgram s i = some p → s.resetIn = none →
    j < cost s.cfg p → (∀ k, k < j → s.ackedAt k = true) → s.ackedAt j = false →
    ∃ t evs ev rest, exec i s = .next t ∧ t.trace = s.trace ++ evs ++ [ev] ∧ ev.isPrimitive = true ∧
      primitives evs = j ∧ Emits s.cfg p (evs ++ [ev] ++ rest) ∧
      t.phase = .failed ∧ Returned s t .errTransport ∧ t.position = [] ∧ SameOutside s t

/-- R167, R255: a primitive that is not acknowledged inside the poll iteration that a step takes ends the operation in the
same way; the events emitted are a prefix of that iteration. -/
def Obligations.NackDuringPollingEndsTheOperation : Prop :=
  ∀ (s : State) (ms : List Micro) (j : Nat),
    s.cfg.wf = true → s.position = .poll :: ms → s.resetIn = none →
    j < primitives (pollIteration s.cfg 0) → (∀ k, k < j → s.ackedAt k = true) → s.ackedAt j = false →
    ∃ t evs ev rest, step s = .next t ∧ t.trace = s.trace ++ evs ++ [ev] ∧ ev.isPrimitive = true ∧
      primitives evs = j ∧ pollIteration s.cfg (s.answerAt 1).data = evs ++ [ev] ++ rest ∧
      t.phase = .failed ∧ Returned s t .errTransport ∧ t.position = [] ∧ SameOutside s t

/-- R53, R251: on direct GPIO ERR_TRANSPORT never occurs: an instruction that did not begin in phase Failed does not end
there; and a step, be it the rest of an operation that stands in a poll, never leaves the block in phase Failed or heading
there, if it was not heading there before. -/
def Obligations.DirectGpioNeverFails : Prop :=
  (∀ (i : Instr) (s t : State),
    s.transport = .directGpio → s.phase ≠ .failed → exec i s = .next t → t.phase ≠ .failed) ∧
  ∀ s t : State, s.transport = .directGpio → s.settled.phase ≠ .failed → step s = .next t →
    t.transport = .directGpio ∧ t.settled.phase ≠ .failed

/-- R35, R280: the reset input at rest: phase Reset, no operation running, no status pending, the configuration as
strapped, and no bus event. -/
def Obligations.ResetInputAtRest : Prop :=
  ∀ s : State, s.cfg.wf = true → s.resetIn = some 0 →
    ∃ t, step s = .next t ∧ t.phase = .reset ∧ t.position = [] ∧ t.output = none ∧ t.cfg = s.cfg ∧
      t.trace = s.trace ∧ t.results = s.results ∧ t.resetIn = none

/-- R281: the reset input after the `n`-th event of a running operation, under fixed delay: the trace ends at that event,
a prefix of the operation's own events, no status is returned, the lines are left as they stand, phase Reset. That the reset input is counted in events is the
model's (log entry 10). -/
def Obligations.ResetInputCutsTheOperation : Prop :=
  ∀ (s : State) (i : Instr) (p : List Micro) (n : Nat),
    s.cfg.strategy = .fixedDelay → (i = .init ∨ s.phase = .ready) → hostProgram s i = some p →
    s.resetIn = some n → 0 < n → n ≤ p.countP Micro.emits →
    (∀ k, k < cost s.cfg p → s.ackedAt k = true) →
    ∃ t evs rest, exec i s = .next t ∧ t.trace = s.trace ++ evs ∧ evs.length = n ∧ Emits s.cfg p (evs ++ rest) ∧
      t.lines = evs.foldl Lines.drive s.lines ∧ t.phase = .reset ∧ t.position = [] ∧ t.output = none ∧
      t.results = s.results ∧ SameOutside s t

/-! ## Invariants -/

/-- R25, R31, R197, R287: every step keeps the invariant of a quiescent point. With no operation running it says: the phase
is Reset, Ready or Failed, and in phase Ready the cursor is on the grid, enable and read/write are low and the direction is
output. While one runs it says so of where the operation is heading. -/
def Obligations.StepKeepsTheQuiescentInvariant : Prop :=
  ∀ s t : State, s.settles = true → step s = .next t → t.settles = true

/-- R51: from every state that meets the invariant, with no bare transfer at the port, the data lines are written only while
their direction is output and read only while it is input; and the state after meets it again. -/
def Obligations.StepRespectsTheDirection : Prop :=
  ∀ s t : State, s.settles = true → programDirectionOk s.lines s.position = true → s.transferPort = none →
    step s = .next t →
    programDirectionOk t.lines t.position = true ∧ t.transferPort = none ∧
      ∃ evs, t.trace = s.trace ++ evs ∧ directionOk s.lines evs = true

/-- R10, R51, R286: every event a step emits is one the configuration allows: no read, input direction or read/write high
under fixed delay, no primitive of the other bus width, no delay of zero. What the operation has still to do is so too. -/
def Obligations.StepEmitsOnlyWhatTheConfigurationAllows : Prop :=
  ∀ s t : State, s.position.all (Micro.allowed s.cfg) = true → step s = .next t →
    t.cfg = s.cfg ∧ t.position.all (Micro.allowed s.cfg) = true ∧
      ∃ evs, t.trace = s.trace ++ evs ∧ evs.all (BusEvent.allowed s.cfg) = true

/-- R35: the machine right after reset: phase Reset, no operation running, no status pending, nothing emitted, and a
configuration that is admitted. -/
def Obligations.ResetStateIsAsStated : Prop :=
  State.reset.phase = .reset ∧ State.reset.position = [] ∧ State.reset.output = none ∧ State.reset.trace = [] ∧
    State.reset.results = [] ∧ State.reset.cfg.wf = true

/-- The three invariants hold right after reset. -/
def Obligations.ResetMeetsTheInvariants : Prop :=
  State.reset.settles = true ∧ programDirectionOk State.reset.lines State.reset.position = true ∧
    State.reset.position.all (Micro.allowed State.reset.cfg) = true

/-! ## Timing conformance (R11) -/

/-- R11: adjacent delays may be merged and any delay may be lengthened; none that follows another event may be shortened
(delays before the first other event are not compared, log entry 27); and a conforming trace has the same events other than
delays in the same order. -/
def Obligations.MergedAndLongerDelaysConform : Prop :=
  (∀ (a b : List BusEvent) (t u : Nat),
    conforms (a ++ [.delay t, .delay u] ++ b) (a ++ [.delay (t + u)] ++ b) = true ∧
    (t ≤ u → conforms (a ++ [.delay t] ++ b) (a ++ [.delay u] ++ b) = true)) ∧
  (∀ (a b : List BusEvent) (t u : Nat), a.any BusEvent.isPrimitive = true → u < t →
    conforms (a ++ [.delay t] ++ b) (a ++ [.delay u] ++ b) = false) ∧
  (∀ first second : List BusEvent, conforms first second = true →
    first.filter BusEvent.isPrimitive = second.filter BusEvent.isPrimitive)

/-! ## Any number of busy polls (42_readiness.md) -/

/-- R166: under ENV_BF_CLEARS a running operation ends, whatever it has still to do, whatever else BUS answers and whether or
not the reset input comes. There is no bound on the number of steps. -/
def Obligations.OperationsEndWhenTheBusyFlagClears : Prop :=
  ∀ s : State, s.cfg.wf = true → s.EnvBfClears →
    ∃ n t, Host.Core.run Sys2Proof.core n s = .next t ∧ t.position = []

/-- R160 to R166: under busy-flag polling and ENV_BF_CLEARS, with any number of busy samples in each wait, every host operation
of transfers (all but INIT) completes: its transfers in order, each with register-select, byte, and a POLLWAIT that polls
until a sample has bit 3 clear; status OK, the registers as the operation says, lines at rest, nothing outside changed. -/
def Obligations.PolledTraceOfEveryOperation : Prop :=
  ∀ (s : State) (i : Instr) (xs : List (Bool × Byte)),
    s.cfg.wf = true → s.cfg.strategy = .busyFlagPolling → s.phase = .ready → hostTransfers s i = some xs → s.AcksAll →
    ∃ t, exec i s = .next t ∧ (t.EnvBfClears →
      ∃ n u vss, Host.Core.run Sys2Proof.core n t = .next u ∧ vss.length = xs.length ∧ (∀ vs ∈ vss, BusyUntilReady vs) ∧
        u.trace = s.trace ++ polledTransfers s.cfg xs vss ∧ u.position = [] ∧ Returned s u .ok ∧ u.phase = .ready ∧
        (u.curCol, u.curRow) = cursorAfter s i ∧
        u.displayControl = (displayAfter s.displayControl i).getD s.displayControl ∧
        u.entryMode = (entryAfter s.entryMode i).getD s.entryMode ∧ u.lines.atRest = true ∧ SameOutside s u)

/-- The same of INIT, from every state (log entry 26): its pulses without a poll (R8, R143), then its five commands, each
with its POLLWAIT. -/
def Obligations.PolledTraceOfInit : Prop :=
  ∀ s : State,
    s.cfg.wf = true → s.cfg.strategy = .busyFlagPolling → s.AcksAll →
    ∃ t, exec .init s = .next t ∧ (t.EnvBfClears →
      ∃ n u vss, Host.Core.run Sys2Proof.core n t = .next u ∧ vss.length = 5 ∧ (∀ vs ∈ vss, BusyUntilReady vs) ∧
        u.trace = s.trace ++ preset s.cfg ++ resync s.cfg ++ handshake s.cfg
          ++ polledTransfers s.cfg (initTransfers s.cfg) vss ∧
        u.position = [] ∧ Returned s u .ok ∧ u.phase = .ready ∧ u.curCol = 0 ∧ u.curRow = 0 ∧
        u.displayControl = 0b000 ∧ u.entryMode = 0b10 ∧ u.lines.atRest = true ∧ SameOutside s u)

/-! ## Cut short anywhere, a poll included -/

/-- R167, R250, R255, whatever the strategy: the `j`-th primitive from here is the first that BUS does not acknowledge,
whether it belongs to a transfer, to the entry or the exit of a POLLWAIT, or to any of its iterations, and however many
steps it lies ahead. Either it ends the operation, as the last event of a prefix of the operation's own, with phase Failed
and ERR_TRANSPORT; or the operation has ended with OK before it, with all of its own events. -/
def Obligations.NackAnywhereEndsTheOperation : Prop :=
  ∀ (s : State) (i : Instr) (p : List Micro) (j : Nat),
    s.cfg.wf = true → (i = .init ∨ s.phase = .ready) → hostProgram s i = some p → s.resetIn = none →
    (∀ k, k < j → s.ackedAt k = true) → s.ackedAt j = false →
    ∃ t n u evs, exec i s = .next t ∧ Host.Core.run Sys2Proof.core n t = .next u ∧ u.position = [] ∧ SameOutside s u ∧
      ((∃ ev rest, u.trace = s.trace ++ evs ++ [ev] ∧ ev.isPrimitive = true ∧ primitives evs = j ∧
          Emits s.cfg p (evs ++ [ev] ++ rest) ∧ u.phase = .failed ∧ Returned s u .errTransport) ∨
        (u.trace = s.trace ++ evs ∧ primitives evs ≤ j ∧ Emits s.cfg p evs ∧ Returned s u .ok))

/-- R281, whatever the strategy: the reset input after the `n`-th event from here, inside the instruction's own step or a later
one of its poll loop. Either it cuts the operation there: a prefix of the operation's own events, no status, the lines left
as they stand, phase Reset; or the operation has ended with OK before it, with all of its own events, and the reset input is
still to come. That the reset input is counted in events is the model's (log entry 10). -/
def Obligations.ResetAnywhereCutsTheOperation : Prop :=
  ∀ (s : State) (i : Instr) (p : List Micro) (n : Nat),
    s.cfg.wf = true → (i = .init ∨ s.phase = .ready) → hostProgram s i = some p → s.resetIn = some n → 0 < n →
    (∀ k, k < n → s.ackedAt k = true) →
    ∃ t m u evs, exec i s = .next t ∧ Host.Core.run Sys2Proof.core m t = .next u ∧ u.trace = s.trace ++ evs ∧
      u.lines = evs.foldl Lines.drive s.lines ∧ u.position = [] ∧ SameOutside s u ∧
      ((∃ rest, evs.length = n ∧ Emits s.cfg p (evs ++ rest) ∧ u.phase = .reset ∧ u.output = none ∧
          u.results = s.results ∧ u.resetIn = none) ∨
        (evs.length < n ∧ Emits s.cfg p evs ∧ Returned s u .ok ∧ u.resetIn = some (n - evs.length)))
end

