-- ==== Sys2Proof/Laws/State.lean ====
section
/-!
SUPPORT. One lemma for each field under each named update of the state, so that no proof unfolds an update.
-/

namespace Sys2Proof.Machine.State

/-! ### after -/

@[simp] theorem after_cfg (s : State) (ev : BusEvent) : (s.after ev).cfg = s.cfg := rfl
@[simp] theorem after_phase (s : State) (ev : BusEvent) : (s.after ev).phase = s.phase := rfl
@[simp] theorem after_curCol (s : State) (ev : BusEvent) : (s.after ev).curCol = s.curCol := rfl
@[simp] theorem after_curRow (s : State) (ev : BusEvent) : (s.after ev).curRow = s.curRow := rfl
@[simp] theorem after_displayControl (s : State) (ev : BusEvent) : (s.after ev).displayControl = s.displayControl := rfl
@[simp] theorem after_entryMode (s : State) (ev : BusEvent) : (s.after ev).entryMode = s.entryMode := rfl
@[simp] theorem after_lines (s : State) (ev : BusEvent) : (s.after ev).lines = s.lines.drive ev := rfl
@[simp] theorem after_position (s : State) (ev : BusEvent) : (s.after ev).position = s.position := rfl
@[simp] theorem after_output (s : State) (ev : BusEvent) : (s.after ev).output = s.output := rfl
@[simp] theorem after_results (s : State) (ev : BusEvent) : (s.after ev).results = s.results := rfl
@[simp] theorem after_trace (s : State) (ev : BusEvent) : (s.after ev).trace = s.trace ++ [ev] := rfl
@[simp] theorem after_hostPort (s : State) (ev : BusEvent) : (s.after ev).hostPort = s.hostPort := rfl
@[simp] theorem after_transferPort (s : State) (ev : BusEvent) : (s.after ev).transferPort = s.transferPort := rfl
@[simp] theorem after_transport (s : State) (ev : BusEvent) : (s.after ev).transport = s.transport := rfl
@[simp] theorem after_script (s : State) (ev : BusEvent) : (s.after ev).script = if ev.isPrimitive then s.script.tail else s.script := rfl
@[simp] theorem after_resetIn (s : State) (ev : BusEvent) : (s.after ev).resetIn = s.resetIn.map (· - 1) := rfl
@[simp] theorem after_draws (s : State) (ev : BusEvent) : (s.after ev).draws = if ev.isPrimitive then s.draws + 1 else s.draws := rfl

/-! ### forgetRegisters -/

@[simp] theorem forgetRegisters_cfg (s : State) : (s.forgetRegisters).cfg = s.cfg := rfl
@[simp] theorem forgetRegisters_phase (s : State) : (s.forgetRegisters).phase = s.phase := rfl
@[simp] theorem forgetRegisters_curCol (s : State) : (s.forgetRegisters).curCol = Config.freeValue 8 s.draws := rfl
@[simp] theorem forgetRegisters_curRow (s : State) : (s.forgetRegisters).curRow = Config.freeValue 8 (s.draws + 1) := rfl
@[simp] theorem forgetRegisters_displayControl (s : State) : (s.forgetRegisters).displayControl = Config.freeValue 3 s.draws := rfl
@[simp] theorem forgetRegisters_entryMode (s : State) : (s.forgetRegisters).entryMode = Config.freeValue 2 s.draws := rfl
@[simp] theorem forgetRegisters_lines (s : State) : (s.forgetRegisters).lines = s.lines := rfl
@[simp] theorem forgetRegisters_position (s : State) : (s.forgetRegisters).position = s.position := rfl
@[simp] theorem forgetRegisters_output (s : State) : (s.forgetRegisters).output = s.output := rfl
@[simp] theorem forgetRegisters_results (s : State) : (s.forgetRegisters).results = s.results := rfl
@[simp] theorem forgetRegisters_trace (s : State) : (s.forgetRegisters).trace = s.trace := rfl
@[simp] theorem forgetRegisters_hostPort (s : State) : (s.forgetRegisters).hostPort = s.hostPort := rfl
@[simp] theorem forgetRegisters_transferPort (s : State) : (s.forgetRegisters).transferPort = s.transferPort := rfl
@[simp] theorem forgetRegisters_transport (s : State) : (s.forgetRegisters).transport = s.transport := rfl
@[simp] theorem forgetRegisters_script (s : State) : (s.forgetRegisters).script = s.script := rfl
@[simp] theorem forgetRegisters_resetIn (s : State) : (s.forgetRegisters).resetIn = s.resetIn := rfl
@[simp] theorem forgetRegisters_draws (s : State) : (s.forgetRegisters).draws = s.draws + 2 := rfl

/-! ### forgetLines -/

@[simp] theorem forgetLines_cfg (s : State) : (s.forgetLines).cfg = s.cfg := rfl
@[simp] theorem forgetLines_phase (s : State) : (s.forgetLines).phase = s.phase := rfl
@[simp] theorem forgetLines_curCol (s : State) : (s.forgetLines).curCol = s.curCol := rfl
@[simp] theorem forgetLines_curRow (s : State) : (s.forgetLines).curRow = s.curRow := rfl
@[simp] theorem forgetLines_displayControl (s : State) : (s.forgetLines).displayControl = s.displayControl := rfl
@[simp] theorem forgetLines_entryMode (s : State) : (s.forgetLines).entryMode = s.entryMode := rfl
@[simp] theorem forgetLines_position (s : State) : (s.forgetLines).position = s.position := rfl
@[simp] theorem forgetLines_output (s : State) : (s.forgetLines).output = s.output := rfl
@[simp] theorem forgetLines_results (s : State) : (s.forgetLines).results = s.results := rfl
@[simp] theorem forgetLines_trace (s : State) : (s.forgetLines).trace = s.trace := rfl
@[simp] theorem forgetLines_hostPort (s : State) : (s.forgetLines).hostPort = s.hostPort := rfl
@[simp] theorem forgetLines_transferPort (s : State) : (s.forgetLines).transferPort = s.transferPort := rfl
@[simp] theorem forgetLines_transport (s : State) : (s.forgetLines).transport = s.transport := rfl
@[simp] theorem forgetLines_script (s : State) : (s.forgetLines).script = s.script := rfl
@[simp] theorem forgetLines_resetIn (s : State) : (s.forgetLines).resetIn = s.resetIn := rfl
@[simp] theorem forgetLines_draws (s : State) : (s.forgetLines).draws = s.draws + 4 := rfl

/-! ### returnValue -/

@[simp] theorem returnValue_cfg (s : State) (st : Status) (v : Byte) : (s.returnValue st v).cfg = s.cfg := rfl
@[simp] theorem returnValue_phase (s : State) (st : Status) (v : Byte) : (s.returnValue st v).phase = s.phase := rfl
@[simp] theorem returnValue_curCol (s : State) (st : Status) (v : Byte) : (s.returnValue st v).curCol = s.curCol := rfl
@[simp] theorem returnValue_curRow (s : State) (st : Status) (v : Byte) : (s.returnValue st v).curRow = s.curRow := rfl
@[simp] theorem returnValue_displayControl (s : State) (st : Status) (v : Byte) : (s.returnValue st v).displayControl = s.displayControl := rfl
@[simp] theorem returnValue_entryMode (s : State) (st : Status) (v : Byte) : (s.returnValue st v).entryMode = s.entryMode := rfl
@[simp] theorem returnValue_lines (s : State) (st : Status) (v : Byte) : (s.returnValue st v).lines = s.lines := rfl
@[simp] theorem returnValue_position (s : State) (st : Status) (v : Byte) : (s.returnValue st v).position = s.position := rfl
@[simp] theorem returnValue_output (s : State) (st : Status) (v : Byte) : (s.returnValue st v).output = some { status := st, value := v } := rfl
@[simp] theorem returnValue_results (s : State) (st : Status) (v : Byte) : (s.returnValue st v).results = s.results ++ [{ status := st, value := v }] := rfl
@[simp] theorem returnValue_trace (s : State) (st : Status) (v : Byte) : (s.returnValue st v).trace = s.trace := rfl
@[simp] theorem returnValue_hostPort (s : State) (st : Status) (v : Byte) : (s.returnValue st v).hostPort = s.hostPort := rfl
@[simp] theorem returnValue_transferPort (s : State) (st : Status) (v : Byte) : (s.returnValue st v).transferPort = s.transferPort := rfl
@[simp] theorem returnValue_transport (s : State) (st : Status) (v : Byte) : (s.returnValue st v).transport = s.transport := rfl
@[simp] theorem returnValue_script (s : State) (st : Status) (v : Byte) : (s.returnValue st v).script = s.script := rfl
@[simp] theorem returnValue_resetIn (s : State) (st : Status) (v : Byte) : (s.returnValue st v).resetIn = s.resetIn := rfl
@[simp] theorem returnValue_draws (s : State) (st : Status) (v : Byte) : (s.returnValue st v).draws = s.draws := rfl

/-! ### returnStatus -/

@[simp] theorem returnStatus_cfg (s : State) (st : Status) : (s.returnStatus st).cfg = s.cfg := rfl
@[simp] theorem returnStatus_phase (s : State) (st : Status) : (s.returnStatus st).phase = s.phase := rfl
@[simp] theorem returnStatus_curCol (s : State) (st : Status) : (s.returnStatus st).curCol = s.curCol := rfl
@[simp] theorem returnStatus_curRow (s : State) (st : Status) : (s.returnStatus st).curRow = s.curRow := rfl
@[simp] theorem returnStatus_displayControl (s : State) (st : Status) : (s.returnStatus st).displayControl = s.displayControl := rfl
@[simp] theorem returnStatus_entryMode (s : State) (st : Status) : (s.returnStatus st).entryMode = s.entryMode := rfl
@[simp] theorem returnStatus_lines (s : State) (st : Status) : (s.returnStatus st).lines = s.lines := rfl
@[simp] theorem returnStatus_position (s : State) (st : Status) : (s.returnStatus st).position = s.position := rfl
@[simp] theorem returnStatus_output (s : State) (st : Status) : (s.returnStatus st).output = some { status := st, value := Config.freeResult s.results.length } := rfl
@[simp] theorem returnStatus_results (s : State) (st : Status) : (s.returnStatus st).results = s.results ++ [{ status := st, value := Config.freeResult s.results.length }] := rfl
@[simp] theorem returnStatus_trace (s : State) (st : Status) : (s.returnStatus st).trace = s.trace := rfl
@[simp] theorem returnStatus_hostPort (s : State) (st : Status) : (s.returnStatus st).hostPort = s.hostPort := rfl
@[simp] theorem returnStatus_transferPort (s : State) (st : Status) : (s.returnStatus st).transferPort = s.transferPort := rfl
@[simp] theorem returnStatus_transport (s : State) (st : Status) : (s.returnStatus st).transport = s.transport := rfl
@[simp] theorem returnStatus_script (s : State) (st : Status) : (s.returnStatus st).script = s.script := rfl
@[simp] theorem returnStatus_resetIn (s : State) (st : Status) : (s.returnStatus st).resetIn = s.resetIn := rfl
@[simp] theorem returnStatus_draws (s : State) (st : Status) : (s.returnStatus st).draws = s.draws := rfl

/-! ### refuse -/

@[simp] theorem refuse_cfg (s : State) (st : Status) : (refuse st s).cfg = s.cfg := rfl
@[simp] theorem refuse_phase (s : State) (st : Status) : (refuse st s).phase = s.phase := rfl
@[simp] theorem refuse_curCol (s : State) (st : Status) : (refuse st s).curCol = s.curCol := rfl
@[simp] theorem refuse_curRow (s : State) (st : Status) : (refuse st s).curRow = s.curRow := rfl
@[simp] theorem refuse_displayControl (s : State) (st : Status) : (refuse st s).displayControl = s.displayControl := rfl
@[simp] theorem refuse_entryMode (s : State) (st : Status) : (refuse st s).entryMode = s.entryMode := rfl
@[simp] theorem refuse_lines (s : State) (st : Status) : (refuse st s).lines = s.lines := rfl
@[simp] theorem refuse_position (s : State) (st : Status) : (refuse st s).position = s.position := rfl
@[simp] theorem refuse_output (s : State) (st : Status) : (refuse st s).output = some { status := st, value := Config.freeResult s.results.length } := rfl
@[simp] theorem refuse_results (s : State) (st : Status) : (refuse st s).results = s.results ++ [{ status := st, value := Config.freeResult s.results.length }] := rfl
@[simp] theorem refuse_trace (s : State) (st : Status) : (refuse st s).trace = s.trace := rfl
@[simp] theorem refuse_hostPort (s : State) (st : Status) : (refuse st s).hostPort = s.hostPort := rfl
@[simp] theorem refuse_transferPort (s : State) (st : Status) : (refuse st s).transferPort = s.transferPort := rfl
@[simp] theorem refuse_transport (s : State) (st : Status) : (refuse st s).transport = s.transport := rfl
@[simp] theorem refuse_script (s : State) (st : Status) : (refuse st s).script = s.script := rfl
@[simp] theorem refuse_resetIn (s : State) (st : Status) : (refuse st s).resetIn = s.resetIn := rfl
@[simp] theorem refuse_draws (s : State) (st : Status) : (refuse st s).draws = s.draws := rfl

/-! ### transportFailure -/

@[simp] theorem transportFailure_cfg (s : State) : (transportFailure s).cfg = s.cfg := rfl
@[simp] theorem transportFailure_phase (s : State) : (transportFailure s).phase = .failed := rfl
@[simp] theorem transportFailure_curCol (s : State) : (transportFailure s).curCol = Config.freeValue 8 s.draws := rfl
@[simp] theorem transportFailure_curRow (s : State) : (transportFailure s).curRow = Config.freeValue 8 (s.draws + 1) := rfl
@[simp] theorem transportFailure_displayControl (s : State) : (transportFailure s).displayControl = Config.freeValue 3 s.draws := rfl
@[simp] theorem transportFailure_entryMode (s : State) : (transportFailure s).entryMode = Config.freeValue 2 s.draws := rfl
@[simp] theorem transportFailure_position (s : State) : (transportFailure s).position = [] := rfl
@[simp] theorem transportFailure_output (s : State) : (transportFailure s).output = some { status := .errTransport, value := Config.freeResult s.results.length } := rfl
@[simp] theorem transportFailure_results (s : State) : (transportFailure s).results = s.results ++ [{ status := .errTransport, value := Config.freeResult s.results.length }] := rfl
@[simp] theorem transportFailure_trace (s : State) : (transportFailure s).trace = s.trace := rfl
@[simp] theorem transportFailure_hostPort (s : State) : (transportFailure s).hostPort = s.hostPort := rfl
@[simp] theorem transportFailure_transferPort (s : State) : (transportFailure s).transferPort = s.transferPort := rfl
@[simp] theorem transportFailure_transport (s : State) : (transportFailure s).transport = s.transport := rfl
@[simp] theorem transportFailure_script (s : State) : (transportFailure s).script = s.script := rfl
@[simp] theorem transportFailure_resetIn (s : State) : (transportFailure s).resetIn = s.resetIn := rfl
@[simp] theorem transportFailure_draws (s : State) : (transportFailure s).draws = s.draws + 6 := rfl

/-! ### assertReset -/

@[simp] theorem assertReset_cfg (s : State) (running : Bool) : (assertReset running s).cfg = s.cfg := by cases running <;> rfl
@[simp] theorem assertReset_phase (s : State) (running : Bool) : (assertReset running s).phase = .reset := by cases running <;> rfl
@[simp] theorem assertReset_curCol (s : State) (running : Bool) : (assertReset running s).curCol = Config.freeValue 8 s.draws := by cases running <;> rfl
@[simp] theorem assertReset_curRow (s : State) (running : Bool) : (assertReset running s).curRow = Config.freeValue 8 (s.draws + 1) := by cases running <;> rfl
@[simp] theorem assertReset_displayControl (s : State) (running : Bool) : (assertReset running s).displayControl = Config.freeValue 3 s.draws := by cases running <;> rfl
@[simp] theorem assertReset_entryMode (s : State) (running : Bool) : (assertReset running s).entryMode = Config.freeValue 2 s.draws := by cases running <;> rfl
@[simp] theorem assertReset_position (s : State) (running : Bool) : (assertReset running s).position = [] := by cases running <;> rfl
@[simp] theorem assertReset_output (s : State) (running : Bool) : (assertReset running s).output = none := by cases running <;> rfl
@[simp] theorem assertReset_results (s : State) (running : Bool) : (assertReset running s).results = s.results := by cases running <;> rfl
@[simp] theorem assertReset_trace (s : State) (running : Bool) : (assertReset running s).trace = s.trace := by cases running <;> rfl
@[simp] theorem assertReset_hostPort (s : State) (running : Bool) : (assertReset running s).hostPort = s.hostPort := by cases running <;> rfl
@[simp] theorem assertReset_transferPort (s : State) (running : Bool) : (assertReset running s).transferPort = s.transferPort := by cases running <;> rfl
@[simp] theorem assertReset_transport (s : State) (running : Bool) : (assertReset running s).transport = s.transport := by cases running <;> rfl
@[simp] theorem assertReset_script (s : State) (running : Bool) : (assertReset running s).script = s.script := by cases running <;> rfl
@[simp] theorem assertReset_resetIn (s : State) (running : Bool) : (assertReset running s).resetIn = none := by cases running <;> rfl

@[simp] theorem assertReset_running_lines (s : State) : (assertReset true s).lines = s.lines := rfl

/-! ### advance -/

@[simp] theorem advance_cfg (s : State) : (s.advance).cfg = s.cfg := rfl
@[simp] theorem advance_phase (s : State) : (s.advance).phase = s.phase := rfl
@[simp] theorem advance_curCol (s : State) : (s.advance).curCol = if s.curCol.toNat + 1 = cols s.cfg.geom then 0 else s.curCol + 1 := rfl
@[simp] theorem advance_curRow (s : State) : (s.advance).curRow = if s.curCol.toNat + 1 = cols s.cfg.geom then nextRow s.cfg.geom s.curRow else s.curRow := rfl
@[simp] theorem advance_displayControl (s : State) : (s.advance).displayControl = s.displayControl := rfl
@[simp] theorem advance_entryMode (s : State) : (s.advance).entryMode = s.entryMode := rfl
@[simp] theorem advance_lines (s : State) : (s.advance).lines = s.lines := rfl
@[simp] theorem advance_position (s : State) : (s.advance).position = s.position := rfl
@[simp] theorem advance_output (s : State) : (s.advance).output = s.output := rfl
@[simp] theorem advance_results (s : State) : (s.advance).results = s.results := rfl
@[simp] theorem advance_trace (s : State) : (s.advance).trace = s.trace := rfl
@[simp] theorem advance_hostPort (s : State) : (s.advance).hostPort = s.hostPort := rfl
@[simp] theorem advance_transferPort (s : State) : (s.advance).transferPort = s.transferPort := rfl
@[simp] theorem advance_transport (s : State) : (s.advance).transport = s.transport := rfl
@[simp] theorem advance_script (s : State) : (s.advance).script = s.script := rfl
@[simp] theorem advance_resetIn (s : State) : (s.advance).resetIn = s.resetIn := rfl
@[simp] theorem advance_draws (s : State) : (s.advance).draws = s.draws := rfl

/-! ### newline -/

@[simp] theorem newline_cfg (s : State) : (s.newline).cfg = s.cfg := rfl
@[simp] theorem newline_phase (s : State) : (s.newline).phase = s.phase := rfl
@[simp] theorem newline_curCol (s : State) : (s.newline).curCol = 0 := rfl
@[simp] theorem newline_curRow (s : State) : (s.newline).curRow = nextRow s.cfg.geom s.curRow := rfl
@[simp] theorem newline_displayControl (s : State) : (s.newline).displayControl = s.displayControl := rfl
@[simp] theorem newline_entryMode (s : State) : (s.newline).entryMode = s.entryMode := rfl
@[simp] theorem newline_lines (s : State) : (s.newline).lines = s.lines := rfl
@[simp] theorem newline_position (s : State) : (s.newline).position = s.position := rfl
@[simp] theorem newline_output (s : State) : (s.newline).output = s.output := rfl
@[simp] theorem newline_results (s : State) : (s.newline).results = s.results := rfl
@[simp] theorem newline_trace (s : State) : (s.newline).trace = s.trace := rfl
@[simp] theorem newline_hostPort (s : State) : (s.newline).hostPort = s.hostPort := rfl
@[simp] theorem newline_transferPort (s : State) : (s.newline).transferPort = s.transferPort := rfl
@[simp] theorem newline_transport (s : State) : (s.newline).transport = s.transport := rfl
@[simp] theorem newline_script (s : State) : (s.newline).script = s.script := rfl
@[simp] theorem newline_resetIn (s : State) : (s.newline).resetIn = s.resetIn := rfl
@[simp] theorem newline_draws (s : State) : (s.newline).draws = s.draws := rfl

/-! ### takeWord -/

@[simp] theorem takeWord_cfg (s : State) : (s.takeWord).cfg = s.cfg := rfl
@[simp] theorem takeWord_phase (s : State) : (s.takeWord).phase = s.phase := rfl
@[simp] theorem takeWord_curCol (s : State) : (s.takeWord).curCol = s.curCol := rfl
@[simp] theorem takeWord_curRow (s : State) : (s.takeWord).curRow = s.curRow := rfl
@[simp] theorem takeWord_displayControl (s : State) : (s.takeWord).displayControl = s.displayControl := rfl
@[simp] theorem takeWord_entryMode (s : State) : (s.takeWord).entryMode = s.entryMode := rfl
@[simp] theorem takeWord_lines (s : State) : (s.takeWord).lines = s.lines := rfl
@[simp] theorem takeWord_position (s : State) : (s.takeWord).position = s.position := rfl
@[simp] theorem takeWord_output (s : State) : (s.takeWord).output = none := rfl
@[simp] theorem takeWord_results (s : State) : (s.takeWord).results = s.results := rfl
@[simp] theorem takeWord_trace (s : State) : (s.takeWord).trace = s.trace := rfl
@[simp] theorem takeWord_hostPort (s : State) : (s.takeWord).hostPort = s.hostPort.tail := rfl
@[simp] theorem takeWord_transferPort (s : State) : (s.takeWord).transferPort = s.transferPort := rfl
@[simp] theorem takeWord_transport (s : State) : (s.takeWord).transport = s.transport := rfl
@[simp] theorem takeWord_script (s : State) : (s.takeWord).script = s.script := rfl
@[simp] theorem takeWord_resetIn (s : State) : (s.takeWord).resetIn = s.resetIn := rfl
@[simp] theorem takeWord_draws (s : State) : (s.takeWord).draws = s.draws := rfl

/-! ### takeTransfer -/

@[simp] theorem takeTransfer_cfg (s : State) : (s.takeTransfer).cfg = s.cfg := rfl
@[simp] theorem takeTransfer_phase (s : State) : (s.takeTransfer).phase = s.phase := rfl
@[simp] theorem takeTransfer_curCol (s : State) : (s.takeTransfer).curCol = s.curCol := rfl
@[simp] theorem takeTransfer_curRow (s : State) : (s.takeTransfer).curRow = s.curRow := rfl
@[simp] theorem takeTransfer_displayControl (s : State) : (s.takeTransfer).displayControl = s.displayControl := rfl
@[simp] theorem takeTransfer_entryMode (s : State) : (s.takeTransfer).entryMode = s.entryMode := rfl
@[simp] theorem takeTransfer_lines (s : State) : (s.takeTransfer).lines = s.lines := rfl
@[simp] theorem takeTransfer_position (s : State) : (s.takeTransfer).position = s.position := rfl
@[simp] theorem takeTransfer_output (s : State) : (s.takeTransfer).output = s.output := rfl
@[simp] theorem takeTransfer_results (s : State) : (s.takeTransfer).results = s.results := rfl
@[simp] theorem takeTransfer_trace (s : State) : (s.takeTransfer).trace = s.trace := rfl
@[simp] theorem takeTransfer_hostPort (s : State) : (s.takeTransfer).hostPort = s.hostPort := rfl
@[simp] theorem takeTransfer_transferPort (s : State) : (s.takeTransfer).transferPort = none := rfl
@[simp] theorem takeTransfer_transport (s : State) : (s.takeTransfer).transport = s.transport := rfl
@[simp] theorem takeTransfer_script (s : State) : (s.takeTransfer).script = s.script := rfl
@[simp] theorem takeTransfer_resetIn (s : State) : (s.takeTransfer).resetIn = s.resetIn := rfl
@[simp] theorem takeTransfer_draws (s : State) : (s.takeTransfer).draws = s.draws := rfl

end Sys2Proof.Machine.State
end

