-- ==== Sys2Proof/Laws/Events.lean ====
section
/-!
SUPPORT. Emitting events: what a list of acknowledged events leaves, and the answers that are left after it.
-/

namespace Sys2Proof.Machine

/-! ## Primitives and delays -/

@[simp] theorem primitives_nil : primitives [] = 0 := rfl

@[simp] theorem primitives_append (xs ys : List BusEvent) :
    primitives (xs ++ ys) = primitives xs + primitives ys := by simp [primitives]

theorem primitives_cons (ev : BusEvent) (evs : List BusEvent) :
    primitives (ev :: evs) = primitives evs + if ev.isPrimitive then 1 else 0 := by
  simp [primitives, List.countP_cons]

@[simp] theorem primitives_delayFor (t : Nat) : primitives (delayFor t) = 0 := by
  unfold delayFor; split <;> simp [primitives, BusEvent.isPrimitive]

@[simp] theorem delaySum_nil : delaySum [] = 0 := rfl

@[simp] theorem delaySum_cons (ev : BusEvent) (evs : List BusEvent) :
    delaySum (ev :: evs) = ev.duration + delaySum evs := by simp [delaySum]

@[simp] theorem delaySum_append (xs ys : List BusEvent) :
    delaySum (xs ++ ys) = delaySum xs + delaySum ys := by simp [delaySum]

@[simp] theorem delaySum_delayFor (t : Nat) : delaySum (delayFor t) = t := by
  unfold delayFor; split <;> simp_all [delaySum, BusEvent.duration]

/-! ## Answers -/

theorem answerAt_after_primitive (s : State) (ev : BusEvent) (h : ev.isPrimitive = true) (j : Nat) :
    (s.after ev).answerAt j = s.answerAt (j + 1) := by
  simp only [State.answerAt, State.after, h, if_true, List.getElem?_tail]
  rw [Nat.add_assoc, Nat.add_comm 1 j]

theorem answerAt_after_delay (s : State) (ev : BusEvent) (h : ev.isPrimitive = false) (j : Nat) :
    (s.after ev).answerAt j = s.answerAt j := by
  simp [State.answerAt, State.after, h]

theorem answerAt_after (s : State) (ev : BusEvent) (j : Nat) :
    (s.after ev).answerAt j = s.answerAt (j + primitives [ev]) := by
  cases h : ev.isPrimitive
  · rw [answerAt_after_delay s ev h]; simp [primitives, h]
  · rw [answerAt_after_primitive s ev h]; simp [primitives, h]

theorem ackedAt_after (s : State) (ev : BusEvent) (j : Nat) :
    (s.after ev).ackedAt j = s.ackedAt (j + primitives [ev]) := by
  simp [State.ackedAt, answerAt_after]

/-! ## Acknowledged events -/

/-- The state after a list of events, each acknowledged. -/
def State.afterAll (s : State) (evs : List BusEvent) : State := evs.foldl State.after s

@[simp] theorem afterAll_nil (s : State) : s.afterAll [] = s := rfl

@[simp] theorem afterAll_cons (s : State) (ev : BusEvent) (evs : List BusEvent) :
    s.afterAll (ev :: evs) = (s.after ev).afterAll evs := rfl

theorem afterAll_append (s : State) (xs ys : List BusEvent) :
    s.afterAll (xs ++ ys) = (s.afterAll xs).afterAll ys := by
  simp [State.afterAll, List.foldl_append]

/-! Every field that events leave alone, and the two they always extend. -/

@[simp] theorem afterAll_cfg (s : State) (evs : List BusEvent) : (s.afterAll evs).cfg = s.cfg := by
  induction evs generalizing s with
  | nil => rfl
  | cons ev evs ih => exact ih (s.after ev)

@[simp] theorem afterAll_phase (s : State) (evs : List BusEvent) : (s.afterAll evs).phase = s.phase := by
  induction evs generalizing s with
  | nil => rfl
  | cons ev evs ih => exact ih (s.after ev)

@[simp] theorem afterAll_curCol (s : State) (evs : List BusEvent) : (s.afterAll evs).curCol = s.curCol := by
  induction evs generalizing s with
  | nil => rfl
  | cons ev evs ih => exact ih (s.after ev)

@[simp] theorem afterAll_curRow (s : State) (evs : List BusEvent) : (s.afterAll evs).curRow = s.curRow := by
  induction evs generalizing s with
  | nil => rfl
  | cons ev evs ih => exact ih (s.after ev)

@[simp] theorem afterAll_displayControl (s : State) (evs : List BusEvent) : (s.afterAll evs).displayControl = s.displayControl := by
  induction evs generalizing s with
  | nil => rfl
  | cons ev evs ih => exact ih (s.after ev)

@[simp] theorem afterAll_entryMode (s : State) (evs : List BusEvent) : (s.afterAll evs).entryMode = s.entryMode := by
  induction evs generalizing s with
  | nil => rfl
  | cons ev evs ih => exact ih (s.after ev)

@[simp] theorem afterAll_position (s : State) (evs : List BusEvent) : (s.afterAll evs).position = s.position := by
  induction evs generalizing s with
  | nil => rfl
  | cons ev evs ih => exact ih (s.after ev)

@[simp] theorem afterAll_output (s : State) (evs : List BusEvent) : (s.afterAll evs).output = s.output := by
  induction evs generalizing s with
  | nil => rfl
  | cons ev evs ih => exact ih (s.after ev)

@[simp] theorem afterAll_results (s : State) (evs : List BusEvent) : (s.afterAll evs).results = s.results := by
  induction evs generalizing s with
  | nil => rfl
  | cons ev evs ih => exact ih (s.after ev)

@[simp] theorem afterAll_hostPort (s : State) (evs : List BusEvent) : (s.afterAll evs).hostPort = s.hostPort := by
  induction evs generalizing s with
  | nil => rfl
  | cons ev evs ih => exact ih (s.after ev)

@[simp] theorem afterAll_transferPort (s : State) (evs : List BusEvent) : (s.afterAll evs).transferPort = s.transferPort := by
  induction evs generalizing s with
  | nil => rfl
  | cons ev evs ih => exact ih (s.after ev)

@[simp] theorem afterAll_transport (s : State) (evs : List BusEvent) : (s.afterAll evs).transport = s.transport := by
  induction evs generalizing s with
  | nil => rfl
  | cons ev evs ih => exact ih (s.after ev)

@[simp] theorem afterAll_lines (s : State) (evs : List BusEvent) :
    (s.afterAll evs).lines = evs.foldl Lines.drive s.lines := by
  induction evs generalizing s with
  | nil => rfl
  | cons ev evs ih => exact ih (s.after ev)

@[simp] theorem afterAll_trace (s : State) (evs : List BusEvent) : (s.afterAll evs).trace = s.trace ++ evs := by
  induction evs generalizing s with
  | nil => simp
  | cons ev evs ih => rw [afterAll_cons, ih]; simp

/-- All that acknowledged events change, where no reset input is coming. -/
theorem afterAll_eq (s : State) (evs : List BusEvent) (h : s.resetIn = none) :
    s.afterAll evs =
      { s with
        trace := s.trace ++ evs
        lines := evs.foldl Lines.drive s.lines
        script := s.script.drop (primitives evs)
        draws := s.draws + primitives evs } := by
  induction evs generalizing s with
  | nil => simp
  | cons ev evs ih =>
    rw [afterAll_cons, ih _ (by simp [h])]
    cases hp : ev.isPrimitive <;>
      simp [State.after, primitives_cons, hp, h, Nat.add_assoc, Nat.add_comm, List.drop_tail]

theorem answerAt_afterAll (s : State) (evs : List BusEvent) (j : Nat) :
    (s.afterAll evs).answerAt j = s.answerAt (j + primitives evs) := by
  induction evs generalizing s with
  | nil => simp
  | cons ev evs ih =>
    rw [afterAll_cons, ih, answerAt_after]
    congr 1
    simp only [primitives_cons, primitives_nil]
    omega

theorem ackedAt_afterAll (s : State) (evs : List BusEvent) (j : Nat) :
    (s.afterAll evs).ackedAt j = s.ackedAt (j + primitives evs) := by
  simp [State.ackedAt, answerAt_afterAll]

theorem Acks.mono {s : State} {n m : Nat} (h : s.Acks n) (hm : m ≤ n) : s.Acks m :=
  ⟨h.1, fun j hj => h.2 j (Nat.lt_of_lt_of_le hj hm)⟩

theorem Acks.afterAll {s : State} {n : Nat} (evs : List BusEvent) (h : s.Acks (primitives evs + n)) :
    (s.afterAll evs).Acks n := by
  refine ⟨by rw [afterAll_eq s evs h.1]; exact h.1, fun j hj => ?_⟩
  rw [ackedAt_afterAll]
  exact h.2 _ (by omega)

theorem Grants.mono {s : State} {n m : Nat} (h : s.Grants n) (hm : m ≤ n) : s.Grants m :=
  ⟨Acks.mono h.1 hm, fun hs j hj => h.2 hs j (Nat.lt_of_lt_of_le hj hm)⟩

theorem Grants.afterAll {s : State} {n : Nat} (evs : List BusEvent) (h : s.Grants (primitives evs + n)) :
    (s.afterAll evs).Grants n := by
  refine ⟨Acks.afterAll evs h.1, fun hs j hj => ?_⟩
  rw [answerAt_afterAll]
  refine h.2 ?_ _ (by omega)
  rwa [afterAll_eq s evs h.1.1] at hs

/-- One acknowledged event. -/
theorem emitOne_ack (ev : BusEvent) (s : State) (h : s.Acks (primitives [ev])) :
    emitOne ev s = (.ack, s.after ev) := by
  cases hp : ev.isPrimitive
  · simp [emitOne, State.signal, hp, h.1]
  · have := h.2 0 (by simp [primitives, hp])
    simp [emitOne, State.signal, hp, this, h.1]

/-- Acknowledged events in a row. -/
theorem emitAll_ack (evs : List BusEvent) (s : State) (h : s.Acks (primitives evs)) :
    emitAll evs s = (.ack, s.afterAll evs) := by
  induction evs generalizing s with
  | nil => rfl
  | cons ev evs ih =>
    have h1 : primitives (ev :: evs) = primitives [ev] + primitives evs := by
      rw [← primitives_append]; rfl
    rw [emitAll, emitOne_ack ev s (Acks.mono h (by omega))]
    exact ih _ (Acks.afterAll [ev] (by rw [← h1]; exact h))

/-- Whatever BUS answers, an event leaves `after`. -/
@[simp] theorem emitOne_snd (ev : BusEvent) (s : State) : (emitOne ev s).2 = s.after ev := rfl

/-- What a list of events can leave: the state after a prefix of it. -/
theorem emitAll_snd (evs : List BusEvent) (s : State) :
    ∃ n, (emitAll evs s).2 = s.afterAll (evs.take n) ∧ ((emitAll evs s).1 = .ack → n = evs.length) := by
  induction evs generalizing s with
  | nil => exact ⟨0, rfl, fun _ => rfl⟩
  | cons ev evs ih =>
    obtain ⟨n, h1, h2⟩ := ih (s.after ev)
    simp only [emitAll, emitOne]
    cases s.signal ev
    · exact ⟨n + 1, by simpa using h1, fun h => by simp [h2 h]⟩
    · exact ⟨1, rfl, fun h => by simp at h⟩
    · exact ⟨1, rfl, fun h => by simp at h⟩

end Sys2Proof.Machine
end

