-- ==== Sys2Proof/Laws/Run.lean ====
section
/-!
SUPPORT. Running a micro-sequence: what one action can do, the completed run, and the induction behind every invariant.
-/

namespace Sys2Proof.Machine

@[simp] theorem emitting_nil : emitting [] = [] := rfl

@[simp] theorem emitting_cons (ev : BusEvent) (evs : List BusEvent) :
    emitting (ev :: evs) = .emit ev :: emitting evs := rfl

@[simp] theorem emitting_append (xs ys : List BusEvent) :
    emitting (xs ++ ys) = emitting xs ++ emitting ys := by simp [emitting]

/-- In phase Ready an operation runs its body. -/
theorem whenReady_ready {s : State} (h : s.phase = .ready) (body : State → Host.Outcome State Fault Refusal) :
    whenReady s body = body s := if_pos h

/-- In any other phase it is refused (R253). -/
theorem whenReady_other {s : State} (h : s.phase ≠ .ready) (body : State → Host.Outcome State Fault Refusal) :
    whenReady s body = .next (refuse .errNotReady s) := if_neg h

/-! ## Cost -/

@[simp] theorem cost_nil (c : Config) : cost c [] = 0 := rfl

@[simp] theorem cost_append (c : Config) (p q : List Micro) : cost c (p ++ q) = cost c p + cost c q := by
  simp [cost]

theorem cost_cons (c : Config) (m : Micro) (p : List Micro) : cost c (m :: p) = m.cost c + cost c p := by
  simp [cost]

@[simp] theorem cost_emitting (c : Config) (evs : List BusEvent) : cost c (emitting evs) = primitives evs := by
  induction evs with
  | nil => rfl
  | cons ev evs ih => rw [emitting_cons, cost_cons, ih, primitives_cons]; simp only [Micro.cost]; omega

/-! ## A run that completes -/

/-- The state a micro-sequence completes in, where nothing stops it. -/
def completes : List Micro → State → Option State
  | [], s => some s
  | m :: ms, s =>
    match m.run s with
    | .go t => completes ms t
    | .wait _ => none
    | .halt _ => none

theorem run_of_completes {p : List Micro} {s t : State} (h : completes p s = some t) (q : List Micro) :
    run (p ++ q) s = run q t := by
  induction p generalizing s with
  | nil => simp [completes] at h; simp [h]
  | cons m ms ih =>
    simp only [completes] at h
    simp only [List.cons_append, run]
    cases hm : m.run s <;> simp [hm] at h ⊢
    exact ih h

theorem run_completes {p : List Micro} {s t : State} (h : completes p s = some t) :
    run p s = { t with position := [] } := by
  have := run_of_completes h []
  simpa [run] using this

theorem completes_append {p q : List Micro} {s t u : State} (hp : completes p s = some t)
    (hq : completes q t = some u) : completes (p ++ q) s = some u := by
  induction p generalizing s with
  | nil => simp [completes] at hp; simpa [hp] using hq
  | cons m ms ih =>
    simp only [completes] at hp
    simp only [List.cons_append, completes]
    cases hm : m.run s <;> simp [hm] at hp ⊢
    exact ih hp

theorem emit_run_ack (ev : BusEvent) (s : State) (h : s.Acks (primitives [ev])) :
    (Micro.emit ev).run s = .go (s.after ev) := by
  simp [Micro.run, emitOne_ack ev s h, afterSignal]

theorem completes_emitting (evs : List BusEvent) (s : State) (h : s.Acks (primitives evs)) :
    completes (emitting evs) s = some (s.afterAll evs) := by
  induction evs generalizing s with
  | nil => rfl
  | cons ev evs ih =>
    have h1 : primitives (ev :: evs) = primitives [ev] + primitives evs := by
      rw [← primitives_append]; rfl
    rw [emitting_cons, completes, emit_run_ack ev s (Acks.mono h (by omega))]
    exact ih _ (Acks.afterAll [ev] (by rw [← h1]; exact h))

/-- The events of one poll iteration that reads `v` (R163). -/
def pollEvents (c : Config) (v : Nibble) : List BusEvent := pollRise c ++ .r4 v :: pollFall c

@[simp] theorem primitives_pollEvents (c : Config) (v : Nibble) : primitives (pollEvents c v) = pollCost c := by
  simp [pollEvents, pollCost, primitives_cons, BusEvent.isPrimitive, Nat.add_assoc, Nat.add_comm 1]

@[simp] theorem primitives_pollRise (c : Config) : primitives (pollRise c) = 1 := by
  simp [pollRise, primitives_cons, BusEvent.isPrimitive]

/-- One poll iteration, every primitive acknowledged: it goes on or stands by the busy flag alone (R163, R164). -/
theorem pollOnce_ack (s : State) (h : s.Acks (pollCost s.cfg)) :
    pollOnce s =
      if busy (s.answerAt 1).data then .wait (s.afterAll (pollEvents s.cfg (s.answerAt 1).data))
      else .go (s.afterAll (pollEvents s.cfg (s.answerAt 1).data)) := by
  have hc : pollCost s.cfg = primitives (pollRise s.cfg) + (1 + primitives (pollFall s.cfg)) := by
    simp only [pollCost, primitives_pollRise]; omega
  rw [hc] at h
  have hv : (s.afterAll (pollRise s.cfg)).readData = (s.answerAt 1).data := by
    simp [State.readData, answerAt_afterAll]
  have h2 : (s.afterAll (pollRise s.cfg)).Acks (primitives (.r4 (s.answerAt 1).data :: pollFall s.cfg)) := by
    refine Acks.afterAll _ ?_
    rw [primitives_cons]; simpa [BusEvent.isPrimitive, Nat.add_comm 1] using h
  simp only [pollOnce]
  rw [emitAll_ack _ _ (Acks.mono h (by omega))]
  simp only [hv]
  rw [emitAll_ack _ _ h2]
  simp only [pollEvents, afterAll_append]

/-! ## What one action can do -/

/-- Every way an action can end, for every answer of the environment. -/
theorem micro_run_cases (m : Micro) (s : State) :
    (∃ ev, m = .emit ev ∧
      (m.run s = .go (s.after ev) ∨ m.run s = .halt (transportFailure (s.after ev))
        ∨ m.run s = .halt (assertReset true (s.after ev)))) ∨
    (m = .poll ∧ ∃ v n,
      ((m.run s = .go (s.afterAll (pollEvents s.cfg v)) ∨ m.run s = .wait (s.afterAll (pollEvents s.cfg v)))
        ∨ m.run s = .halt (transportFailure (s.afterAll ((pollEvents s.cfg v).take n)))
        ∨ m.run s = .halt (assertReset true (s.afterAll ((pollEvents s.cfg v).take n))))) ∨
    (∃ p, m = .setPhase p ∧ m.run s = .go { s with phase := p }) ∨
    (∃ v, m = .setDisplayControl v ∧ m.run s = .go { s with displayControl := v }) ∨
    (∃ v, m = .setEntryMode v ∧ m.run s = .go { s with entryMode := v }) ∨
    (∃ c r, m = .setCursor c r ∧ m.run s = .go { s with curCol := c, curRow := r }) ∨
    (m = .advance ∧ m.run s = .go s.advance) ∨
    (∃ st, m = .ret st ∧ m.run s = .go (s.returnStatus st)) := by
  cases m with
  | emit ev =>
    refine .inl ⟨ev, rfl, ?_⟩
    simp only [Micro.run, emitOne]
    cases s.signal ev <;> simp [afterSignal]
  | poll =>
    refine .inr (.inl ⟨rfl, ?_⟩)
    obtain ⟨n, h1, h2⟩ := emitAll_snd (pollRise s.cfg) s
    simp only [Micro.run, pollOnce]
    rcases he : emitAll (pollRise s.cfg) s with ⟨sig, t⟩
    rw [he] at h1 h2
    simp only at h1 h2
    cases sig with
    | nack =>
      refine ⟨0, min n (pollRise s.cfg).length, .inr (.inl ?_)⟩
      simp only [h1, pollEvents, List.take_append_of_le_length (Nat.min_le_right _ _), ← List.take_eq_take_min]
    | reset =>
      refine ⟨0, min n (pollRise s.cfg).length, .inr (.inr ?_)⟩
      simp only [h1, pollEvents, List.take_append_of_le_length (Nat.min_le_right _ _), ← List.take_eq_take_min]
    | ack =>
      have hn := h2 rfl
      subst hn
      rw [List.take_length] at h1
      obtain ⟨k, k1, k2⟩ := emitAll_snd (.r4 t.readData :: pollFall s.cfg) t
      have hcat : ∀ xs, (s.afterAll (pollRise s.cfg)).afterAll xs = s.afterAll (pollRise s.cfg ++ xs) :=
        fun xs => (afterAll_append s _ xs).symm
      dsimp only
      rcases he2 : emitAll (.r4 t.readData :: pollFall s.cfg) t with ⟨sig2, u⟩
      rw [he2] at k1 k2
      simp only at k1 k2
      rw [h1, hcat] at k1
      refine ⟨t.readData, (pollRise s.cfg).length + k, ?_⟩
      have hu : u = s.afterAll ((pollEvents s.cfg t.readData).take ((pollRise s.cfg).length + k)) := by
        rw [k1, pollEvents, List.take_length_add_append, h1]
      cases sig2 with
      | nack => exact .inr (.inl (by rw [← hu]))
      | reset => exact .inr (.inr (by rw [← hu]))
      | ack =>
        have hk := k2 rfl
        have hu' : u = s.afterAll (pollEvents s.cfg t.readData) := by
          rw [hu]; congr 1
          exact List.take_of_length_le (by simp only [pollEvents, List.length_append, hk]; omega)
        refine .inl ?_
        rw [← hu']
        cases busy t.readData <;> simp
  | setPhase p => exact .inr (.inr (.inl ⟨p, rfl, rfl⟩))
  | setDisplayControl v => exact .inr (.inr (.inr (.inl ⟨v, rfl, rfl⟩)))
  | setEntryMode v => exact .inr (.inr (.inr (.inr (.inl ⟨v, rfl, rfl⟩))))
  | setCursor c r => exact .inr (.inr (.inr (.inr (.inr (.inl ⟨c, r, rfl, rfl⟩)))))
  | advance => exact .inr (.inr (.inr (.inr (.inr (.inr (.inl ⟨rfl, rfl⟩))))))
  | ret st => exact .inr (.inr (.inr (.inr (.inr (.inr (.inr ⟨st, rfl, rfl⟩))))))

/-- How an action goes on. -/
theorem go_cases {m : Micro} {s t : State} (h : m.run s = .go t) :
    (∃ ev, m = .emit ev ∧ t = s.after ev) ∨ (m = .poll ∧ ∃ v, t = s.afterAll (pollEvents s.cfg v)) ∨
    (∃ p, m = .setPhase p ∧ t = { s with phase := p }) ∨
    (∃ v, m = .setDisplayControl v ∧ t = { s with displayControl := v }) ∨
    (∃ v, m = .setEntryMode v ∧ t = { s with entryMode := v }) ∨
    (∃ c r, m = .setCursor c r ∧ t = { s with curCol := c, curRow := r }) ∨
    (m = .advance ∧ t = s.advance) ∨ (∃ st, m = .ret st ∧ t = s.returnStatus st) := by
  rcases micro_run_cases m s with ⟨ev, e, g | g | g⟩ | ⟨e, v, n, (g | g) | g | g⟩ | ⟨p, e, g⟩ | ⟨v, e, g⟩ | ⟨v, e, g⟩ |
    ⟨c, r, e, g⟩ | ⟨e, g⟩ | ⟨st, e, g⟩
  all_goals (rw [g] at h; cases h)
  · exact .inl ⟨ev, e, rfl⟩
  · exact .inr (.inl ⟨e, v, rfl⟩)
  · exact .inr (.inr (.inl ⟨p, e, rfl⟩))
  · exact .inr (.inr (.inr (.inl ⟨v, e, rfl⟩)))
  · exact .inr (.inr (.inr (.inr (.inl ⟨v, e, rfl⟩))))
  · exact .inr (.inr (.inr (.inr (.inr (.inl ⟨c, r, e, rfl⟩)))))
  · exact .inr (.inr (.inr (.inr (.inr (.inr (.inl ⟨e, rfl⟩))))))
  · exact .inr (.inr (.inr (.inr (.inr (.inr (.inr ⟨st, e, rfl⟩))))))

/-- Only a poll waits (R165). -/
theorem wait_cases {m : Micro} {s t : State} (h : m.run s = .wait t) :
    m = .poll ∧ ∃ v, t = s.afterAll (pollEvents s.cfg v) := by
  rcases micro_run_cases m s with ⟨ev, e, g | g | g⟩ | ⟨e, v, n, (g | g) | g | g⟩ | ⟨p, e, g⟩ | ⟨v, e, g⟩ | ⟨v, e, g⟩ |
    ⟨c, r, e, g⟩ | ⟨e, g⟩ | ⟨st, e, g⟩
  all_goals (rw [g] at h; cases h)
  exact ⟨e, v, rfl⟩

/-- The events an action can have emitted when it is cut short. -/
def cutEvents (c : Config) (m : Micro) (evs : List BusEvent) : Prop :=
  (∃ ev, m = .emit ev ∧ evs = [ev]) ∨ (m = .poll ∧ ∃ v n, evs = (pollEvents c v).take n)

/-- An action is cut short by a transport failure or by the reset input. -/
theorem halt_cases {m : Micro} {s t : State} (h : m.run s = .halt t) :
    ∃ evs, cutEvents s.cfg m evs ∧
      (t = transportFailure (s.afterAll evs) ∨ t = assertReset true (s.afterAll evs)) := by
  rcases micro_run_cases m s with ⟨ev, e, g | g | g⟩ | ⟨e, v, n, (g | g) | g | g⟩ | ⟨p, e, g⟩ | ⟨v, e, g⟩ | ⟨v, e, g⟩ |
    ⟨c, r, e, g⟩ | ⟨e, g⟩ | ⟨st, e, g⟩
  all_goals (rw [g] at h; cases h)
  · exact ⟨[ev], .inl ⟨ev, e, rfl⟩, .inl rfl⟩
  · exact ⟨[ev], .inl ⟨ev, e, rfl⟩, .inr rfl⟩
  · exact ⟨_, .inr ⟨e, v, n, rfl⟩, .inl rfl⟩
  · exact ⟨_, .inr ⟨e, v, n, rfl⟩, .inr rfl⟩

theorem afterAll_resetIn_none {s : State} (h : s.resetIn = none) (evs : List BusEvent) :
    (s.afterAll evs).resetIn = none := by
  rw [afterAll_eq s evs h]; exact h

theorem signal_ne_reset {s : State} (h : s.resetIn = none) (ev : BusEvent) : s.signal ev ≠ .reset := by
  unfold State.signal
  rw [if_neg (by simp [h])]
  split <;> simp

theorem emitAll_ne_reset (evs : List BusEvent) {s t : State} (h : s.resetIn = none) : emitAll evs s ≠ (.reset, t) := by
  induction evs generalizing s with
  | nil => simp [emitAll]
  | cons ev evs ih =>
    simp only [emitAll, emitOne]
    cases hs : s.signal ev with
    | ack => exact ih (by simp [h])
    | nack => simp
    | reset => exact absurd hs (signal_ne_reset h ev)

/-- With no reset input coming, only a transport failure cuts an action short. -/
theorem halt_noReset {m : Micro} {s t : State} (h : m.run s = .halt t) (hr : s.resetIn = none) :
    ∃ evs, cutEvents s.cfg m evs ∧ t = transportFailure (s.afterAll evs) := by
  obtain ⟨evs, h1, h2 | h2⟩ := halt_cases h
  · exact ⟨evs, h1, h2⟩
  · exfalso
    have ne : ∀ u, assertReset true (s.afterAll evs) ≠ transportFailure u := fun u hu => by
      have := congrArg State.phase hu
      simp at this
    subst h2
    cases m with
    | emit ev =>
      simp only [Micro.run, emitOne] at h
      cases hs : s.signal ev with
      | ack => rw [hs] at h; cases h
      | nack => rw [hs] at h; simp only [afterSignal, Flow.halt.injEq] at h; exact ne _ h.symm
      | reset => exact signal_ne_reset hr ev hs
    | poll =>
      simp only [Micro.run, pollOnce] at h
      obtain ⟨n, h1, -⟩ := emitAll_snd (pollRise s.cfg) s
      rcases he : emitAll (pollRise s.cfg) s with ⟨sig, u⟩
      rw [he] at h h1
      have hu : u.resetIn = none := by
        have : u = _ := h1
        rw [this]; exact afterAll_resetIn_none hr _
      cases sig with
      | nack => simp only [Flow.halt.injEq] at h; exact ne _ h.symm
      | reset => exact emitAll_ne_reset _ hr he
      | ack =>
        simp only at h
        rcases he2 : emitAll (.r4 u.readData :: pollFall s.cfg) u with ⟨sig2, w⟩
        rw [he2] at h
        cases sig2 with
        | nack => simp only [Flow.halt.injEq] at h; exact ne _ h.symm
        | reset => exact emitAll_ne_reset _ hu he2
        | ack => simp only at h; split at h <;> cases h
    | _ => cases h

/-- A run, by what each action does: `P` holds of what is left to do and the state, `Q` of what the run leaves. -/
theorem run_induction {P : List Micro → State → Prop} {Q : State → Prop}
    (done : ∀ s, P [] s → Q { s with position := [] })
    (go : ∀ m ms s t, P (m :: ms) s → m.run s = .go t → P ms t)
    (wait : ∀ m ms s t, P (m :: ms) s → m.run s = .wait t → Q { t with position := m :: ms })
    (halt : ∀ m ms s t, P (m :: ms) s → m.run s = .halt t → Q t)
    (p : List Micro) (s : State) (h : P p s) : Q (run p s) := by
  induction p generalizing s with
  | nil => exact done s h
  | cons m ms ih =>
    simp only [run]
    cases hm : m.run s with
    | go t => exact ih t (go m ms s t h hm)
    | wait t => exact wait m ms s t h hm
    | halt t => exact halt m ms s t h hm

end Sys2Proof.Machine
end

