-- ==== Sys2Proof/Laws/Command.lean ====
section
/-!
SUPPORT. CMD and DATA as the command level sees them (R117): what a completed transfer says there, under either strategy,
and that it leaves the lines at rest.
-/

namespace Sys2Proof.Machine

/-! ## The abstraction over appended traces -/

/-- What the abstraction remembers after a trace. -/
def absEnd (w : BusWidth) (a : AbsState) (evs : List BusEvent) : AbsState :=
  evs.foldl (fun a ev => (a.read w ev).1) a

@[simp] theorem commandTrace_nil (w : BusWidth) (a : AbsState) : commandTrace w a [] = [] := rfl

@[simp] theorem absEnd_nil (w : BusWidth) (a : AbsState) : absEnd w a [] = a := rfl

theorem commandTrace_cons (w : BusWidth) (a : AbsState) (ev : BusEvent) (evs : List BusEvent) :
    commandTrace w a (ev :: evs) = (a.read w ev).2 ++ commandTrace w (a.read w ev).1 evs := rfl

theorem absEnd_cons (w : BusWidth) (a : AbsState) (ev : BusEvent) (evs : List BusEvent) :
    absEnd w a (ev :: evs) = absEnd w (a.read w ev).1 evs := rfl

theorem commandTrace_append (w : BusWidth) (a : AbsState) (xs ys : List BusEvent) :
    commandTrace w a (xs ++ ys) = commandTrace w a xs ++ commandTrace w (absEnd w a xs) ys := by
  induction xs generalizing a with
  | nil => rfl
  | cons x xs ih => simp [commandTrace_cons, absEnd_cons, ih]

theorem absEnd_append (w : BusWidth) (a : AbsState) (xs ys : List BusEvent) :
    absEnd w a (xs ++ ys) = absEnd w (absEnd w a xs) ys := by
  simp [absEnd, List.foldl_append]

@[simp] theorem commandTrace_delayFor (w : BusWidth) (a : AbsState) (t : Nat) :
    commandTrace w a (delayFor t) = [] := by
  unfold delayFor; split <;> rfl

@[simp] theorem absEnd_delayFor (w : BusWidth) (a : AbsState) (t : Nat) : absEnd w a (delayFor t) = a := by
  unfold delayFor; split <;> rfl

@[simp] theorem drive_delayFor (l : Lines) (t : Nat) : (delayFor t).foldl Lines.drive l = l := by
  unfold delayFor; split <;> rfl

/-! ## One pulse -/

/-- The lines let the block write: read/write low, direction output. -/
def Lines.writable (l : Lines) : Bool := !l.rw && l.dir == .output

/-- The abstraction stands between two transfers, outside the Synchronizing region. -/
def AbsState.idle (a : AbsState) : Prop := a.rw = false ∧ a.dir = .output ∧ a.pending = none ∧ a.syncs = 0

theorem commandTrace_pulse (c : Config) (w : BusWidth) (a : AbsState) (h1 : a.rw = false) (h2 : a.dir = .output) :
    commandTrace w a (pulse c) = (a.writePulse w).2 ∧ absEnd w a (pulse c) = (a.writePulse w).1 := by
  simp [pulse, commandTrace_append, commandTrace_cons, absEnd_append, absEnd_cons, AbsState.read, h1, h2]

@[simp] theorem drive_pulse (c : Config) (l : Lines) :
    (pulse c).foldl Lines.drive l = { l with e := false } := by
  simp [pulse, List.foldl_append, Lines.drive]

@[simp] theorem primitives_pulse (c : Config) : primitives (pulse c) = 3 := by
  simp [pulse, primitives_cons, BusEvent.isPrimitive]

/-! ## What a completed list of events says -/

/-- From any point between two transfers, these events are `cmds` at the command level, and leave the abstraction
between two transfers. -/
def Speaks (w : BusWidth) (evs : List BusEvent) (cmds : List CommandEvent) : Prop :=
  ∀ a : AbsState, a.idle → commandTrace w a evs = cmds ∧ (absEnd w a evs).idle

theorem Speaks.append {w : BusWidth} {xs ys : List BusEvent} {cs ds : List CommandEvent} (hx : Speaks w xs cs)
    (hy : Speaks w ys ds) : Speaks w (xs ++ ys) (cs ++ ds) := by
  intro a ha
  obtain ⟨h1, h2⟩ := hx a ha
  obtain ⟨h3, h4⟩ := hy _ h2
  exact ⟨by rw [commandTrace_append, h1, h3], by rw [absEnd_append]; exact h4⟩

theorem nibble_append (b : Byte) : b.extractLsb' 4 4 ++ b.extractLsb' 0 4 = b := by
  revert b; decide

theorem nibble_of_append (n : Nibble) : (n ++ 0x0#4).extractLsb' 4 4 = n := by
  revert n; decide

theorem speaks_transfer (c : Config) (r : Bool) (b : Byte) :
    Speaks c.busWidth (.rs r :: xfer c b) [if r then .data b else .cmd b] := by
  intro a ⟨h1, h2, h3, h4⟩
  rw [commandTrace_cons, absEnd_cons]
  cases hw : c.busWidth with
  | w8 =>
    simp only [xfer, hw, byte8, commandTrace_cons, absEnd_cons, AbsState.read]
    obtain ⟨p1, p2⟩ := commandTrace_pulse c .w8 { a with rs := r, last := b } h1 h2
    rw [p1, p2]
    simp [AbsState.writePulse, h4, AbsState.transfer, AbsState.idle, h1, h2, h3]
  | w4 =>
    simp only [xfer, hw, nibble, commandTrace_append, absEnd_append, commandTrace_cons, absEnd_cons, AbsState.read]
    obtain ⟨p1, p2⟩ := commandTrace_pulse c .w4
      { a with rs := r, last := b.extractLsb' 4 4 ++ 0x0#4 } h1 h2
    rw [p1, p2]
    have hp : ({ a with rs := r, last := b.extractLsb' 4 4 ++ 0x0#4 } : AbsState).writePulse .w4
        = ({ a with rs := r, last := b.extractLsb' 4 4 ++ 0x0#4, pending := some (b.extractLsb' 4 4) }, []) := by
      simp [AbsState.writePulse, h3, h4, nibble_of_append]
    rw [hp]
    obtain ⟨q1, q2⟩ := commandTrace_pulse c .w4
      { a with rs := r, last := b.extractLsb' 0 4 ++ 0x0#4, pending := some (b.extractLsb' 4 4) } h1 h2
    simp only [q1, q2]
    simp only [AbsState.writePulse, h4, nibble_of_append, AbsState.transfer, nibble_append]
    simp [AbsState.idle, h1, h2]

theorem drive_transfer (c : Config) (r : Bool) (b : Byte) (l : Lines) :
    ∃ d, (BusEvent.rs r :: xfer c b).foldl Lines.drive l = { l with e := false, rs := r, data := d } := by
  cases hw : c.busWidth <;>
    simp only [xfer, hw, byte8, nibble, List.foldl_cons, List.foldl_append, Lines.drive, drive_pulse] <;>
    exact ⟨_, rfl⟩

theorem primitives_transfer (c : Config) (r : Bool) (b : Byte) :
    primitives (.rs r :: xfer c b) = match c.busWidth with | .w4 => 9 | .w8 => 5 := by
  cases hw : c.busWidth <;> simp [xfer, hw, byte8, nibble, primitives_cons, BusEvent.isPrimitive]

/-- POLLWAIT with one iteration that reads `v`. -/
def pollWaitEvents (c : Config) (v : Nibble) : List BusEvent := pollEntry ++ pollEvents c v ++ pollExit

theorem speaks_delayFor (w : BusWidth) (t : Nat) : Speaks w (delayFor t) [] := by
  intro a ha
  simpa using ha

theorem speaks_pollWait (w : BusWidth) (c : Config) (v : Nibble) : Speaks w (pollWaitEvents c v) [] := by
  intro a ⟨h1, h2, h3, h4⟩
  cases hw : c.busWidth <;>
    simp [pollWaitEvents, pollEntry, pollExit, pollEvents, pollRise, pollFall, hw, commandTrace_append, absEnd_append,
      commandTrace_cons, absEnd_cons, AbsState.read, AbsState.idle, h3, h4]

@[simp] theorem drive_pollEvents (c : Config) (v : Nibble) (l : Lines) :
    (pollEvents c v).foldl Lines.drive l = { l with e := false } := by
  cases hw : c.busWidth <;>
    simp [pollEvents, pollRise, pollFall, hw, List.foldl_append, Lines.drive]

theorem drive_pollWait (c : Config) (v : Nibble) (l : Lines) :
    (pollWaitEvents c v).foldl Lines.drive l
      = { l with e := false, rs := false, rw := false, dir := .output } := by
  simp [pollWaitEvents, pollEntry, pollExit, List.foldl_append, Lines.drive]

/-! ## Completed micro-sequences under either strategy -/

/-- Whenever the environment grants it, the micro-sequence completes by emitting events that say `cmds`, and from lines
that may be written it leaves the lines at rest. -/
def Sends (c : Config) (p : List Micro) (cmds : List CommandEvent) : Prop :=
  ∀ s : State, s.cfg = c → s.Grants (cost c p) →
    ∃ evs, completes p s = some (s.afterAll evs) ∧ primitives evs = cost c p ∧
      Speaks c.busWidth evs cmds ∧ ∀ l : Lines, l.writable = true → (evs.foldl Lines.drive l).atRest = true

theorem writable_of_atRest {l : Lines} (h : l.atRest = true) : l.writable = true := by
  simp only [Lines.atRest, Lines.writable, Bool.and_eq_true] at h ⊢
  exact ⟨h.1.2, h.2⟩

theorem Sends.append {c : Config} {p q : List Micro} {cs ds : List CommandEvent} (hp : Sends c p cs)
    (hq : Sends c q ds) : Sends c (p ++ q) (cs ++ ds) := by
  intro s hs hg
  rw [cost_append] at hg
  obtain ⟨xs, x1, x2, x3, x4⟩ := hp s hs (Grants.mono hg (by omega))
  have hg2 : (s.afterAll xs).Grants (cost c q) := Grants.afterAll xs (by rw [x2]; exact hg)
  obtain ⟨ys, y1, y2, y3, y4⟩ := hq _ (by rw [afterAll_cfg]; exact hs) hg2
  refine ⟨xs ++ ys, ?_, by simp [x2, y2], x3.append y3, fun l hl => ?_⟩
  · rw [completes_append x1 y1, afterAll_append]
  · rw [List.foldl_append]; exact y4 _ (writable_of_atRest (x4 l hl))

/-- A register-select and a byte, then the readiness wait of either strategy. -/
theorem sends_transfer (c : Config) (r : Bool) (b : Byte) (k : WaitClass) :
    Sends c (emitting (.rs r :: xfer c b) ++ waitFor c k) [if r then .data b else .cmd b] := by
  intro s hs hg
  have hd : ∀ l : Lines, l.writable = true →
      ((BusEvent.rs r :: xfer c b).foldl Lines.drive l).atRest = true := by
    intro l hl
    obtain ⟨d, hd⟩ := drive_transfer c r b l
    rw [hd]; simpa [Lines.atRest, Lines.writable] using hl
  rw [cost_append, cost_emitting] at hg
  have x1 := completes_emitting (.rs r :: xfer c b) s (Acks.mono hg.1 (by omega))
  have hg2 := Grants.afterAll (.rs r :: xfer c b) hg
  have hc2 : (s.afterAll (.rs r :: xfer c b)).cfg = c := by rw [afterAll_cfg, hs]
  cases hst : c.strategy with
  | fixedDelay =>
    simp only [waitFor, hst, cost_emitting] at hg2 ⊢
    have y1 := completes_emitting _ _ hg2.1
    refine ⟨(.rs r :: xfer c b) ++ fixedWait c k, ?_,
      by simp only [primitives_append, cost_append, cost_emitting], ?_, fun l hl => ?_⟩
    · rw [completes_append x1 y1, afterAll_append]
    · have := (speaks_transfer c r b).append (speaks_delayFor c.busWidth (waitTime c k))
      simpa [fixedWait] using this
    · rw [List.foldl_append, fixedWait, drive_delayFor]; exact hd l hl
  | busyFlagPolling =>
    simp only [waitFor, hst] at hg2 ⊢
    have hcost : cost c pollWait = primitives pollEntry + (pollCost c + primitives pollExit) := by
      simp [pollWait, cost_append, cost_cons, Micro.cost, cost_emitting]
    rw [hcost] at hg2
    generalize ht : s.afterAll (.rs r :: xfer c b) = t at x1 hg2 hc2
    have y1 := completes_emitting pollEntry t (Acks.mono hg2.1 (by omega))
    have hg3 := Grants.afterAll pollEntry hg2
    have hc3 : (t.afterAll pollEntry).cfg = c := by rw [afterAll_cfg, hc2]
    generalize hu : t.afterAll pollEntry = u at y1 hg3 hc3
    have hb : busy (u.answerAt 1).data = false :=
      hg3.2 (by rw [hc3]; exact hst) 1 (by simp only [pollCost, primitives_pollRise]; omega)
    have z1 : completes [.poll] u = some (u.afterAll (pollEvents c (u.answerAt 1).data)) := by
      simp only [completes, Micro.run]
      rw [pollOnce_ack u (Acks.mono hg3.1 (by rw [hc3]; omega)), hb, hc3]
      simp
    have hg4 := Grants.afterAll (pollEvents c (u.answerAt 1).data) (by rw [primitives_pollEvents]; exact hg3)
    have w1 := completes_emitting pollExit _ (hg4.1)
    refine ⟨(.rs r :: xfer c b) ++ pollWaitEvents c (u.answerAt 1).data, ?_, ?_, ?_, fun l hl => ?_⟩
    · have h2 := completes_append x1 (completes_append (completes_append y1 z1) w1)
      rw [pollWait, h2, pollWaitEvents, afterAll_append, afterAll_append, afterAll_append, ht, hu]
    · simp only [pollWaitEvents, primitives_append, primitives_pollEvents, cost_append, cost_emitting, hcost]
      omega
    · have := (speaks_transfer c r b).append (speaks_pollWait c.busWidth c (u.answerAt 1).data)
      simpa using this
    · obtain ⟨d, hd⟩ := drive_transfer c r b l
      rw [List.foldl_append, hd, drive_pollWait]; rfl

/-- CMD (R113). -/
theorem sends_cmd (c : Config) (b : Byte) : Sends c (cmd c b) [.cmd b] := by
  simpa [cmd] using sends_transfer c false b (waitClass b)

/-- DATA (R114). -/
theorem sends_data (c : Config) (d : Byte) : Sends c (data c d) [.data d] := by
  simpa [data] using sends_transfer c true d .ordinary

/-- DATA of several bytes in order (R240). -/
theorem sends_datas (c : Config) (ds : List Byte) (h : ds ≠ []) :
    Sends c (ds.flatMap (data c)) (ds.map .data) := by
  induction ds with
  | nil => exact absurd rfl h
  | cons d ds ih =>
    cases ds with
    | nil => simpa using sends_data c d
    | cons e es => simpa using (sends_data c d).append (ih (by simp))

/-- The address, then the character (R190, R191). -/
theorem sends_char (c : Config) (a : BitVec 7) (code : Byte) :
    Sends c (charProgram c a code) [.cmd (ddramByte a), .data code] :=
  (sends_cmd c _).append (sends_data c code)

/-- What a completed `Sends` leaves, in full: the events, the lines at rest, and every register as it was. -/
theorem Sends.completes {c : Config} {p : List Micro} {cmds : List CommandEvent} (hp : Sends c p cmds) (s : State)
    (hs : s.cfg = c) (hl : s.lines.atRest = true) (hg : s.Grants (cost c p)) :
    ∃ evs l, completes p s = some { s with
        trace := s.trace ++ evs, lines := l, script := s.script.drop (cost c p), draws := s.draws + cost c p } ∧
      l.atRest = true ∧ commandTrace c.busWidth (.start s.lines 0) evs = cmds := by
  obtain ⟨evs, x1, x2, x3, x4⟩ := hp s hs hg
  refine ⟨evs, evs.foldl Lines.drive s.lines, ?_, x4 _ (writable_of_atRest hl), ?_⟩
  · rw [x1, afterAll_eq s evs hg.1.1, x2]
  · refine (x3 _ ?_).1
    simp only [Lines.atRest, Bool.and_eq_true, Bool.not_eq_true'] at hl
    exact ⟨hl.1.2, by simpa [AbsState.start] using hl.2, rfl, rfl⟩

end Sys2Proof.Machine
end

