-- ==== Sys2Proof/Laws/Sync.lean ====
section
/-!
SUPPORT. The Synchronizing region of INIT as the command level sees it (R117, R141 to R144).
-/

namespace Sys2Proof.Machine

/-- The abstraction stands between two pulses of the Synchronizing region, with `k` still to come. -/
def AbsState.synchronizing (a : AbsState) (k : Nat) : Prop :=
  a.rw = false ∧ a.dir = .output ∧ a.pending = none ∧ a.syncs = k

/-- What a handshake pulse is at the command level (R14, R117). -/
def syncEvent (w : BusWidth) (n : Nibble) : CommandEvent :=
  match w with
  | .w4 => .sync n
  | .w8 => .syncByte (n ++ 0x0#4)

/-- From any point of the region these events are `cmds`, and use up `k` of its pulses. -/
def SpeaksSync (w : BusWidth) (evs : List BusEvent) (cmds : List CommandEvent) (k : Nat) : Prop :=
  ∀ (a : AbsState) (m : Nat), a.synchronizing (k + m) →
    commandTrace w a evs = cmds ∧ (absEnd w a evs).synchronizing m

theorem SpeaksSync.nil (w : BusWidth) : SpeaksSync w [] [] 0 := by
  intro a m ha
  rw [Nat.zero_add] at ha
  exact ⟨rfl, ha⟩

theorem SpeaksSync.append {w : BusWidth} {xs ys : List BusEvent} {cs ds : List CommandEvent} {j k : Nat}
    (hx : SpeaksSync w xs cs j) (hy : SpeaksSync w ys ds k) : SpeaksSync w (xs ++ ys) (cs ++ ds) (j + k) := by
  intro a m ha
  rw [Nat.add_assoc] at ha
  obtain ⟨h1, h2⟩ := hx a _ ha
  obtain ⟨h3, h4⟩ := hy _ _ h2
  exact ⟨by rw [commandTrace_append, h1, h3], by rw [absEnd_append]; exact h4⟩

theorem speaksSync_delayFor (w : BusWidth) (t : Nat) : SpeaksSync w (delayFor t) [] 0 := by
  intro a m ha
  rw [Nat.zero_add] at ha
  simpa using ha

/-- One handshake pulse (R143). -/
theorem speaksSync_syncx (c : Config) (n : Nibble) :
    SpeaksSync c.busWidth (syncx c n) [syncEvent c.busWidth n] 1 := by
  intro a m ⟨h1, h2, h3, h4⟩
  rw [Nat.add_comm] at h4
  cases hw : c.busWidth with
  | w4 =>
    obtain ⟨p1, p2⟩ := commandTrace_pulse c .w4 { a with last := n ++ 0x0#4 } h1 h2
    simp only [syncx, hw, nibble, commandTrace_cons, absEnd_cons, AbsState.read, p1, p2]
    simp [AbsState.writePulse, h4, nibble_of_append, syncEvent, AbsState.synchronizing, h1, h2, h3]
  | w8 =>
    obtain ⟨p1, p2⟩ := commandTrace_pulse c .w8 { a with last := n ++ 0x0#4 } h1 h2
    simp only [syncx, hw, byte8, commandTrace_cons, absEnd_cons, AbsState.read, p1, p2]
    simp [AbsState.writePulse, h4, syncEvent, AbsState.synchronizing, h1, h2, h3]

/-- HANDSHAKE: one pulse for each entry of SYNC_SEQ (R142, R143). -/
theorem speaksSync_handshake (c : Config) (seq : List (Nibble × Nat)) :
    SpeaksSync c.busWidth (seq.flatMap fun p => syncx c p.1 ++ delayFor p.2)
      (seq.map fun p => syncEvent c.busWidth p.1) seq.length := by
  induction seq with
  | nil => exact SpeaksSync.nil _
  | cons p ps ih =>
    have h := ((speaksSync_syncx c p.1).append (speaksSync_delayFor c.busWidth p.2)).append ih
    simpa [Nat.add_comm] using h

/-- RESYNC: five all-zero pulses, or none (R144). -/
theorem speaksSync_resync (c : Config) :
    SpeaksSync c.busWidth (resync c)
      (if c.oledResync then List.replicate 5 (syncEvent c.busWidth 0x0) else [])
      (if c.oledResync then 5 else 0) := by
  unfold resync
  cases c.oledResync with
  | false => exact SpeaksSync.nil _
  | true =>
    have h := speaksSync_syncx c 0x0
    simpa using h.append (h.append (h.append (h.append h)))

/-- PRESET ends ready to write, from any lines (R141). -/
theorem preset_speaks (c : Config) (l : Lines) (k : Nat) :
    commandTrace c.busWidth (.start l k) (preset c) = [] ∧
      (absEnd c.busWidth (.start l k) (preset c)).synchronizing k := by
  simp [preset, commandTrace_cons, absEnd_cons, AbsState.read, AbsState.synchronizing, AbsState.start]

theorem drive_preset (c : Config) (l : Lines) :
    (preset c).foldl Lines.drive l = { l with e := false, rs := false, rw := false, dir := .output } := by
  simp [preset, Lines.drive]

/-- A handshake pulse leaves enable low and the other control lines as they were. -/
theorem drive_syncx (c : Config) (n : Nibble) (l : Lines) :
    ∃ d, (syncx c n).foldl Lines.drive l = { l with e := false, data := d } := by
  cases hw : c.busWidth <;> simp only [syncx, hw, nibble, byte8, List.foldl_cons, Lines.drive, drive_pulse] <;>
    exact ⟨_, rfl⟩

/-- Events that keep lines at rest at rest. -/
def KeepsRest (evs : List BusEvent) : Prop :=
  ∀ l : Lines, l.atRest = true → (evs.foldl Lines.drive l).atRest = true

theorem KeepsRest.append {xs ys : List BusEvent} (hx : KeepsRest xs) (hy : KeepsRest ys) : KeepsRest (xs ++ ys) := by
  intro l hl
  rw [List.foldl_append]
  exact hy _ (hx l hl)

theorem keepsRest_syncx (c : Config) (n : Nibble) : KeepsRest (syncx c n) := by
  intro l hl
  obtain ⟨d, hd⟩ := drive_syncx c n l
  rw [hd]
  simp only [Lines.atRest, Bool.and_eq_true] at hl ⊢
  exact ⟨⟨rfl, hl.1.2⟩, hl.2⟩

theorem keepsRest_delayFor (t : Nat) : KeepsRest (delayFor t) := by
  intro l hl
  rwa [drive_delayFor]

theorem keepsRest_handshake (c : Config) (seq : List (Nibble × Nat)) :
    KeepsRest (seq.flatMap fun p => syncx c p.1 ++ delayFor p.2) := by
  induction seq with
  | nil => exact fun _ hl => hl
  | cons p ps ih => exact ((keepsRest_syncx c p.1).append (keepsRest_delayFor p.2)).append ih

theorem keepsRest_resync (c : Config) : KeepsRest (resync c) := by
  unfold resync
  cases c.oledResync with
  | false => exact fun _ hl => hl
  | true =>
    have h := keepsRest_syncx c 0x0
    simpa using h.append (h.append (h.append (h.append h)))

/-- INIT up to its first command: the pulses of the Synchronizing region, and lines at rest, from any lines (R141 to R144). -/
theorem syncRegion (c : Config) (l : Lines) :
    let evs := preset c ++ resync c ++ handshake c
    commandTrace c.busWidth (.start l (initSyncs c)) evs
        = (if c.oledResync then List.replicate 5 (syncEvent c.busWidth 0x0) else [])
          ++ c.syncSeq.map (fun p => syncEvent c.busWidth p.1) ∧
      (absEnd c.busWidth (.start l (initSyncs c)) evs).idle ∧ (evs.foldl Lines.drive l).atRest = true := by
  obtain ⟨p1, p2⟩ := preset_speaks c l (initSyncs c)
  have h := (speaksSync_resync c).append (speaksSync_handshake c c.syncSeq)
  obtain ⟨q1, q2⟩ := h _ 0 p2
  refine ⟨?_, ?_, ?_⟩
  · rw [List.append_assoc, commandTrace_append, p1]; exact q1
  · rw [List.append_assoc, absEnd_append]; exact q2
  · rw [List.append_assoc, List.foldl_append, drive_preset]
    exact ((keepsRest_resync c).append (keepsRest_handshake c c.syncSeq)) _ rfl

end Sys2Proof.Machine
end

