-- ==== Sys2Proof/Laws/Exec.lean ====
section
/-!
SUPPORT. What `exec` answers, once for each shape of instruction: a micro-sequence run, a refusal, or an operation without
bus events.
-/

namespace Sys2Proof.Machine

/-- A refusal changes nothing but the output and the record of results (R259). -/
theorem refused_refuse (s : State) (st : Status) : Refused s (refuse st s) st :=
  ⟨⟨_, rfl, rfl⟩, rfl, rfl, ⟨rfl, rfl⟩, ⟨rfl, rfl⟩, rfl, rfl, ⟨rfl, rfl, rfl, rfl⟩, rfl⟩

/-! ## The address mapper -/

theorem addr_eq_some {g : Geom} {column row : Byte} {a : BitVec 7} (h : addr g column row = some a) :
    column.toNat < cols g ∧ row.toNat < rows g ∧ a = BitVec.ofNat 7 (rowBase g row.toNat + column.toNat) := by
  unfold addr at h
  split at h
  · next h2 =>
    simp only [inRange, Bool.and_eq_true, decide_eq_true_eq] at h2
    exact ⟨h2.1, h2.2, (Option.some.inj h).symm⟩
  · cases h

theorem addr_eq_none {g : Geom} {column row : Byte} (h : cols g ≤ column.toNat ∨ rows g ≤ row.toNat) :
    addr g column row = none ∧ inRange g column row = false := by
  have : inRange g column row = false := by simp [inRange]; omega
  exact ⟨by simp [addr, this], this⟩

theorem cols_bounds (g : Geom) : 8 ≤ cols g ∧ cols g ≤ 40 := by cases g <;> decide

theorem rows_bounds (g : Geom) : 2 ≤ rows g ∧ rows g ≤ 4 := by cases g <;> decide

/-- The row starts (R180): rows 2 and 3 exist in 20x4 only. -/
theorem rowBase_eq {g : Geom} {row : Nat} (h : row < rows g) :
    rowBase g row = if row = 0 then 0x00 else if row = 1 then 0x40 else if row = 2 then 0x14 else 0x54 := by
  have h4 : row < 4 := by have := (rows_bounds g).2; omega
  match row, h4 with
  | 0, _ => cases g <;> rfl
  | 1, _ => cases g <;> rfl
  | 2, _ => cases g <;> first | rfl | exact absurd h (by decide)
  | 3, _ => cases g <;> first | rfl | exact absurd h (by decide)

/-! ## The cursor -/

/-- The next row, as a number: one on, modulo ROWS (R199, R200). -/
theorem nextRow_toNat (g : Geom) (row : Byte) (h : row.toNat < rows g) :
    (nextRow g row).toNat = (row.toNat + 1) % rows g := by
  have := rows_bounds g
  unfold nextRow
  split
  · next h2 => simp [h2]
  · rw [Nat.mod_eq_of_lt (by omega), BitVec.toNat_add]; simp; omega

/-- The column after ADVANCE, as a number (R199). -/
theorem advance_curCol_toNat (s : State) (h : s.curCol.toNat < cols s.cfg.geom) :
    s.advance.curCol.toNat = (s.curCol.toNat + 1) % cols s.cfg.geom := by
  have := cols_bounds s.cfg.geom
  rw [State.advance_curCol]
  split
  · next h2 => simp [h2]
  · rw [Nat.mod_eq_of_lt (by omega), BitVec.toNat_add]; simp; omega

/-- The row after ADVANCE, as a number (R199). -/
theorem advance_curRow_toNat (s : State) (h : s.curRow.toNat < rows s.cfg.geom) :
    s.advance.curRow.toNat =
      if s.curCol.toNat + 1 = cols s.cfg.geom then (s.curRow.toNat + 1) % rows s.cfg.geom else s.curRow.toNat := by
  rw [State.advance_curRow]
  split
  · exact nextRow_toNat _ _ h
  · rfl

/-! ## Command bytes as numbers -/

theorem ddramByte_toNat (a : BitVec 7) : ddramByte a = BitVec.ofNat 8 (128 + a.toNat) := by
  revert a; decide +kernel

theorem cgramByte_toNat (slot : BitVec 3) : cgramByte slot = BitVec.ofNat 8 (64 + 8 * slot.toNat) := by
  revert slot; decide

theorem displayByte_toNat (v : BitVec 3) : displayByte v = BitVec.ofNat 8 (8 + v.toNat) := by
  revert v; decide

theorem entryByte_toNat (v : BitVec 2) : entryByte v = BitVec.ofNat 8 (4 + v.toNat) := by
  revert v; decide

theorem functionByte_toNat (dl n f : Bool) :
    functionByte dl n f = BitVec.ofNat 8 (32 + 16 * dl.toNat + 8 * n.toNat + 4 * f.toNat) := by
  revert dl n f; decide

/-! ## The operations that run a micro-sequence -/

theorem exec_writeAt {s : State} {column row code : Byte} {a : BitVec 7} (hp : s.phase = .ready)
    (ha : addr s.cfg.geom column row = some a) :
    exec (.writeAt column row code) s = .next (run (writeAtProgram s.cfg a code) s) := by
  simp only [exec, execWriteAt, whenReady_ready hp, ha, perform]

theorem exec_writeStream {s : State} {byte : Byte} {a : BitVec 7} (hp : s.phase = .ready) (hb : byte ≠ s.cfg.lfCode)
    (ha : addr s.cfg.geom s.curCol s.curRow = some a) :
    exec (.writeStream byte) s = .next (run (writeStreamProgram s.cfg a byte) s) := by
  simp only [exec, execWriteStream, whenReady_ready hp, if_neg hb, ha, perform]

theorem exec_clear {s : State} (hp : s.phase = .ready) : exec .clear s = .next (run (clearProgram s.cfg) s) :=
  whenReady_ready hp _

theorem exec_home {s : State} (hp : s.phase = .ready) : exec .home s = .next (run (homeProgram s.cfg) s) :=
  whenReady_ready hp _

theorem exec_glyph {s : State} {slot : Byte} {glyph : BitVec 64} (hp : s.phase = .ready) (h : slot.toNat ≤ 7) :
    exec (.defineGlyph slot glyph) s = .next (run (glyphProgram s.cfg (slot.extractLsb' 0 3) glyph) s) := by
  simp only [exec, execDefineGlyph, whenReady_ready hp, if_neg (Nat.not_lt.mpr h), perform]

theorem changeDisplay_ready {s : State} {f : BitVec 3 → BitVec 3} (hp : s.phase = .ready) :
    changeDisplay f s = .next (run (displayProgram s.cfg (f s.displayControl)) s) :=
  whenReady_ready hp _

theorem changeEntry_ready {s : State} {f : BitVec 2 → BitVec 2} (hp : s.phase = .ready) :
    changeEntry f s = .next (run (entryProgram s.cfg (f s.entryMode)) s) :=
  whenReady_ready hp _

/-- The masks of R222 to R231. -/
theorem clearBit_masks (v : BitVec 3) (w : BitVec 2) :
    clearBit bitD v = v &&& 0b011 ∧ clearBit bitC v = v &&& 0b101 ∧ clearBit bitB v = v &&& 0b110
      ∧ clearBit bitID w = w &&& 0b01 ∧ clearBit bitS w = w &&& 0b10 := by
  revert v w; decide

theorem setBit_masks (v : BitVec 3) (w : BitVec 2) :
    setBit bitD v = v ||| 0b100 ∧ setBit bitC v = v ||| 0b010 ∧ setBit bitB v = v ||| 0b001
      ∧ setBit bitID w = w ||| 0b10 ∧ setBit bitS w = w ||| 0b01 := by
  revert v w; decide

/-- A display mode runs its micro-sequence. -/
theorem exec_displayMode {s : State} {i : Instr} {v : BitVec 3} (hp : s.phase = .ready)
    (h : displayAfter s.displayControl i = some v) : exec i s = .next (run (displayProgram s.cfg v) s) := by
  obtain ⟨c1, c2, c3, -, -⟩ := clearBit_masks s.displayControl 0
  obtain ⟨s1, s2, s3, -, -⟩ := setBit_masks s.displayControl 0
  cases i <;> simp only [displayAfter, Option.some.injEq, reduceCtorEq] at h <;> subst h
  · rw [← c1]; exact changeDisplay_ready hp
  · rw [← s1]; exact changeDisplay_ready hp
  · rw [← c2]; exact changeDisplay_ready hp
  · rw [← s2]; exact changeDisplay_ready hp
  · rw [← c3]; exact changeDisplay_ready hp
  · rw [← s3]; exact changeDisplay_ready hp

/-- An entry mode runs its micro-sequence. -/
theorem exec_entryMode {s : State} {i : Instr} {v : BitVec 2} (hp : s.phase = .ready)
    (h : entryAfter s.entryMode i = some v) : exec i s = .next (run (entryProgram s.cfg v) s) := by
  obtain ⟨-, -, -, c1, c2⟩ := clearBit_masks 0 s.entryMode
  obtain ⟨-, -, -, s1, s2⟩ := setBit_masks 0 s.entryMode
  cases i <;> simp only [entryAfter, Option.some.injEq, reduceCtorEq] at h <;> subst h
  · rw [← c1]; exact changeEntry_ready hp
  · rw [← s1]; exact changeEntry_ready hp
  · rw [← c2]; exact changeEntry_ready hp
  · rw [← s2]; exact changeEntry_ready hp

theorem displayModeProgram_some {s : State} {i : Instr} {p : List Micro} (h : displayModeProgram s i = some p) :
    ∃ v, displayAfter s.displayControl i = some v ∧ p = displayProgram s.cfg v := by
  obtain ⟨v, h1, h2⟩ := Option.map_eq_some_iff.mp h
  exact ⟨v, h1, h2.symm⟩

theorem entryModeProgram_some {s : State} {i : Instr} {p : List Micro} (h : entryModeProgram s i = some p) :
    ∃ v, entryAfter s.entryMode i = some v ∧ p = entryProgram s.cfg v := by
  obtain ⟨v, h1, h2⟩ := Option.map_eq_some_iff.mp h
  exact ⟨v, h1, h2.symm⟩

/-- The shape of every host operation with a micro-sequence. -/
theorem hostProgram_cases {s : State} {i : Instr} {p : List Micro} (h : hostProgram s i = some p) :
    (i = .init ∧ p = initProgram s.cfg) ∨
    (∃ column row code a, i = .writeAt column row code ∧ addr s.cfg.geom column row = some a
      ∧ p = writeAtProgram s.cfg a code) ∨
    (∃ byte a, i = .writeStream byte ∧ byte ≠ s.cfg.lfCode ∧ addr s.cfg.geom s.curCol s.curRow = some a
      ∧ p = writeStreamProgram s.cfg a byte) ∨
    (i = .clear ∧ p = clearProgram s.cfg) ∨
    (i = .home ∧ p = homeProgram s.cfg) ∨
    (∃ slot glyph, i = .defineGlyph slot glyph ∧ slot.toNat ≤ 7
      ∧ p = glyphProgram s.cfg (slot.extractLsb' 0 3) glyph) ∨
    (∃ v, displayAfter s.displayControl i = some v ∧ p = displayProgram s.cfg v) ∨
    (∃ v, entryAfter s.entryMode i = some v ∧ p = entryProgram s.cfg v) := by
  cases i with
  | init => exact .inl ⟨rfl, (Option.some.inj h).symm⟩
  | writeAt column row code =>
    obtain ⟨a, ha, rfl⟩ := Option.map_eq_some_iff.mp h
    exact .inr (.inl ⟨_, _, _, a, rfl, ha, rfl⟩)
  | writeStream byte =>
    by_cases hb : byte = s.cfg.lfCode
    · exact absurd ((if_pos hb).symm.trans h) (by simp)
    · obtain ⟨a, ha, rfl⟩ := Option.map_eq_some_iff.mp ((if_neg hb).symm.trans h)
      exact .inr (.inr (.inl ⟨_, a, rfl, hb, ha, rfl⟩))
  | clear => exact .inr (.inr (.inr (.inl ⟨rfl, (Option.some.inj h).symm⟩)))
  | home => exact .inr (.inr (.inr (.inr (.inl ⟨rfl, (Option.some.inj h).symm⟩))))
  | defineGlyph slot glyph =>
    by_cases hs : slot.toNat ≤ 7
    · exact .inr (.inr (.inr (.inr (.inr (.inl ⟨_, _, rfl, hs, (Option.some.inj ((if_pos hs).symm.trans h)).symm⟩)))))
    · exact absurd ((if_neg hs).symm.trans h) (by simp)
  | setDisplayOff => obtain ⟨v, h1, h2⟩ := displayModeProgram_some h; exact .inr (.inr (.inr (.inr (.inr (.inr (.inl ⟨v, h1, h2⟩))))))
  | setDisplayOn => obtain ⟨v, h1, h2⟩ := displayModeProgram_some h; exact .inr (.inr (.inr (.inr (.inr (.inr (.inl ⟨v, h1, h2⟩))))))
  | setCursorOff => obtain ⟨v, h1, h2⟩ := displayModeProgram_some h; exact .inr (.inr (.inr (.inr (.inr (.inr (.inl ⟨v, h1, h2⟩))))))
  | setCursorOn => obtain ⟨v, h1, h2⟩ := displayModeProgram_some h; exact .inr (.inr (.inr (.inr (.inr (.inr (.inl ⟨v, h1, h2⟩))))))
  | setBlinkOff => obtain ⟨v, h1, h2⟩ := displayModeProgram_some h; exact .inr (.inr (.inr (.inr (.inr (.inr (.inl ⟨v, h1, h2⟩))))))
  | setBlinkOn => obtain ⟨v, h1, h2⟩ := displayModeProgram_some h; exact .inr (.inr (.inr (.inr (.inr (.inr (.inl ⟨v, h1, h2⟩))))))
  | setFlowDecrement => obtain ⟨v, h1, h2⟩ := entryModeProgram_some h; exact .inr (.inr (.inr (.inr (.inr (.inr (.inr ⟨v, h1, h2⟩))))))
  | setFlowIncrement => obtain ⟨v, h1, h2⟩ := entryModeProgram_some h; exact .inr (.inr (.inr (.inr (.inr (.inr (.inr ⟨v, h1, h2⟩))))))
  | setShiftOff => obtain ⟨v, h1, h2⟩ := entryModeProgram_some h; exact .inr (.inr (.inr (.inr (.inr (.inr (.inr ⟨v, h1, h2⟩))))))
  | setShiftOn => obtain ⟨v, h1, h2⟩ := entryModeProgram_some h; exact .inr (.inr (.inr (.inr (.inr (.inr (.inr ⟨v, h1, h2⟩))))))
  | _ => cases h

/-- In phase Ready (INIT in any phase) a host operation with a micro-sequence runs it. -/
theorem exec_hostProgram {s : State} {i : Instr} {p : List Micro} (hp : i = .init ∨ s.phase = .ready)
    (h : hostProgram s i = some p) : exec i s = .next (run p s) := by
  rcases hp with rfl | hp
  · cases h; rfl
  rcases hostProgram_cases h with ⟨rfl, rfl⟩ | ⟨_, _, _, _, rfl, ha, rfl⟩ | ⟨_, _, rfl, hb, ha, rfl⟩ | ⟨rfl, rfl⟩ |
    ⟨rfl, rfl⟩ | ⟨_, _, rfl, hs, rfl⟩ | ⟨v, hv, rfl⟩ | ⟨v, hv, rfl⟩
  · rfl
  · exact exec_writeAt hp ha
  · exact exec_writeStream hp hb ha
  · exact exec_clear hp
  · exact exec_home hp
  · exact exec_glyph hp hs
  · exact exec_displayMode hp hv
  · exact exec_entryMode hp hv

/-- The micro-sequence of a far-side transfer: CMD or DATA by register-select (R113, R114). -/
def farProgram (c : Config) (rs : Bool) (b : Byte) : List Micro := if rs then data c b else cmd c b

/-- A far-side transfer runs CMD or DATA of its byte. -/
theorem exec_farProgram {s : State} {i : Instr} {rs : Bool} {b : Byte} (h : farByte i = some (rs, b)) :
    exec i s = .next (run (farProgram s.cfg rs b) s) := by
  cases i <;> simp only [farByte, Option.some.injEq, Prod.mk.injEq, reduceCtorEq] at h <;>
    obtain ⟨rfl, rfl⟩ := h
  case clearDisplay => rfl
  case returnHome => rfl
  case dataByte => rfl
  case entryModeSet id sh =>
    simp only [exec, execEntryModeSet, perform, farProgram, Bool.false_eq_true, if_false]
    congr 4; revert id sh; decide
  case displayControl d cu b =>
    simp only [exec, execDisplayControl, perform, farProgram, Bool.false_eq_true, if_false]
    congr 4; revert d cu b; decide
  case functionSet dl n f =>
    simp only [exec, execFunctionSet, perform, farProgram, functionByte_toNat, Bool.false_eq_true, if_false]
  case setCgramAddr slot =>
    simp only [exec, execSetCgramAddr, perform, farProgram, cgramByte_toNat, Bool.false_eq_true, if_false]
  case setDdramAddr a =>
    simp only [exec, execSetDdramAddr, perform, farProgram, ddramByte_toNat, Bool.false_eq_true, if_false]

/-! ## The operations without bus events -/

theorem exec_lineFeed {s : State} (hp : s.phase = .ready) :
    exec (.writeStream s.cfg.lfCode) s = .next (s.newline.returnStatus .ok) := by
  simp only [exec, execWriteStream, whenReady_ready hp, if_true]

theorem exec_moveTo {s : State} {column row : Byte} (hp : s.phase = .ready)
    (h : inRange s.cfg.geom column row = true) :
    exec (.moveTo column row) s = .next (({ s with curCol := column, curRow := row }).returnStatus .ok) := by
  simp only [exec, execMoveTo, whenReady_ready hp, h, if_true]

theorem exec_columns {s : State} (hp : s.phase = .ready) :
    exec .columns s = .next (s.returnValue .ok (BitVec.ofNat 8 (cols s.cfg.geom))) := by
  simp only [exec, execColumns, whenReady_ready hp]

theorem exec_rows {s : State} (hp : s.phase = .ready) :
    exec .rows s = .next (s.returnValue .ok (BitVec.ofNat 8 (rows s.cfg.geom))) := by
  simp only [exec, execRows, whenReady_ready hp]

theorem exec_invalidSlot {s : State} {slot : Byte} {glyph : BitVec 64} (hp : s.phase = .ready) (h : 7 < slot.toNat) :
    exec (.defineGlyph slot glyph) s = .next (refuse .ok s) := by
  simp only [exec, execDefineGlyph, whenReady_ready hp, if_pos h, refuse]

/-- Outside phase Ready every host operation but INIT is refused (R253). -/
theorem exec_notReady {s : State} {i : Instr} (hi : i.isHost = true) (hn : i ≠ .init) (hp : s.phase ≠ .ready) :
    exec i s = .next (refuse .errNotReady s) := by
  cases i with
  | init => exact absurd rfl hn
  | writeAt column row code => simp only [exec, execWriteAt, whenReady_other hp]
  | writeStream byte => simp only [exec, execWriteStream, whenReady_other hp]
  | moveTo column row => simp only [exec, execMoveTo, whenReady_other hp]
  | clear => exact whenReady_other hp _
  | home => exact whenReady_other hp _
  | setDisplayOff => exact whenReady_other hp _
  | setDisplayOn => exact whenReady_other hp _
  | setCursorOff => exact whenReady_other hp _
  | setCursorOn => exact whenReady_other hp _
  | setBlinkOff => exact whenReady_other hp _
  | setBlinkOn => exact whenReady_other hp _
  | setFlowDecrement => exact whenReady_other hp _
  | setFlowIncrement => exact whenReady_other hp _
  | setShiftOff => exact whenReady_other hp _
  | setShiftOn => exact whenReady_other hp _
  | defineGlyph slot glyph => simp only [exec, execDefineGlyph, whenReady_other hp]
  | columns => simp only [exec, execColumns, whenReady_other hp]
  | rows => simp only [exec, execRows, whenReady_other hp]
  | _ => cases hi

/-- The ways a host operation without a micro-sequence answers in phase Ready. -/
theorem exec_noProgram {s : State} {i : Instr} (hi : i.isHost = true) (hp : s.phase = .ready)
    (h : hostProgram s i = none) :
    (∃ st, exec i s = .next (refuse st s)) ∨
    (∃ b, i = .writeStream b ∧ exec i s = .next (s.newline.returnStatus .ok)) ∨
    (∃ c r, i = .moveTo c r ∧ inRange s.cfg.geom c r = true ∧
      exec i s = .next (({ s with curCol := c, curRow := r }).returnStatus .ok)) ∨
    (∃ v, (i = .columns ∨ i = .rows) ∧ exec i s = .next (s.returnValue .ok v)) ∨
    (∃ f, exec i s = .fault f) := by
  cases i with
  | writeAt column row code =>
    replace h := Option.map_eq_none_iff.mp h
    refine .inl ⟨.errRange, ?_⟩
    simp only [exec, execWriteAt, whenReady_ready hp, h]
  | writeStream byte =>
    by_cases hb : byte = s.cfg.lfCode
    · subst hb; exact .inr (.inl ⟨_, rfl, exec_lineFeed hp⟩)
    · replace h := Option.map_eq_none_iff.mp ((if_neg hb).symm.trans h)
      refine .inr (.inr (.inr (.inr ⟨.cursorOffGrid, ?_⟩)))
      simp only [exec, execWriteStream, whenReady_ready hp, if_neg hb, h]
  | moveTo column row =>
    cases hr : inRange s.cfg.geom column row with
    | true => exact .inr (.inr (.inl ⟨_, _, rfl, hr, exec_moveTo hp hr⟩))
    | false =>
      refine .inl ⟨.errRange, ?_⟩
      simp only [exec, execMoveTo, whenReady_ready hp, hr, Bool.false_eq_true, if_false]
  | defineGlyph slot glyph =>
    by_cases hs : slot.toNat ≤ 7
    · exact absurd ((if_pos hs).symm.trans h) (by simp)
    · exact .inl ⟨.ok, exec_invalidSlot hp (by omega)⟩
  | columns => exact .inr (.inr (.inr (.inl ⟨_, .inl rfl, exec_columns hp⟩)))
  | rows => exact .inr (.inr (.inr (.inl ⟨_, .inr rfl, exec_rows hp⟩)))
  | init => cases h
  | clear => cases h
  | home => cases h
  | setDisplayOff => cases h
  | setDisplayOn => cases h
  | setCursorOff => cases h
  | setCursorOn => cases h
  | setBlinkOff => cases h
  | setBlinkOn => cases h
  | setFlowDecrement => cases h
  | setFlowIncrement => cases h
  | setShiftOff => cases h
  | setShiftOn => cases h
  | _ => cases hi

/-- Every way a host operation answers. -/
theorem exec_host_cases {s : State} {i : Instr} (hi : i.isHost = true) :
    (∃ p, (i = .init ∨ s.phase = .ready) ∧ hostProgram s i = some p ∧ exec i s = .next (run p s)) ∨
    (∃ st, exec i s = .next (refuse st s)) ∨
    (∃ b, s.phase = .ready ∧ i = .writeStream b ∧ exec i s = .next (s.newline.returnStatus .ok)) ∨
    (∃ c r, s.phase = .ready ∧ i = .moveTo c r ∧ inRange s.cfg.geom c r = true ∧
      exec i s = .next (({ s with curCol := c, curRow := r }).returnStatus .ok)) ∨
    (∃ v, (i = .columns ∨ i = .rows) ∧ exec i s = .next (s.returnValue .ok v)) ∨
    (∃ f, exec i s = .fault f) := by
  by_cases hn : i = .init
  · subst hn; exact .inl ⟨_, .inl rfl, rfl, rfl⟩
  by_cases hp : s.phase = .ready
  · cases hprog : hostProgram s i with
    | some p => exact .inl ⟨p, .inr hp, rfl, exec_hostProgram (.inr hp) hprog⟩
    | none =>
      rcases exec_noProgram hi hp hprog with h | ⟨b, h1, h2⟩ | ⟨c, r, h1, h2, h3⟩ | h | h
      · exact .inr (.inl h)
      · exact .inr (.inr (.inl ⟨b, hp, h1, h2⟩))
      · exact .inr (.inr (.inr (.inl ⟨c, r, hp, h1, h2, h3⟩)))
      · exact .inr (.inr (.inr (.inr (.inl h))))
      · exact .inr (.inr (.inr (.inr (.inr h))))
  · exact .inr (.inl ⟨.errNotReady, exec_notReady hi hn hp⟩)

/-- Every far-side instruction runs its micro-sequence. -/
theorem exec_far {s : State} {i : Instr} (hi : i.isHost = false) :
    (∃ rs b, farByte i = some (rs, b) ∧ exec i s = .next (run (farProgram s.cfg rs b) s)) ∨
    (∃ n, i = .syncPulse n ∧ exec i s = .next (run (emitting (syncx s.cfg n)) s)) := by
  cases i with
  | syncPulse n => exact .inr ⟨n, rfl, rfl⟩
  | clearDisplay => exact .inl ⟨_, _, rfl, exec_farProgram rfl⟩
  | returnHome => exact .inl ⟨_, _, rfl, exec_farProgram rfl⟩
  | entryModeSet => exact .inl ⟨_, _, rfl, exec_farProgram rfl⟩
  | displayControl => exact .inl ⟨_, _, rfl, exec_farProgram rfl⟩
  | functionSet => exact .inl ⟨_, _, rfl, exec_farProgram rfl⟩
  | setCgramAddr => exact .inl ⟨_, _, rfl, exec_farProgram rfl⟩
  | setDdramAddr => exact .inl ⟨_, _, rfl, exec_farProgram rfl⟩
  | dataByte => exact .inl ⟨_, _, rfl, exec_farProgram rfl⟩
  | _ => cases hi

end Sys2Proof.Machine
end

