-- ==== Sys2Proof/Laws/Fixed.lean ====
section
/-!
SUPPORT. Micro-sequences without a poll, which are all there are under fixed delay (R161): their events, and the run to the
end.
-/

namespace Sys2Proof.Machine

/-- The event a micro action emits, if it is an `emit`. -/
def Micro.event : Micro → Option BusEvent
  | .emit ev => some ev
  | .poll => none
  | .setPhase _ => none
  | .setDisplayControl _ => none
  | .setEntryMode _ => none
  | .setCursor _ _ => none
  | .advance => none
  | .ret _ => none

/-- Neither a poll nor a return. -/
def Micro.plain : Micro → Bool
  | .emit _ => true
  | .poll => false
  | .setPhase _ => true
  | .setDisplayControl _ => true
  | .setEntryMode _ => true
  | .setCursor _ _ => true
  | .advance => true
  | .ret _ => false

/-- The events a micro-sequence without a poll emits. -/
def emitted (p : List Micro) : List BusEvent := p.filterMap Micro.event

/-- Neither a poll nor a return anywhere. -/
def plain (p : List Micro) : Bool := p.all Micro.plain

@[simp] theorem emitted_nil : emitted [] = [] := rfl

@[simp] theorem emitted_append (p q : List Micro) : emitted (p ++ q) = emitted p ++ emitted q := by
  simp [emitted]

@[simp] theorem emitted_emitting (evs : List BusEvent) : emitted (emitting evs) = evs := by
  induction evs with
  | nil => rfl
  | cons ev evs ih => rw [emitting_cons]; exact congrArg (ev :: ·) ih

@[simp] theorem plain_append (p q : List Micro) : plain (p ++ q) = (plain p && plain q) := by
  simp [plain]

@[simp] theorem plain_emitting (evs : List BusEvent) : plain (emitting evs) = true := by
  simp [plain, emitting, Micro.plain]

/-- The cost of a plain micro-sequence is the number of primitives it emits. -/
theorem cost_plain (c : Config) (p : List Micro) (h : plain p = true) : cost c p = primitives (emitted p) := by
  induction p with
  | nil => rfl
  | cons m p ih =>
    simp only [plain, List.all_cons, Bool.and_eq_true] at h
    rw [cost_cons, ih h.2]
    cases m with
    | emit ev => show _ = primitives (ev :: emitted p); rw [primitives_cons, Nat.add_comm]; rfl
    | poll => exact absurd h.1 (by decide)
    | _ => exact Nat.zero_add _

/-! ## Under fixed delay everything is plain -/

theorem waitFor_fixed {c : Config} (h : c.strategy = .fixedDelay) (k : WaitClass) :
    waitFor c k = emitting (fixedWait c k) := by
  simp only [waitFor, h]

theorem cmd_fixed {c : Config} (h : c.strategy = .fixedDelay) (b : Byte) :
    cmd c b = emitting (.rs false :: xfer c b ++ fixedWait c (waitClass b)) := by
  rw [cmd, waitFor_fixed h, emitting_append]

theorem data_fixed {c : Config} (h : c.strategy = .fixedDelay) (b : Byte) :
    data c b = emitting (.rs true :: xfer c b ++ fixedWait c .ordinary) := by
  rw [data, waitFor_fixed h, emitting_append]

theorem plain_cmd {c : Config} (h : c.strategy = .fixedDelay) (b : Byte) : plain (cmd c b) = true := by
  rw [cmd_fixed h, plain_emitting]

theorem plain_data {c : Config} (h : c.strategy = .fixedDelay) (b : Byte) : plain (data c b) = true := by
  rw [data_fixed h, plain_emitting]

theorem plain_datas {c : Config} (h : c.strategy = .fixedDelay) (bs : List Byte) :
    plain (bs.flatMap (data c)) = true := by
  induction bs with
  | nil => rfl
  | cons b bs ih => rw [List.flatMap_cons, plain_append, plain_data h, ih]; rfl

/-- Under fixed delay every host operation is a plain micro-sequence and then `return OK`. -/
theorem hostProgram_plain {s : State} {i : Instr} {p : List Micro} (hs : s.cfg.strategy = .fixedDelay)
    (h : hostProgram s i = some p) : ∃ q, p = q ++ [.ret .ok] ∧ plain q = true := by
  have hc := plain_cmd hs
  have hd := plain_data hs
  have hds := plain_datas hs
  have out : ∀ q : List Micro, plain q = true → ∃ q', q ++ [.ret .ok] = q' ++ [Micro.ret .ok] ∧ plain q' = true :=
    fun q hq => ⟨q, rfl, hq⟩
  rcases hostProgram_cases h with ⟨_, rfl⟩ | ⟨_, _, _, a, _, _, rfl⟩ | ⟨_, a, _, _, _, rfl⟩ | ⟨_, rfl⟩ | ⟨_, rfl⟩ |
    ⟨_, _, _, _, rfl⟩ | ⟨_, _, rfl⟩ | ⟨_, _, rfl⟩
  · refine ⟨_, (List.append_assoc _ [Micro.setPhase .entryModeSet, Micro.setPhase .ready] [Micro.ret .ok]).symm, ?_⟩
    simp only [plain_append, plain_emitting, hc]; decide
  · exact out _ (by simp only [charProgram, plain_append, hc, hd, Bool.and_self])
  · refine ⟨_, (List.append_assoc _ [Micro.advance] [Micro.ret .ok]).symm, ?_⟩
    simp only [charProgram, plain_append, hc, hd]; decide
  · refine ⟨_, (List.append_assoc _ [Micro.setCursor 0 0] [Micro.ret .ok]).symm, ?_⟩
    simp only [plain_append, hc]; decide
  · refine ⟨_, (List.append_assoc _ [Micro.setCursor 0 0] [Micro.ret .ok]).symm, ?_⟩
    simp only [plain_append, hc]; decide
  · exact out _ (by simp only [plain_append, hc, hds, Bool.and_self])
  · exact out _ (by simp only [plain_append, hc]; rfl)
  · exact out _ (by simp only [plain_append, hc]; rfl)

/-! ## Running a plain micro-sequence -/

/-- The second state is the first but for the phase, the cursor and the shadows. -/
def SameWorld (s t : State) : Prop :=
  t = { s with phase := t.phase, curCol := t.curCol, curRow := t.curRow, displayControl := t.displayControl,
               entryMode := t.entryMode }

theorem SameWorld.refl (s : State) : SameWorld s s := rfl

theorem SameWorld.trans {s t u : State} (h : SameWorld s t) (g : SameWorld t u) : SameWorld s u := by
  unfold SameWorld at *
  rw [g, h]

theorem SameWorld.after {s t : State} (h : SameWorld s t) (ev : BusEvent) : SameWorld (s.after ev) (t.after ev) := by
  unfold SameWorld at *
  rw [h]; rfl

theorem SameWorld.afterAll {s t : State} (h : SameWorld s t) (evs : List BusEvent) :
    SameWorld (s.afterAll evs) (t.afterAll evs) := by
  induction evs generalizing s t with
  | nil => exact h
  | cons ev evs ih => exact ih (h.after ev)

theorem SameWorld.ackedAt {s t : State} (h : SameWorld s t) (j : Nat) : t.ackedAt j = s.ackedAt j := by
  unfold SameWorld at h
  rw [h]; rfl

theorem SameWorld.fields {s t : State} (h : SameWorld s t) :
    t.trace = s.trace ∧ t.lines = s.lines ∧ t.results = s.results ∧ t.output = s.output ∧ t.position = s.position
      ∧ t.resetIn = s.resetIn ∧ SameOutside s t := by
  unfold SameWorld at h
  rw [h]; exact ⟨rfl, rfl, rfl, rfl, rfl, rfl, rfl, rfl, rfl, rfl⟩

/-- An action that is neither an event nor a poll nor a return. -/
theorem plain_run {m : Micro} (h : m.plain = true) (he : m.event = none) (s : State) :
    ∃ t, m.run s = .go t ∧ SameWorld s t := by
  cases m with
  | emit ev => exact absurd he (by simp [Micro.event])
  | poll => exact absurd h (by decide)
  | ret st => exact absurd h (by simp [Micro.plain])
  | _ => exact ⟨_, rfl, rfl⟩

theorem plain_cases {m : Micro} (h : m.plain = true) :
    (∃ ev, m = .emit ev ∧ m.event = some ev) ∨ m.event = none := by
  cases m with
  | emit ev => exact .inl ⟨ev, rfl, rfl⟩
  | _ => exact .inr rfl

/-- Every primitive acknowledged: it completes, with its events in order. -/
theorem completes_plain {p : List Micro} (hp : plain p = true) (s : State) (h : s.Acks (primitives (emitted p))) :
    ∃ t, completes p s = some t ∧ SameWorld (s.afterAll (emitted p)) t := by
  induction p generalizing s with
  | nil => exact ⟨s, rfl, rfl⟩
  | cons m p ih =>
    simp only [plain, List.all_cons, Bool.and_eq_true] at hp
    rcases plain_cases hp.1 with ⟨ev, rfl, -⟩ | he
    · have hev : emitted (.emit ev :: p) = ev :: emitted p := rfl
      rw [hev] at h ⊢
      have hcat : primitives (ev :: emitted p) = primitives [ev] + primitives (emitted p) :=
        primitives_append [ev] (emitted p)
      rw [hcat] at h
      obtain ⟨t, t1, t2⟩ := ih hp.2 (s.after ev) (Acks.afterAll [ev] h)
      refine ⟨t, ?_, t2⟩
      rw [completes, emit_run_ack ev s (Acks.mono h (Nat.le_add_right _ _))]
      exact t1
    · have hev : emitted (m :: p) = emitted p := by simp [emitted, he]
      rw [hev] at h ⊢
      obtain ⟨u, u1, u2⟩ := plain_run hp.1 he s
      have hu : u.Acks (primitives (emitted p)) :=
        ⟨u2.fields.2.2.2.2.2.1.trans h.1, fun j hj => (u2.ackedAt j).trans (h.2 j hj)⟩
      obtain ⟨t, t1, t2⟩ := ih hp.2 u hu
      refine ⟨t, ?_, (u2.afterAll _).trans t2⟩
      rw [completes, u1]
      exact t1

end Sys2Proof.Machine
end

