-- ==== Sys2Proof/Laws/Step.lean ====
section
/-!
SUPPORT. What `exec` and `step` can do, said once: every way they answer a next state.
-/

namespace Sys2Proof.Machine

/-- What a micro-sequence that an instruction runs is: that of its host operation, a transfer, or a handshake pulse. -/
def Runs (s : State) (i : Instr) (p : List Micro) : Prop :=
  (hostProgram s i = some p ∧ (i = .init ∨ s.phase = .ready)) ∨
    (i.isHost = false ∧ ((∃ rs b, p = farProgram s.cfg rs b) ∨ ∃ n, p = emitting (syncx s.cfg n)))

/-- Every way an instruction answers a next state: it runs a micro-sequence, it only returns a status or a value, or it
only moves the cursor. -/
theorem exec_next_cases {i : Instr} {s t : State} (h : exec i s = .next t) :
    (∃ p, Runs s i p ∧ t = run p s) ∨ (∃ st, t = refuse st s) ∨ (∃ v, t = s.returnValue .ok v) ∨
    (s.phase = .ready ∧ ((∃ b, i = .writeStream b ∧ t = s.newline.returnStatus .ok) ∨
      ∃ c r, i = .moveTo c r ∧ inRange s.cfg.geom c r = true
        ∧ t = ({ s with curCol := c, curRow := r } : State).returnStatus .ok)) := by
  cases hi : i.isHost with
  | true =>
    rcases exec_host_cases (s := s) hi with ⟨p, p1, p2, p3⟩ | ⟨st, g⟩ | ⟨b, hp, e, g⟩ | ⟨c, r, hp, e, hr, g⟩ | ⟨v, _, g⟩ |
      ⟨f, g⟩
    · rw [p3] at h; cases h; exact .inl ⟨p, .inl ⟨p2, p1⟩, rfl⟩
    all_goals (rw [g] at h; cases h)
    · exact .inr (.inl ⟨st, rfl⟩)
    · exact .inr (.inr (.inr ⟨hp, .inl ⟨b, e, rfl⟩⟩))
    · exact .inr (.inr (.inr ⟨hp, .inr ⟨c, r, e, hr, rfl⟩⟩))
    · exact .inr (.inr (.inl ⟨v, rfl⟩))
  | false =>
    rcases exec_far (s := s) hi with ⟨rs, b, _, g⟩ | ⟨n, _, g⟩
    · rw [g] at h; cases h; exact .inl ⟨_, .inr ⟨hi, .inl ⟨rs, b, rfl⟩⟩, rfl⟩
    · rw [g] at h; cases h; exact .inl ⟨_, .inr ⟨hi, .inr ⟨n, rfl⟩⟩, rfl⟩

/-- What the next task says of the ports. -/
theorem task_cases (s : State) :
    (s.task = .reset ∧ s.resetIn = some 0) ∨ (s.task = .resume ∧ s.position ≠ []) ∨
    (∃ x, s.task = .transfer x ∧ s.position = [] ∧ s.transferPort = some x) ∨
    (∃ h rest, s.task = .word h ∧ s.position = [] ∧ s.transferPort = none ∧ s.hostPort = h :: rest) ∨
    (s.task = .idle ∧ s.position = [] ∧ s.transferPort = none ∧ s.hostPort = []) := by
  unfold State.task
  split
  · next h => exact .inl ⟨rfl, h⟩
  · split
    · next h => exact .inr (.inl ⟨rfl, by rw [h]; simp⟩)
    · next h1 h2 => exact .inr (.inr (.inl ⟨_, rfl, h1, h2⟩))
    · next h1 h2 h3 => exact .inr (.inr (.inr (.inl ⟨_, _, rfl, h1, h2, h3⟩)))
    · next h1 h2 h3 => exact .inr (.inr (.inr (.inr ⟨rfl, h1, h2, h3⟩)))

/-- Every way a step answers a next state. -/
theorem step_next_cases {s t : State} (h : step s = .next t) :
    t = assertReset (!s.position.isEmpty) s ∨ (s.position ≠ [] ∧ t = run s.position s) ∨
    (s.position = [] ∧ ∃ x i, s.transferPort = some x ∧ decodeTransfer x = .instr i ∧ exec i s.takeTransfer = .next t) ∨
    (s.position = [] ∧ s.transferPort = none ∧ ∃ w rest, s.hostPort = w :: rest ∧
      ((∃ i, decodeHost w = .instr i ∧ exec i s.takeWord = .next t) ∨ t = refuse .errIllegalOp s.takeWord)) ∨
    (s.position = [] ∧ s.transferPort = none ∧ s.hostPort = [] ∧ t = s) := by
  simp only [step] at h
  split at h
  case isFalse => cases h
  rcases task_cases s with ⟨h1, _⟩ | ⟨h1, h2⟩ | ⟨x, h1, h2, h3⟩ | ⟨w, rest, h1, h2, h3, h4⟩ | ⟨h1, h2, h3, h4⟩
  · rw [h1] at h; cases h; exact .inl rfl
  · rw [h1] at h; cases h; exact .inr (.inl ⟨h2, rfl⟩)
  · rw [h1] at h; simp only at h
    split at h
    · next i hd => exact .inr (.inr (.inl ⟨h2, x, i, h3, hd, h⟩))
    · cases h
  · rw [h1] at h; simp only at h
    split at h
    · next i hd => exact .inr (.inr (.inr (.inl ⟨h2, h3, w, rest, h4, .inl ⟨i, hd, h⟩⟩)))
    · cases h; exact .inr (.inr (.inr (.inl ⟨h2, h3, w, rest, h4, .inr rfl⟩)))
  · rw [h1] at h; cases h
    exact .inr (.inr (.inr (.inr ⟨h2, h3, h4, rfl⟩)))

/-- The decoder of the host word answers host operations only (R81). -/
theorem decodeHost_isHost {h : HostWord} {i : Instr} (hd : decodeHost h = .instr i) : i.isHost = true := by
  unfold decodeHost at hd
  split at hd
  · cases hd
  · split at hd <;> first | (cases hd; rfl) | skip
    · unfold decodeMode at hd; split at hd <;> cases hd <;> rfl
    · cases hd

/-- Running one step more. -/
theorem core_run_succ {s u : State} {n : Nat} (h : step s = .next u) :
    Host.Core.run core (n + 1) s = Host.Core.run core n u := by
  have hh : core.step s = .next u := h
  simp only [Host.Core.run, hh]

/-- A step of a running operation goes on from its position (R26). -/
theorem step_resume {s : State} {m : Micro} {ms : List Micro} (hc : s.cfg.wf = true) (hr : s.resetIn ≠ some 0)
    (hp : s.position = m :: ms) : step s = .next (run (m :: ms) s) := by
  have ht : s.task = .resume := by simp [State.task, hr, hp]
  simp only [step, hc, if_true, ht, State.resume, hp]

end Sys2Proof.Machine
end

