-- ==== Sys2Proof/Laws/Poll.lean ====
section
/-!
SUPPORT. A POLLWAIT with any number of busy samples (R164 to R166): the steps that stand in its loop, and the run that goes
on behind it.
-/

namespace Sys2Proof.Machine

/-! ## The position steers nothing -/

theorem after_position (s : State) (x : List Micro) (ev : BusEvent) :
    ({ s with position := x } : State).after ev = { s.after ev with position := x } := rfl

theorem afterAll_withPosition (s : State) (x : List Micro) (evs : List BusEvent) :
    ({ s with position := x } : State).afterAll evs = { s.afterAll evs with position := x } := by
  induction evs generalizing s with
  | nil => rfl
  | cons ev evs ih => exact ih (s.after ev)

theorem emitAll_position (s : State) (x : List Micro) (evs : List BusEvent) :
    emitAll evs { s with position := x } = ((emitAll evs s).1, { (emitAll evs s).2 with position := x }) := by
  induction evs generalizing s with
  | nil => rfl
  | cons ev evs ih =>
    have hs : ({ s with position := x } : State).signal ev = s.signal ev := rfl
    simp only [emitAll, emitOne, hs, after_position]
    cases s.signal ev
    · exact ih _
    · rfl
    · rfl

/-- How an action ends does not depend on the position. -/
theorem micro_run_position (m : Micro) (s : State) (x : List Micro) :
    m.run { s with position := x } =
      match m.run s with
      | .go t => .go { t with position := x }
      | .wait t => .wait { t with position := x }
      | .halt t => .halt t := by
  cases m with
  | emit ev =>
    have hs : ({ s with position := x } : State).signal ev = s.signal ev := rfl
    simp only [Micro.run, emitOne, hs, after_position]
    cases s.signal ev <;> rfl
  | poll =>
    simp only [Micro.run, pollOnce, emitAll_position]
    rcases emitAll (pollRise s.cfg) s with ⟨sig, t⟩
    cases sig
    · have hr : ({ t with position := x } : State).readData = t.readData := rfl
      simp only [hr, emitAll_position]
      rcases emitAll (.r4 t.readData :: pollFall s.cfg) t with ⟨sig2, u⟩
      cases sig2
      · dsimp only; split <;> rfl
      · rfl
      · rfl
    · rfl
    · rfl
  | setPhase p => rfl
  | setDisplayControl v => rfl
  | setEntryMode v => rfl
  | setCursor c r => rfl
  | advance => rfl
  | ret st => rfl

/-- A run does not depend on the position it starts with: it writes the position it leaves. -/
theorem run_position (p : List Micro) (s : State) (x : List Micro) : run p { s with position := x } = run p s := by
  induction p generalizing s with
  | nil => rfl
  | cons m ms ih =>
    simp only [run, micro_run_position]
    cases m.run s with
    | go t => exact ih t
    | wait t => rfl
    | halt t => rfl

theorem run_afterAll_position (p : List Micro) (s : State) (x : List Micro) (evs : List BusEvent) :
    run p (({ s with position := x } : State).afterAll evs) = run p (s.afterAll evs) := by
  rw [afterAll_withPosition, run_position]

/-! ## Runs of steps -/

theorem core_run_add {s u : State} {n : Nat} (h : Host.Core.run core n s = .next u) (m : Nat) :
    Host.Core.run core (n + m) s = Host.Core.run core m u := by
  induction n generalizing s with
  | zero => cases h; rw [Nat.zero_add]
  | succ n ih =>
    simp only [Host.Core.run] at h
    cases hc : core.step s with
    | next v =>
      rw [hc] at h
      rw [Nat.add_right_comm, core_run_succ hc]
      exact ih h
    | fault r => rw [hc] at h; cases h
    | refused r => rw [hc] at h; cases h

/-- ENV_BF_CLEARS holds further on if it holds here. -/
theorem EnvBfClears.of_run {s u : State} {n : Nat} (hs : s.EnvBfClears) (h : Host.Core.run core n s = .next u) :
    u.EnvBfClears := fun m t ht => hs (n + m) t (by rw [core_run_add h]; exact ht)

/-! ## Every primitive acknowledged -/

theorem AcksAll.acks {s : State} (h : s.AcksAll) (n : Nat) : s.Acks n := ⟨h.1, fun j _ => h.2 j⟩

theorem AcksAll.afterAll {s : State} (h : s.AcksAll) (evs : List BusEvent) : (s.afterAll evs).AcksAll :=
  ⟨afterAll_resetIn_none h.1 evs, fun j => by rw [ackedAt_afterAll]; exact h.2 _⟩

theorem busy_eq_false {v : Nibble} : busy v = false ↔ v.toNat < 8 := by
  revert v; decide

theorem busy_eq_true {v : Nibble} : busy v = true ↔ 8 ≤ v.toNat := by
  revert v; decide

theorem BusyUntilReady.single {v : Nibble} (h : v.toNat < 8) : BusyUntilReady [v] := ⟨[], v, rfl, by simp, h⟩

theorem BusyUntilReady.cons {v : Nibble} {vs : List Nibble} (hv : 8 ≤ v.toNat) (h : BusyUntilReady vs) :
    BusyUntilReady (v :: vs) := by
  obtain ⟨bs, w, rfl, h1, h2⟩ := h
  exact ⟨v :: bs, w, rfl, by simpa using ⟨hv, h1⟩, h2⟩

/-- One poll at the head of a run: ready, the run goes on behind it; busy, it stands there (R164). -/
theorem run_poll {s : State} (h : s.AcksAll) (r : List Micro) :
    run (.poll :: r) s =
      if busy (s.answerAt 1).data
      then { s.afterAll (pollEvents s.cfg (s.answerAt 1).data) with position := .poll :: r }
      else run r (s.afterAll (pollEvents s.cfg (s.answerAt 1).data)) := by
  simp only [run, Micro.run]
  rw [pollOnce_ack s (AcksAll.acks h _)]
  cases busy (s.answerAt 1).data <;> rfl

/-- Standing in a loop whose `k`-th sample from here is ready: within `k + 1` steps the run goes on behind it. -/
theorem poll_leaves (r : List Micro) (k : Nat) (s : State) (hc : s.cfg.wf = true) (hp : s.position = .poll :: r)
    (ha : s.AcksAll) (hk : (s.answerAt (k * pollCost s.cfg + 1)).data.toNat < 8) :
    ∃ n vs, Host.Core.run core n s = .next (run r (s.afterAll (vs.flatMap (pollEvents s.cfg)))) ∧ BusyUntilReady vs := by
  induction k generalizing s with
  | zero =>
    rw [Nat.zero_mul, Nat.zero_add] at hk
    refine ⟨1, [_], ?_, BusyUntilReady.single hk⟩
    rw [core_run_succ (step_resume hc (by simp [ha.1]) hp), run_poll ha, busy_eq_false.mpr hk]
    simp [Host.Core.run]
  | succ k ih =>
    have hs := step_resume hc (by simp [ha.1]) hp
    rw [run_poll ha] at hs
    by_cases hb : busy (s.answerAt 1).data = true
    · rw [if_pos hb] at hs
      obtain ⟨n, vs, h1, h2⟩ := ih { s.afterAll (pollEvents s.cfg (s.answerAt 1).data) with position := .poll :: r }
        (by simpa using hc) rfl (AcksAll.afterAll ha _) (by
          show ((s.afterAll _).answerAt _).data.toNat < 8
          rw [answerAt_afterAll]
          simpa [Nat.succ_mul, Nat.add_right_comm] using hk)
      refine ⟨n + 1, (s.answerAt 1).data :: vs, ?_, BusyUntilReady.cons (busy_eq_true.mp hb) h2⟩
      rw [core_run_succ hs]
      refine h1.trans (congrArg _ ((run_afterAll_position r _ _ _).trans ?_))
      rw [List.flatMap_cons, afterAll_append]
      exact congrArg (fun c => run r (State.afterAll _ (vs.flatMap (pollEvents c)))) (afterAll_cfg s _)
    · rw [if_neg hb] at hs
      refine ⟨1, [(s.answerAt 1).data], ?_, BusyUntilReady.single (busy_eq_false.mp (by simpa using hb))⟩
      rw [core_run_succ hs]; simp [Host.Core.run]

/-- A run with a poll at its head goes on behind it after any number of busy samples, under ENV_BF_CLEARS. -/
theorem poll_ends (r : List Micro) (s : State) (hc : s.cfg.wf = true) (ha : s.AcksAll)
    (he : (run (.poll :: r) s).EnvBfClears) :
    ∃ n vs, Host.Core.run core n (run (.poll :: r) s) = .next (run r (s.afterAll (vs.flatMap (pollEvents s.cfg))))
      ∧ BusyUntilReady vs := by
  rw [run_poll ha] at he ⊢
  by_cases hb : busy (s.answerAt 1).data = true
  · rw [if_pos hb] at he ⊢
    obtain ⟨k, hk⟩ := he 0 _ rfl rfl
    obtain ⟨n, vs, h1, h2⟩ := poll_leaves r k
      { s.afterAll (pollEvents s.cfg (s.answerAt 1).data) with position := .poll :: r }
      (by simpa using hc) rfl (AcksAll.afterAll ha _) hk
    refine ⟨n, (s.answerAt 1).data :: vs, ?_, BusyUntilReady.cons (busy_eq_true.mp hb) h2⟩
    refine h1.trans (congrArg _ ((run_afterAll_position r _ _ _).trans ?_))
    rw [List.flatMap_cons, afterAll_append]
    exact congrArg (fun c => run r (State.afterAll _ (vs.flatMap (pollEvents c)))) (afterAll_cfg s _)
  · rw [if_neg hb]
    refine ⟨0, [(s.answerAt 1).data], by simp [Host.Core.run], BusyUntilReady.single (busy_eq_false.mp (by simpa using hb))⟩

/-! ## Micro-sequences that only emit and poll -/

/-- Whatever follows it, the micro-sequence is over after some steps, having emitted `events` of the samples of its
`waits` POLLWAITs. -/
def Polls (c : Config) (p : List Micro) (waits : Nat) (events : List (List Nibble) → List BusEvent) : Prop :=
  ∀ (s : State) (q : List Micro), s.cfg = c → s.AcksAll → (run (p ++ q) s).EnvBfClears →
    ∃ n vss, Host.Core.run core n (run (p ++ q) s) = .next (run q (s.afterAll (events vss)))
      ∧ vss.length = waits ∧ ∀ vs ∈ vss, BusyUntilReady vs

theorem polls_emitting (c : Config) (evs : List BusEvent) : Polls c (emitting evs) 0 fun _ => evs := by
  intro s q _ ha _
  exact ⟨0, [], by rw [run_of_completes (completes_emitting evs s (AcksAll.acks ha _))]; rfl, rfl, by simp⟩

theorem polls_poll {c : Config} (hc : c.wf = true) :
    Polls c [.poll] 1 fun vss => vss.flatten.flatMap (pollEvents c) := by
  intro s q hs ha he
  obtain ⟨n, vs, h1, h2⟩ := poll_ends q s (by rw [hs]; exact hc) ha he
  exact ⟨n, [vs], by rw [hs] at h1; simpa using h1, rfl, by simpa using h2⟩

theorem Polls.append {c : Config} {p q : List Micro} {j k : Nat} {e f : List (List Nibble) → List BusEvent}
    (hp : Polls c p j e) (hq : Polls c q k f) :
    Polls c (p ++ q) (j + k) fun vss => e (vss.take j) ++ f (vss.drop j) := by
  intro s r hs ha he
  rw [List.append_assoc] at he ⊢
  obtain ⟨n, vss, h1, h2, h3⟩ := hp s (q ++ r) hs ha he
  obtain ⟨m, wss, g1, g2, g3⟩ := hq _ r (by rw [afterAll_cfg]; exact hs) (AcksAll.afterAll ha _) (EnvBfClears.of_run he h1)
  refine ⟨n + m, vss ++ wss, ?_, by simp [h2, g2], ?_⟩
  · have h : s.afterAll (e ((vss ++ wss).take j) ++ f ((vss ++ wss).drop j)) = (s.afterAll (e vss)).afterAll (f wss) := by
      rw [List.take_left' h2, List.drop_left' h2, afterAll_append]
    rw [core_run_add h1, g1]
    exact congrArg (fun t => Host.Outcome.next (run r t)) h.symm
  · intro vs hv
    rcases List.mem_append.mp hv with hv | hv
    · exact h3 vs hv
    · exact g3 vs hv

/-- Register-select and byte, then a POLLWAIT (R113, R114, R160). -/
theorem polls_transfer {c : Config} (hc : c.wf = true) (r : Bool) (b : Byte) :
    Polls c (emitting (.rs r :: xfer c b) ++ pollWait) 1 fun vss =>
      .rs r :: xfer c b ++ (pollEntry ++ vss.flatten.flatMap (pollEvents c) ++ pollExit) := by
  intro s q hs ha he
  have h := (polls_emitting c (.rs r :: xfer c b)).append
    (((polls_emitting c pollEntry).append (polls_poll hc)).append (polls_emitting c pollExit))
  obtain ⟨n, vss, h1, h2, h3⟩ := h s q hs ha he
  refine ⟨n, vss, ?_, h2, h3⟩
  obtain ⟨vs, rfl⟩ := List.length_eq_one_iff.mp h2
  exact h1

/-! ## Whatever BUS answers -/

/-- An action that is cut short ends the operation. -/
theorem halt_position {m : Micro} {s t : State} (h : m.run s = .halt t) : t.position = [] ∧ t.cfg = s.cfg := by
  obtain ⟨evs, -, rfl | rfl⟩ := halt_cases h
  · exact ⟨rfl, afterAll_cfg _ _⟩
  · exact ⟨rfl, afterAll_cfg _ _⟩

theorem go_cfg {m : Micro} {s t : State} (h : m.run s = .go t) : t.cfg = s.cfg := by
  rcases go_cases h with ⟨_, _, rfl⟩ | ⟨_, _, rfl⟩ | ⟨_, _, rfl⟩ | ⟨_, _, rfl⟩ | ⟨_, _, rfl⟩ | ⟨_, _, _, rfl⟩ |
    ⟨_, rfl⟩ | ⟨_, _, rfl⟩ <;> simp

/-- A run ends the operation or stands in a poll loop with less to do behind it. -/
theorem run_shape (p : List Micro) (s : State) :
    (run p s).cfg = s.cfg ∧
      ((run p s).position = [] ∨ ∃ ms, (run p s).position = .poll :: ms ∧ ms.length < p.length) := by
  induction p generalizing s with
  | nil => exact ⟨rfl, .inl rfl⟩
  | cons m ms ih =>
    simp only [run]
    cases hm : m.run s with
    | go t =>
      obtain ⟨h1, h2⟩ := ih t
      refine ⟨h1.trans (go_cfg hm), ?_⟩
      rcases h2 with h2 | ⟨r, h2, h3⟩
      · exact .inl h2
      · exact .inr ⟨r, h2, by simp; omega⟩
    | wait t =>
      obtain ⟨rfl, v, rfl⟩ := wait_cases hm
      exact ⟨afterAll_cfg _ _, .inr ⟨ms, rfl, by simp⟩⟩
    | halt t => exact ⟨(halt_position hm).2, .inl (halt_position hm).1⟩

/-- A poll stands only where its sample, the answer to its second primitive, is busy. -/
theorem pollOnce_wait {s t : State} (h : pollOnce s = .wait t) :
    t = s.afterAll (pollEvents s.cfg (s.answerAt 1).data)
      ∧ busy (s.answerAt 1).data = true := by
  unfold pollOnce at h
  obtain ⟨n, h1, h2⟩ := emitAll_snd (pollRise s.cfg) s
  rcases he : emitAll (pollRise s.cfg) s with ⟨sig, u⟩
  rw [he] at h h1 h2
  cases sig with
  | nack => cases h
  | reset => cases h
  | ack =>
    have hn := h2 rfl
    subst hn
    rw [List.take_length] at h1
    simp only at h1 h
    have hv : u.readData = (s.answerAt 1).data := by
      rw [h1]; simp [State.readData, answerAt_afterAll]
    obtain ⟨k, k1, k2⟩ := emitAll_snd (.r4 u.readData :: pollFall s.cfg) u
    rcases he2 : emitAll (.r4 u.readData :: pollFall s.cfg) u with ⟨sig2, w⟩
    rw [he2] at h k1 k2
    cases sig2 with
    | nack => cases h
    | reset => cases h
    | ack =>
      have hk := k2 rfl
      subst hk
      rw [List.take_length] at k1
      simp only at k1 h
      split at h
      · next hb =>
        cases h
        refine ⟨?_, by rw [← hv]; exact hb⟩
        rw [k1, h1, ← afterAll_append, ← h1, hv]; rfl
      · cases h

/-! ## The event lists as the spec prints them -/

theorem wf_times {c : Config} (hc : c.wf = true) :
    c.tELow ≠ 0 ∧ c.tEHigh ≠ 0 ∧ c.tHold ≠ 0 ∧ c.tCmd ≠ 0 ∧ c.tHome ≠ 0 ∧ c.tClear ≠ 0 := by
  simp only [Config.wf, Config.timingWf, Bool.and_eq_true, decide_eq_true_eq] at hc
  omega

theorem transferEvents_eq_xfer {c : Config} (hc : c.wf = true) (r : Bool) (b : Byte) :
    transferEvents c r b = .rs r :: xfer c b := by
  obtain ⟨h1, h2, h3, -⟩ := wf_times hc
  have hi : BitVec.ofNat 4 (b.toNat / 16) = b.extractLsb' 4 4 := by revert b; decide +kernel
  have lo : BitVec.ofNat 4 (b.toNat % 16) = b.extractLsb' 0 4 := by revert b; decide +kernel
  unfold transferEvents xfer
  cases c.busWidth <;> simp [nibble, byte8, pulse, pulseEvents, delayFor, h1, h2, h3, hi, lo]

theorem pollIteration_eq_pollEvents {c : Config} (hc : c.wf = true) (v : Nibble) :
    pollIteration c v = pollEvents c v := by
  obtain ⟨h1, h2, -⟩ := wf_times hc
  unfold pollIteration pollEvents pollRise pollFall
  cases c.busWidth <;> simp [delayFor, h1, h2]

theorem polledTransfer_eq {c : Config} (hc : c.wf = true) (r : Bool) (b : Byte) (vs : List Nibble) :
    polledTransfer c r b vs = .rs r :: xfer c b ++ (pollEntry ++ vs.flatMap (pollEvents c) ++ pollExit) := by
  have h : pollIteration c = pollEvents c := funext fun v => pollIteration_eq_pollEvents hc v
  simp [polledTransfer, transferEvents_eq_xfer hc, h, pollEntry, pollExit]

/-- Transfers in order, each with its POLLWAIT. -/
theorem polls_transfers {c : Config} (hc : c.wf = true) (hs : c.strategy = .busyFlagPolling) (xs : List (Bool × Byte)) :
    Polls c (xs.flatMap fun x => farProgram c x.1 x.2) xs.length (polledTransfers c xs) := by
  induction xs with
  | nil => exact polls_emitting c []
  | cons x xs ih =>
    intro s q h1 h2 h3
    have hp : ((x :: xs).flatMap fun x => farProgram c x.1 x.2)
        = (emitting (.rs x.1 :: xfer c x.2) ++ pollWait) ++ xs.flatMap fun x => farProgram c x.1 x.2 := by
      rw [List.flatMap_cons]
      congr 1
      cases x.1 <;> simp [farProgram, cmd, data, waitFor, hs]
    rw [hp] at h3 ⊢
    obtain ⟨n, vss, g1, g2, g3⟩ := ((polls_transfer hc x.1 x.2).append ih) s q h1 h2 h3
    refine ⟨n, vss, ?_, by simp [g2, Nat.add_comm], g3⟩
    obtain ⟨v, vss, rfl⟩ : ∃ v w, vss = v :: w := by
      cases vss with
      | nil => simp at g2; omega
      | cons v w => exact ⟨v, w, rfl⟩
    have h : polledTransfers c (x :: xs) (v :: vss)
        = .rs x.1 :: xfer c x.2 ++ (pollEntry ++ v.flatMap (pollEvents c) ++ pollExit) ++ polledTransfers c xs vss := by
      rw [← polledTransfer_eq hc]; rfl
    rw [g1, h]
    simp

theorem drive_polls (c : Config) (vs : List Nibble) (l : Lines) :
    ∃ e, (vs.flatMap (pollEvents c)).foldl Lines.drive l = { l with e := e } ∧ (l.e = false → e = false) := by
  induction vs generalizing l with
  | nil => exact ⟨l.e, rfl, id⟩
  | cons v vs ih =>
    rw [List.flatMap_cons, List.foldl_append, drive_pollEvents]
    obtain ⟨e, h1, h2⟩ := ih { l with e := false }
    exact ⟨e, h1, fun _ => h2 rfl⟩

/-- A transfer with its POLLWAIT leaves the lines at rest, from any lines (R164). -/
theorem polledTransfer_atRest {c : Config} (hc : c.wf = true) (r : Bool) (b : Byte) (vs : List Nibble) (l : Lines) :
    ((polledTransfer c r b vs).foldl Lines.drive l).atRest = true := by
  rw [polledTransfer_eq hc, List.foldl_append, List.foldl_append, List.foldl_append]
  obtain ⟨d, hd⟩ := drive_transfer c r b l
  rw [hd]
  obtain ⟨e, h1, h2⟩ := drive_polls c vs (pollEntry.foldl Lines.drive { l with e := false, rs := r, data := d })
  rw [h1, h2 rfl]; rfl

theorem polledTransfers_atRest {c : Config} (hc : c.wf = true) (xs : List (Bool × Byte)) (vss : List (List Nibble))
    (hx : xs ≠ []) (hl : vss.length = xs.length) (l : Lines) :
    ((polledTransfers c xs vss).foldl Lines.drive l).atRest = true := by
  induction xs generalizing vss l with
  | nil => exact absurd rfl hx
  | cons x xs ih =>
    cases vss with
    | nil => simp at hl
    | cons v vss =>
      have h : polledTransfers c (x :: xs) (v :: vss)
          = polledTransfer c x.1 x.2 v ++ polledTransfers c xs vss := rfl
      rw [h, List.foldl_append]
      cases xs with
      | nil => simpa [polledTransfers] using polledTransfer_atRest hc _ _ _ _
      | cons y ys => exact ih vss (by simp) (by simpa using hl) _

end Sys2Proof.Machine
end

