-- ==== Sys2Proof/Laws/Cut.lean ====
section
/-!
SUPPORT. Every way an operation ends, whatever BUS answers and whenever the reset input comes: it completes, a primitive is
not acknowledged, or the reset input cuts it; and the events up to there are the operation's own.
-/

namespace Sys2Proof.Machine

/-! ## The events of a micro-sequence -/

/-- No `return`. -/
def Micro.goesOn : Micro → Bool
  | .emit _ => true
  | .poll => true
  | .setPhase _ => true
  | .setDisplayControl _ => true
  | .setEntryMode _ => true
  | .setCursor _ _ => true
  | .advance => true
  | .ret _ => false

theorem micro_emits_exists (c : Config) (m : Micro) : ∃ evs, m.Emits c evs := by
  cases m with
  | emit ev => exact ⟨[ev], rfl⟩
  | poll => exact ⟨_, [0], BusyUntilReady.single (by decide), rfl⟩
  | _ => exact ⟨[], rfl⟩

theorem emits_exists (c : Config) (p : List Micro) : ∃ evs, Emits c p evs := by
  induction p with
  | nil => exact ⟨[], rfl⟩
  | cons m p ih =>
    obtain ⟨a, ha⟩ := micro_emits_exists c m
    obtain ⟨b, hb⟩ := ih
    exact ⟨a ++ b, a, b, rfl, ha, hb⟩

theorem Emits.append {c : Config} {p q : List Micro} {a b : List BusEvent} (hp : Emits c p a) (hq : Emits c q b) :
    Emits c (p ++ q) (a ++ b) := by
  induction p generalizing a with
  | nil => cases hp; exact hq
  | cons m p ih =>
    obtain ⟨x, y, rfl, hx, hy⟩ := hp
    exact ⟨x, y ++ b, List.append_assoc x y b, hx, ih hy⟩

/-- A busy iteration in front of a POLLWAIT is part of that POLLWAIT. -/
theorem Emits.busy {c : Config} {v : Nibble} (hv : 8 ≤ v.toNat) {ms : List Micro} {evs : List BusEvent}
    (h : Emits c (.poll :: ms) evs) : Emits c (.poll :: ms) (pollIteration c v ++ evs) := by
  obtain ⟨a, b, rfl, ⟨vs, hvs, rfl⟩, hb⟩ := h
  exact ⟨pollIteration c v ++ vs.flatMap (pollIteration c), b, (List.append_assoc _ _ _).symm,
    ⟨v :: vs, BusyUntilReady.cons hv hvs, rfl⟩, hb⟩

/-- Without a poll there is one event list. -/
theorem emits_plain {c : Config} {p : List Micro} (hp : plain p = true) {evs : List BusEvent} :
    Emits c p evs ↔ evs = emitted p := by
  induction p generalizing evs with
  | nil => exact Iff.rfl
  | cons m p ih =>
    simp only [plain, List.all_cons, Bool.and_eq_true] at hp
    have hm : ∀ a, m.Emits c a ↔ a = m.event.toList := by
      cases m with
      | poll => exact absurd hp.1 (by decide)
      | _ => exact fun a => Iff.rfl
    have he : emitted (m :: p) = m.event.toList ++ emitted p := by
      unfold emitted; rw [List.filterMap_cons]; cases m.event <;> rfl
    rw [he]
    constructor
    · rintro ⟨a, b, rfl, ha, hb⟩
      rw [(hm a).mp ha, (ih hp.2).mp hb]
    · rintro rfl
      exact ⟨_, _, rfl, (hm _).mpr rfl, (ih hp.2).mpr rfl⟩

/-! ## The micro-sequences of the operations -/

theorem goesOn_append (p q : List Micro) :
    (p ++ q).all Micro.goesOn = (p.all Micro.goesOn && q.all Micro.goesOn) := List.all_append

theorem goesOn_emitting (evs : List BusEvent) : (emitting evs).all Micro.goesOn = true := by
  simp [emitting, Micro.goesOn]

theorem goesOn_waitFor (c : Config) (k : WaitClass) : (waitFor c k).all Micro.goesOn = true := by
  unfold waitFor
  split
  · exact goesOn_emitting _
  · rfl

theorem goesOn_cmd (c : Config) (b : Byte) : (cmd c b).all Micro.goesOn = true := by
  rw [cmd, goesOn_append, goesOn_emitting, goesOn_waitFor]; rfl

theorem goesOn_data (c : Config) (b : Byte) : (data c b).all Micro.goesOn = true := by
  rw [data, goesOn_append, goesOn_emitting, goesOn_waitFor]; rfl

theorem goesOn_datas (c : Config) (bs : List Byte) : (bs.flatMap (data c)).all Micro.goesOn = true := by
  induction bs with
  | nil => rfl
  | cons b bs ih => rw [List.flatMap_cons, goesOn_append, goesOn_data, ih]; rfl

/-- Every host operation is a micro-sequence without a return, and then `return OK`. -/
theorem hostProgram_goesOn {s : State} {i : Instr} {p : List Micro} (h : hostProgram s i = some p) :
    ∃ q, p = q ++ [.ret .ok] ∧ q.all Micro.goesOn = true := by
  have out : ∀ q : List Micro, q.all Micro.goesOn = true →
      ∃ q', q ++ [.ret .ok] = q' ++ [Micro.ret .ok] ∧ q'.all Micro.goesOn = true := fun q hq => ⟨q, rfl, hq⟩
  rcases hostProgram_cases h with ⟨_, rfl⟩ | ⟨_, _, _, a, _, _, rfl⟩ | ⟨_, a, _, _, _, rfl⟩ | ⟨_, rfl⟩ | ⟨_, rfl⟩ |
    ⟨_, _, _, _, rfl⟩ | ⟨_, _, rfl⟩ | ⟨_, _, rfl⟩
  · refine ⟨_, (List.append_assoc _ [Micro.setPhase .entryModeSet, Micro.setPhase .ready] [Micro.ret .ok]).symm, ?_⟩
    simp only [goesOn_append, goesOn_emitting, goesOn_cmd]; rfl
  · exact out _ (by simp only [charProgram, goesOn_append, goesOn_cmd, goesOn_data]; rfl)
  · refine ⟨_, (List.append_assoc _ [Micro.advance] [Micro.ret .ok]).symm, ?_⟩
    simp only [charProgram, goesOn_append, goesOn_cmd, goesOn_data]; rfl
  · refine ⟨_, (List.append_assoc _ [Micro.setCursor 0 0] [Micro.ret .ok]).symm, ?_⟩
    simp only [goesOn_append, goesOn_cmd]; rfl
  · refine ⟨_, (List.append_assoc _ [Micro.setCursor 0 0] [Micro.ret .ok]).symm, ?_⟩
    simp only [goesOn_append, goesOn_cmd]; rfl
  · exact out _ (by simp only [goesOn_append, goesOn_cmd, goesOn_datas]; rfl)
  · exact out _ (by simp only [goesOn_append, goesOn_cmd]; rfl)
  · exact out _ (by simp only [goesOn_append, goesOn_cmd]; rfl)

/-! ## What an unfinished operation leaves as it was -/

/-- From `s` to `t` the events `evs` were emitted, and nothing was returned. -/
structure Ran (s : State) (evs : List BusEvent) (t : State) : Prop where
  trace   : t.trace = s.trace ++ evs
  lines   : t.lines = evs.foldl Lines.drive s.lines
  output  : t.output = s.output
  results : t.results = s.results
  resetIn : t.resetIn = s.resetIn.map (· - evs.length)
  acked   : ∀ j, t.ackedAt j = s.ackedAt (j + primitives evs)
  outside : SameOutside s t

theorem Ran.refl (s : State) : Ran s [] s :=
  ⟨(List.append_nil _).symm, rfl, rfl, rfl, by cases s.resetIn <;> rfl, fun _ => rfl, rfl, rfl, rfl, rfl⟩

theorem Ran.trans {s t u : State} {a b : List BusEvent} (h : Ran s a t) (g : Ran t b u) : Ran s (a ++ b) u where
  trace := by rw [g.trace, h.trace, List.append_assoc]
  lines := by rw [g.lines, h.lines, List.foldl_append]
  output := g.output.trans h.output
  results := g.results.trans h.results
  resetIn := by rw [g.resetIn, h.resetIn, Option.map_map, List.length_append]; congr 1; funext n; exact Nat.sub_sub _ _ _
  acked j := by rw [g.acked, h.acked, primitives_append, Nat.add_right_comm, Nat.add_assoc]
  outside :=
    ⟨g.outside.1.trans h.outside.1, g.outside.2.1.trans h.outside.2.1, g.outside.2.2.1.trans h.outside.2.2.1,
      g.outside.2.2.2.trans h.outside.2.2.2⟩

theorem Ran.cfg {s t : State} {evs : List BusEvent} (h : Ran s evs t) : t.cfg = s.cfg := h.outside.1

theorem Ran.position {s t : State} {evs : List BusEvent} (h : Ran s evs t) (x : List Micro) :
    Ran s evs { t with position := x } :=
  ⟨h.trace, h.lines, h.output, h.results, h.resetIn, h.acked, h.outside⟩

theorem ran_after (s : State) (ev : BusEvent) : Ran s [ev] (s.after ev) :=
  ⟨rfl, rfl, rfl, rfl, rfl, ackedAt_after s ev, rfl, rfl, rfl, rfl⟩

theorem ran_afterAll (s : State) (evs : List BusEvent) : Ran s evs (s.afterAll evs) := by
  induction evs generalizing s with
  | nil => exact Ran.refl s
  | cons ev evs ih => exact (ran_after s ev).trans (ih (s.after ev))

/-- After the events the reset input is still to come, if at all. -/
def BeforeReset (s : State) (evs : List BusEvent) : Prop := ∀ n, s.resetIn = some n → evs.length < n

/-- Nothing cut the events short: every primitive was acknowledged and no reset input came. -/
def Clear (s : State) (evs : List BusEvent) : Prop :=
  (∀ k, k < primitives evs → s.ackedAt k = true) ∧ BeforeReset s evs

/-- The primitive `ev` after the acknowledged `evs` is not acknowledged, before any reset input. -/
def Nacked (s : State) (evs : List BusEvent) (ev : BusEvent) : Prop :=
  ev.isPrimitive = true ∧ (∀ k, k < primitives evs → s.ackedAt k = true) ∧ s.ackedAt (primitives evs) = false ∧
    BeforeReset s (evs ++ [ev])

theorem acked_append {s t : State} {a b : List BusEvent} (h : Ran s a t)
    (ha : ∀ k, k < primitives a → s.ackedAt k = true) (hb : ∀ k, k < primitives b → t.ackedAt k = true) :
    ∀ k, k < primitives (a ++ b) → s.ackedAt k = true := by
  intro k hk
  rw [primitives_append] at hk
  by_cases h1 : k < primitives a
  · exact ha k h1
  · have := hb (k - primitives a) (by omega)
    rwa [h.acked, Nat.sub_add_cancel (by omega)] at this

theorem BeforeReset.append {s t : State} {a b : List BusEvent} (hr : Ran s a t) (ha : BeforeReset s a)
    (hb : BeforeReset t b) : BeforeReset s (a ++ b) := by
  intro n hn
  have h1 := ha n hn
  have h2 := hb (n - a.length) (by rw [hr.resetIn, hn]; rfl)
  rw [List.length_append]; omega

theorem Clear.nil {s : State} (h : s.resetIn ≠ some 0) : Clear s [] :=
  ⟨fun _ h => absurd h (Nat.not_lt_zero _), fun n hn => Nat.pos_of_ne_zero (by rintro rfl; exact h hn)⟩

theorem Clear.append {s t : State} {a b : List BusEvent} (hr : Ran s a t) (ha : Clear s a) (hb : Clear t b) :
    Clear s (a ++ b) := ⟨acked_append hr ha.1 hb.1, BeforeReset.append hr ha.2 hb.2⟩

theorem Clear.resetIn {s t : State} {evs : List BusEvent} (hr : Ran s evs t) (h : Clear s evs) : t.resetIn ≠ some 0 := by
  rw [hr.resetIn]
  cases hs : s.resetIn with
  | none => simp
  | some n => have := h.2 n hs; simp; omega

theorem Nacked.append {s t : State} {a b : List BusEvent} {ev : BusEvent} (hr : Ran s a t) (ha : Clear s a)
    (hb : Nacked t b ev) : Nacked s (a ++ b) ev := by
  refine ⟨hb.1, acked_append hr ha.1 hb.2.1, ?_, ?_⟩
  · rw [primitives_append, Nat.add_comm, ← hr.acked]; exact hb.2.2.1
  · rw [List.append_assoc]; exact BeforeReset.append hr ha.2 hb.2.2.2

theorem resetAt_append {s t : State} {a b : List BusEvent} (hr : Ran s a t) (ha : Clear s a)
    (h : t.resetIn = some b.length) : s.resetIn = some (a ++ b).length := by
  rw [hr.resetIn] at h
  obtain ⟨n, hn, hb⟩ := Option.map_eq_some_iff.mp h
  have := ha.2 n hn
  rw [hn, List.length_append]; congr 1; omega

/-! ## How events, an action and a micro-sequence end -/

/-- The signal of one event. -/
theorem signal_cases (s : State) (ev : BusEvent) (h : s.resetIn ≠ some 0) :
    (s.signal ev = .ack ∧ Clear s [ev]) ∨ (s.signal ev = .nack ∧ Nacked s [] ev) ∨
      (s.signal ev = .reset ∧ s.resetIn = some [ev].length) := by
  have hr : (s.after ev).resetIn = s.resetIn.map (· - 1) := rfl
  by_cases h1 : s.resetIn = some 1
  · exact .inr (.inr ⟨by simp [State.signal, h1], h1⟩)
  have h0 : (s.after ev).resetIn ≠ some 0 := by
    rw [hr]
    cases hs : s.resetIn with
    | none => simp
    | some n => rw [hs] at h h1; simp at h h1 ⊢; omega
  have hlt : ∀ n, s.resetIn = some n → [ev].length < n := fun n hn => by
    rw [hn] at h h1; simp at h h1 ⊢; omega
  cases hp : ev.isPrimitive with
  | false => exact .inl ⟨by rw [State.signal, if_neg h0]; simp [hp], by simp [primitives_cons, hp], hlt⟩
  | true =>
    cases ha : s.ackedAt 0 with
    | false =>
      exact .inr (.inl ⟨by rw [State.signal, if_neg h0]; simp [hp, ha], hp, fun _ h => absurd h (Nat.not_lt_zero _), ha, hlt⟩)
    | true =>
      refine .inl ⟨by rw [State.signal, if_neg h0]; simp [ha], fun k hk => ?_, hlt⟩
      have : k = 0 := by simpa [primitives_cons, hp] using hk
      rw [this]; exact ha

/-- Events in a row: all, up to one that is not acknowledged, or up to the reset input. -/
theorem emitAll_cases (evs : List BusEvent) (s : State) (h : s.resetIn ≠ some 0) :
    (emitAll evs s = (.ack, s.afterAll evs) ∧ Clear s evs) ∨
    (∃ a ev b, evs = a ++ [ev] ++ b ∧ emitAll evs s = (.nack, s.afterAll (a ++ [ev])) ∧ Nacked s a ev) ∨
    (∃ a b, evs = a ++ b ∧ emitAll evs s = (.reset, s.afterAll a) ∧ s.resetIn = some a.length) := by
  induction evs generalizing s with
  | nil => exact .inl ⟨rfl, Clear.nil h⟩
  | cons ev evs ih =>
    have hone := ran_after s ev
    simp only [emitAll, emitOne]
    rcases signal_cases s ev h with ⟨hs, hc⟩ | ⟨hs, hn⟩ | ⟨hs, hr⟩ <;> rw [hs]
    · rcases ih (s.after ev) (hc.resetIn hone) with ⟨h1, h2⟩ | ⟨a, e, b, rfl, h1, h2⟩ | ⟨a, b, rfl, h1, h2⟩
      · exact .inl ⟨h1, Clear.append hone hc h2⟩
      · exact .inr (.inl ⟨ev :: a, e, b, rfl, h1, Nacked.append hone hc h2⟩)
      · exact .inr (.inr ⟨ev :: a, b, rfl, h1, resetAt_append hone hc h2⟩)
    · exact .inr (.inl ⟨[], ev, evs, rfl, rfl, hn⟩)
    · exact .inr (.inr ⟨[ev], evs, rfl, rfl, hr⟩)

/-- One poll iteration: all of it, or a prefix. Its sample is the answer to its second primitive. -/
theorem pollOnce_cases (s : State) (hc : s.cfg.wf = true) (h : s.resetIn ≠ some 0) :
    (∃ t, Ran s (pollIteration s.cfg (s.answerAt 1).data) t ∧ Clear s (pollIteration s.cfg (s.answerAt 1).data) ∧
      pollOnce s = if busy (s.answerAt 1).data then .wait t else .go t) ∨
    (∃ a ev b t, pollIteration s.cfg (s.answerAt 1).data = a ++ [ev] ++ b ∧
      pollOnce s = .halt (transportFailure t) ∧ Ran s (a ++ [ev]) t ∧ Nacked s a ev) ∨
    (∃ a b t, pollIteration s.cfg (s.answerAt 1).data = a ++ b ∧
      pollOnce s = .halt (assertReset true t) ∧ Ran s a t ∧ s.resetIn = some a.length) := by
  rw [pollIteration_eq_pollEvents hc, pollEvents]
  have hr := ran_afterAll s (pollRise s.cfg)
  have hv : (s.afterAll (pollRise s.cfg)).readData = (s.answerAt 1).data := by
    simp [State.readData, answerAt_afterAll]
  rcases emitAll_cases (pollRise s.cfg) s h with ⟨h1, c1⟩ | ⟨a, ev, b, h0, h1, n1⟩ | ⟨a, b, h0, h1, r1⟩
  · rcases emitAll_cases (.r4 (s.answerAt 1).data :: pollFall s.cfg) (s.afterAll (pollRise s.cfg)) (c1.resetIn hr) with
      ⟨h2, c2⟩ | ⟨a, ev, b, h0, h2, n2⟩ | ⟨a, b, h0, h2, r2⟩
    all_goals simp only [pollOnce, h1, hv, h2]
    · exact .inl ⟨_, hr.trans (ran_afterAll _ _), Clear.append hr c1 c2, rfl⟩
    · exact .inr (.inl ⟨pollRise s.cfg ++ a, ev, b, _, by rw [h0]; simp, rfl,
        by rw [List.append_assoc]; exact hr.trans (ran_afterAll _ _), Nacked.append hr c1 n2⟩)
    · exact .inr (.inr ⟨pollRise s.cfg ++ a, b, _, by rw [h0]; simp, rfl, hr.trans (ran_afterAll _ _),
        resetAt_append hr c1 r2⟩)
  all_goals simp only [pollOnce, h1]
  · exact .inr (.inl ⟨a, ev, b ++ .r4 (s.answerAt 1).data :: pollFall s.cfg, _, by rw [h0]; simp, rfl,
      ran_afterAll _ _, n1⟩)
  · exact .inr (.inr ⟨a, b ++ .r4 (s.answerAt 1).data :: pollFall s.cfg, _, by rw [h0]; simp, rfl,
      ran_afterAll _ _, r1⟩)

/-- The run of `p` was cut short in `t`: by a primitive that is not acknowledged, its last event (R255), or by the reset
input (R281). -/
def CutShort (s : State) (p : List Micro) (t : State) : Prop :=
  (∃ evs ev rest u, t = transportFailure u ∧ Ran s (evs ++ [ev]) u ∧ Nacked s evs ev ∧
    Emits s.cfg p (evs ++ [ev] ++ rest)) ∨
  (∃ evs rest u, t = assertReset true u ∧ Ran s evs u ∧ s.resetIn = some evs.length ∧ Emits s.cfg p (evs ++ rest))

theorem CutShort.position {s t : State} {p : List Micro} (h : CutShort s p t) : t.position = [] := by
  rcases h with ⟨_, _, _, _, rfl, -⟩ | ⟨_, _, _, rfl, -⟩ <;> rfl

/-- Behind the events `a` of `p`, what cuts the rest `q` short cuts `p` short. -/
theorem CutShort.append {s t u : State} {a : List BusEvent} {p q : List Micro} (hr : Ran s a t) (ha : Clear s a)
    (hp : ∀ b, Emits s.cfg q b → Emits s.cfg p (a ++ b)) (h : CutShort t q u) : CutShort s p u := by
  rcases h with ⟨evs, ev, rest, w, rfl, h1, h2, h3⟩ | ⟨evs, rest, w, rfl, h1, h2, h3⟩ <;> rw [hr.cfg] at h3
  · exact .inl ⟨a ++ evs, ev, rest, w, rfl, by rw [List.append_assoc]; exact hr.trans h1, Nacked.append hr ha h2,
      by simpa using hp _ h3⟩
  · exact .inr ⟨a ++ evs, rest, w, rfl, hr.trans h1, resetAt_append hr ha h2, by simpa using hp _ h3⟩

/-- One action, other than a return. -/
theorem micro_ends (m : Micro) (hm : m.goesOn = true) (s : State) (hc : m = .poll → s.cfg.wf = true) (h : s.resetIn ≠ some 0) :
    (∃ evs t, m.run s = .go t ∧ Ran s evs t ∧ Clear s evs ∧ m.Emits s.cfg evs) ∨
    (∃ v t, m = .poll ∧ m.run s = .wait t ∧ Ran s (pollIteration s.cfg v) t ∧ Clear s (pollIteration s.cfg v) ∧
      8 ≤ v.toNat) ∨
    (∃ t, m.run s = .halt t ∧ CutShort s [m] t) := by
  have one : ∀ evs, m.Emits s.cfg evs → Emits s.cfg [m] evs := fun evs he => ⟨evs, [], by simp, he, rfl⟩
  have quiet : ∀ t, m.run s = .go t → Ran s [] t → m.Emits s.cfg [] →
      ∃ evs t, m.run s = .go t ∧ Ran s evs t ∧ Clear s evs ∧ m.Emits s.cfg evs :=
    fun t h1 h2 h3 => ⟨[], t, h1, h2, Clear.nil h, h3⟩
  have same : ∀ t : State, t.trace = s.trace → t.lines = s.lines → t.output = s.output → t.results = s.results →
      t.resetIn = s.resetIn → (∀ j, t.ackedAt j = s.ackedAt j) → SameOutside s t → Ran s [] t :=
    fun t h1 h2 h3 h4 h5 h6 h7 => ⟨by simpa using h1, h2, h3, h4, by rw [h5]; cases s.resetIn <;> rfl, h6, h7⟩
  cases m with
  | emit ev =>
    have hone := ran_after s ev
    simp only [Micro.run, emitOne]
    rcases signal_cases s ev h with ⟨hs, hk⟩ | ⟨hs, hn⟩ | ⟨hs, hr⟩ <;> rw [hs]
    · exact .inl ⟨[ev], _, rfl, hone, hk, rfl⟩
    · exact .inr (.inr ⟨_, rfl, .inl ⟨[], ev, [], _, rfl, hone, hn, one [ev] rfl⟩⟩)
    · exact .inr (.inr ⟨_, rfl, .inr ⟨[ev], [], _, rfl, hone, hr, one [ev] rfl⟩⟩)
  | poll =>
    have part : ∀ a b, pollIteration s.cfg (s.answerAt 1).data = a ++ b → ∃ rest, Emits s.cfg [.poll] (a ++ rest) := by
      intro a b hab
      by_cases hb : busy (s.answerAt 1).data = true
      · obtain ⟨evs, he⟩ := emits_exists s.cfg [.poll]
        exact ⟨b ++ evs, by rw [← List.append_assoc, ← hab]; exact he.busy (busy_eq_true.mp hb)⟩
      · refine ⟨b, one _ ⟨[(s.answerAt 1).data], BusyUntilReady.single (busy_eq_false.mp (by simpa using hb)), ?_⟩⟩
        rw [← hab, List.flatMap_singleton]
    simp only [Micro.run]
    rcases pollOnce_cases s (hc rfl) h with ⟨t, h1, h2, h3⟩ | ⟨a, ev, b, t, h0, h1, h2, h3⟩ | ⟨a, b, t, h0, h1, h2, h3⟩
    · by_cases hb : busy (s.answerAt 1).data = true
      · rw [if_pos hb] at h3
        exact .inr (.inl ⟨_, t, trivial, h3, h1, h2, busy_eq_true.mp hb⟩)
      · rw [if_neg hb] at h3
        exact .inl ⟨_, t, h3, h1, h2, [_], BusyUntilReady.single (busy_eq_false.mp (by simpa using hb)), by simp⟩
    · obtain ⟨rest, hr⟩ := part _ _ h0
      exact .inr (.inr ⟨_, h1, .inl ⟨a, ev, rest, t, rfl, h2, h3, hr⟩⟩)
    · obtain ⟨rest, hr⟩ := part _ _ h0
      exact .inr (.inr ⟨_, h1, .inr ⟨a, rest, t, rfl, h2, h3, hr⟩⟩)
  | ret st => cases hm
  | _ => exact .inl (quiet _ rfl (same _ rfl rfl rfl rfl rfl (fun _ => rfl) ⟨rfl, rfl, rfl, rfl⟩) rfl)

/-- A micro-sequence without a return, with `r` behind it: the run reaches `r`, stands in a poll loop, or was cut short. -/
theorem run_ends (q : List Micro) (hq : q.all Micro.goesOn = true) (r : List Micro) (s : State)
    (hc : .poll ∈ q → s.cfg.wf = true) (h : s.resetIn ≠ some 0) :
    (∃ evs t, run (q ++ r) s = run r t ∧ Ran s evs t ∧ Clear s evs ∧ Emits s.cfg q evs) ∨
    (∃ evs ms, (run (q ++ r) s).position = .poll :: ms ++ r ∧ ms.all Micro.goesOn = true ∧ Ran s evs (run (q ++ r) s) ∧
      Clear s evs ∧ 0 < primitives evs ∧ ∀ b, Emits s.cfg (.poll :: ms) b → Emits s.cfg q (evs ++ b)) ∨
    CutShort s q (run (q ++ r) s) := by
  induction q generalizing s with
  | nil => exact .inl ⟨[], s, rfl, Ran.refl s, Clear.nil h, rfl⟩
  | cons m q ih =>
    simp only [List.all_cons, Bool.and_eq_true] at hq
    rcases micro_ends m hq.1 s (fun hm => hc (by simp [hm])) h with ⟨a, t, h1, h2, h3, h4⟩ | ⟨v, t, rfl, h1, h2, h3, h4⟩ | ⟨t, h1, h2⟩
    all_goals simp only [List.cons_append, run, h1]
    · have front : ∀ b, Emits s.cfg q b → Emits s.cfg (m :: q) (a ++ b) := fun b hb => ⟨a, b, rfl, h4, hb⟩
      rcases ih hq.2 t (fun hm => by rw [h2.cfg]; exact hc (by simp [hm])) (h3.resetIn h2) with ⟨b, u, g1, g2, g3, g4⟩ |
        ⟨b, ms, g1, g2, g3, g4, g5, g6⟩ | g
      · exact .inl ⟨a ++ b, u, g1, h2.trans g2, Clear.append h2 h3 g3, front b (by rw [← h2.cfg]; exact g4)⟩
      · refine .inr (.inl ⟨a ++ b, ms, g1, g2, h2.trans g3, Clear.append h2 h3 g4, by rw [primitives_append]; omega, fun x hx => ?_⟩)
        rw [List.append_assoc]
        rw [h2.cfg] at g6
        exact front _ (g6 x hx)
      · exact .inr (.inr (CutShort.append h2 h3 front g))
    · refine .inr (.inl ⟨_, q, rfl, hq.2, h2.position _, h3, ?_, fun b hb => hb.busy h4⟩)
      rw [pollIteration_eq_pollEvents (hc (by simp)), primitives_pollEvents, pollCost]; omega
    · refine .inr (.inr ?_)
      rcases h2 with ⟨evs, ev, rest, u, rfl, g1, g2, a, b, hab, g3, g4⟩ | ⟨evs, rest, u, rfl, g1, g2, a, b, hab, g3, g4⟩
      all_goals
        cases g4
        obtain ⟨x, hx⟩ := emits_exists s.cfg q
      · exact .inl ⟨evs, ev, rest ++ x, u, rfl, g1, g2, a, x, by rw [← List.append_assoc, hab]; simp, g3, hx⟩
      · exact .inr ⟨evs, rest ++ x, u, rfl, g1, g2, a, x, by rw [← List.append_assoc, hab]; simp, g3, hx⟩

/-- The operation is over in `t`: it completed and returned OK, or was cut short. -/
def Ended (s : State) (q : List Micro) (t : State) : Prop :=
  (∃ evs u, t = { u.returnStatus .ok with position := [] } ∧ Ran s evs u ∧ Clear s evs ∧ Emits s.cfg q evs) ∨
    CutShort s q t

/-- Behind the events `a` of `p`, the end of the rest `q` is the end of `p`. -/
theorem Ended.append {s t u : State} {a : List BusEvent} {p q : List Micro} (hr : Ran s a t) (ha : Clear s a)
    (hp : ∀ b, Emits s.cfg q b → Emits s.cfg p (a ++ b)) (h : Ended t q u) : Ended s p u := by
  rcases h with ⟨evs, w, rfl, h1, h2, h3⟩ | h
  · exact .inl ⟨a ++ evs, w, rfl, hr.trans h1, Clear.append hr ha h2, hp _ (by rw [← hr.cfg]; exact h3)⟩
  · exact .inr (CutShort.append hr ha hp h)

/-- An operation that some primitive to come, or a reset input, cuts short if it does not end before, is over after some
steps, with no premise on the busy flag: each poll iteration comes nearer to that point (R165, R167, R281). -/
theorem operation_ends (n : Nat) (q : List Micro) (hq : q.all Micro.goesOn = true) (s : State) (hc : s.cfg.wf = true)
    (h : s.resetIn ≠ some 0) (hn : (∃ j, j < n ∧ s.ackedAt j = false) ∨ ∃ k, k ≤ n ∧ s.resetIn = some k) :
    ∃ m t, Host.Core.run core m (run (q ++ [.ret .ok]) s) = .next t ∧ Ended s q t := by
  induction n using Nat.strongRecOn generalizing q s with
  | ind n ih =>
    rcases run_ends q hq [.ret .ok] s (fun _ => hc) h with ⟨evs, t, h1, h2, h3, h4⟩ | ⟨evs, ms, h1, h2, h3, h4, h5, h6⟩ | hcut
    · exact ⟨0, _, rfl, .inl ⟨evs, t, h1, h2, h3, h4⟩⟩
    · have hstep := step_resume (by rw [h3.cfg]; exact hc) (h4.resetIn h3) h1
      generalize run (q ++ [.ret .ok]) s = u at h1 h3 hstep ⊢
      have hlen : primitives evs ≤ evs.length := List.countP_le_length
      obtain ⟨m, t, g1, g2⟩ := ih (n - primitives evs)
        (by rcases hn with ⟨j, hj, -⟩ | ⟨k, hk, hr⟩ <;> [skip; have := h4.2 k hr] <;> omega)
        (.poll :: ms) (by simpa [Micro.goesOn] using h2) u (by rw [h3.cfg]; exact hc) (h4.resetIn h3) (by
          rcases hn with ⟨j, hj, ha⟩ | ⟨k, hk, hr⟩
          · have hjp : ¬j < primitives evs := fun hlt => by rw [h4.1 j hlt] at ha; cases ha
            exact .inl ⟨j - primitives evs, by omega, by rw [h3.acked, Nat.sub_add_cancel (by omega)]; exact ha⟩
          · exact .inr ⟨k - evs.length, by omega, by rw [h3.resetIn, hr]; rfl⟩)
      exact ⟨m + 1, t, (core_run_succ hstep).trans g1, Ended.append h3 h4 h6 g2⟩
    · exact ⟨0, _, rfl, .inr hcut⟩

end Sys2Proof.Machine
end

