-- ==== Sys2Proof/Laws/PerInstr.lean ====
section
/-!
SUPPORT. The encoder against the opcode table: the word of every instruction has its row's fixed bits.
-/

namespace Sys2Proof.Laws.TableRow

/-- A row of spec/opcode_table.json: the bits its mask fixes, and their values. -/
structure Row where
  mask : Nat
  bits : Nat
  deriving DecidableEq, Repr

/-- The row of each instruction, copied from the table. -/
def row : Instr → Row
  | .init => ⟨0xFF000000, 0x00000000⟩
  | .writeAt _ _ _ => ⟨0xFF000000, 0x10000000⟩
  | .writeStream _ => ⟨0xFF000000, 0x20000000⟩
  | .moveTo _ _ => ⟨0xFF000000, 0x30000000⟩
  | .clear => ⟨0xFF000000, 0x40000000⟩
  | .home => ⟨0xFF000000, 0x50000000⟩
  | .setDisplayOff => ⟨0xFF0000FF, 0x60000000⟩
  | .setDisplayOn => ⟨0xFF0000FF, 0x60000001⟩
  | .setCursorOff => ⟨0xFF0000FF, 0x60000002⟩
  | .setCursorOn => ⟨0xFF0000FF, 0x60000003⟩
  | .setBlinkOff => ⟨0xFF0000FF, 0x60000004⟩
  | .setBlinkOn => ⟨0xFF0000FF, 0x60000005⟩
  | .setFlowDecrement => ⟨0xFF0000FF, 0x60000006⟩
  | .setFlowIncrement => ⟨0xFF0000FF, 0x60000007⟩
  | .setShiftOff => ⟨0xFF0000FF, 0x60000008⟩
  | .setShiftOn => ⟨0xFF0000FF, 0x60000009⟩
  | .defineGlyph _ _ => ⟨0xFF000000, 0x70000000⟩
  | .columns => ⟨0xFF000000, 0x80000000⟩
  | .rows => ⟨0xFF000000, 0x90000000⟩
  | .clearDisplay => ⟨0xFF, 0x01⟩
  | .returnHome => ⟨0xFF, 0x02⟩
  | .entryModeSet _ _ => ⟨0xFC, 0x04⟩
  | .displayControl _ _ _ => ⟨0xF8, 0x08⟩
  | .functionSet _ _ _ => ⟨0xE3, 0x20⟩
  | .setCgramAddr _ => ⟨0xC7, 0x40⟩
  | .setDdramAddr _ => ⟨0x80, 0x80⟩
  | .syncPulse _ => ⟨0x0, 0x0⟩
  | .dataByte _ => ⟨0x00, 0x00⟩

/-- A word as the table numbers its bits. -/
def number : Word → Nat
  | .host h => h.w.toNat
  | .far (.cmd c) => c.toNat
  | .far (.data d) => d.toNat
  | .far (.sync n) => n.toNat

/-- The encoded word has the fixed bits of its row. -/
def Statement (i : Instr) : Prop := number (encode i) &&& (row i).mask = (row i).bits

/-- The fixed bits of a packed host word that only `op` and `rsv` decide. -/
theorem packed (op : BitVec 4) (a b c : Byte) (glyph : BitVec 64) :
    number (packHost op a b c glyph) &&& 0xFF000000 = op.toNat <<< 28 := by
  have hw : (op ++ 0#4 ++ a ++ b ++ c : BitVec (4 + 4 + 8 + 8 + 8)) &&& 0xFF000000#32 = op ++ 0#28 := by
    refine BitVec.eq_of_getLsbD_eq fun i hi => ?_
    simp only [BitVec.getLsbD_and, BitVec.getLsbD_append]
    have : (0xFF000000#32).getLsbD i = decide (24 ≤ i) := by revert i; decide
    rw [this]
    by_cases h1 : i < 8
    · simp [h1, show i < 28 by omega, show ¬ 24 ≤ i by omega]
    · by_cases h2 : i - 8 < 8
      · simp [show i < 28 by omega, show ¬ 24 ≤ i by omega]
      · by_cases h3 : i - 8 - 8 < 8
        · simp [show i < 28 by omega, show ¬ 24 ≤ i by omega]
        · by_cases h4 : i - 8 - 8 - 8 < 4
          · simp [h1, h2, h3, h4, show i < 28 by omega]
          · simp [h1, h2, h3, h4, show ¬ i < 28 by omega, show 24 ≤ i by omega,
              show i - 8 - 8 - 8 - 4 = i - 28 by omega]
  have h : (op ++ 0#4 ++ a ++ b ++ c).toNat &&& (0xFF000000#32).toNat = op.toNat <<< 28 := by
    rw [← BitVec.toNat_and]
    exact (congrArg BitVec.toNat hw).trans (by rw [BitVec.toNat_append]; simp)
  exact h

theorem init : Statement (.init) := rfl

theorem writeAt (column row code : Byte) : Statement (.writeAt column row code) := packed _ _ _ _ _

theorem writeStream (byte : Byte) : Statement (.writeStream byte) := packed _ _ _ _ _

theorem moveTo (column row : Byte) : Statement (.moveTo column row) := packed _ _ _ _ _

theorem clear : Statement (.clear) := rfl

theorem home : Statement (.home) := rfl

theorem setDisplayOff : Statement (.setDisplayOff) := rfl

theorem setDisplayOn : Statement (.setDisplayOn) := rfl

theorem setCursorOff : Statement (.setCursorOff) := rfl

theorem setCursorOn : Statement (.setCursorOn) := rfl

theorem setBlinkOff : Statement (.setBlinkOff) := rfl

theorem setBlinkOn : Statement (.setBlinkOn) := rfl

theorem setFlowDecrement : Statement (.setFlowDecrement) := rfl

theorem setFlowIncrement : Statement (.setFlowIncrement) := rfl

theorem setShiftOff : Statement (.setShiftOff) := rfl

theorem setShiftOn : Statement (.setShiftOn) := rfl

theorem defineGlyph (slot : Byte) (glyph : BitVec 64) : Statement (.defineGlyph slot glyph) := packed _ _ _ _ _

theorem columns : Statement (.columns) := rfl

theorem rows : Statement (.rows) := rfl

theorem clearDisplay : Statement (.clearDisplay) := rfl

theorem returnHome : Statement (.returnHome) := rfl

theorem entryModeSet (id s : Bool) : Statement (.entryModeSet id s) := by
  revert id s; unfold Statement; decide

theorem displayControl (d c b : Bool) : Statement (.displayControl d c b) := by
  revert d c b; unfold Statement; decide

theorem functionSet (dl n f : Bool) : Statement (.functionSet dl n f) := by
  revert dl n f; unfold Statement; decide

theorem setCgramAddr (slot : BitVec 3) : Statement (.setCgramAddr slot) := by
  revert slot; unfold Statement; decide

theorem setDdramAddr (addr : BitVec 7) : Statement (.setDdramAddr addr) := by
  revert addr; unfold Statement; decide +kernel

theorem syncPulse (n : Nibble) : Statement (.syncPulse n) := Nat.and_zero _

theorem dataByte (d : Byte) : Statement (.dataByte d) := Nat.and_zero _

end Sys2Proof.Laws.TableRow
end

