-- ==== Sys2Proof/Tests/Slice0.lean ====
section
/-!
SUPPORT. Tests of one decode or one step each, with results from spec/95_test_vectors.md (its vector named in the comment) or
from the encodings of spec/30_encoding.md; and, for each statement with hypotheses, a witness that meets them.
-/

namespace Sys2Proof.Tests

open Sys2Proof Sys2Proof.Machine

/-! ## Well-formedness: each check refuses an ill-formed term -/

-- R99: N is 1 in every supported geometry
theorem test_wf_functionSet_one_line : (Instr.functionSet true false true).wellFormed = false := by decide
-- R56: both sides of each end of the two ranges
theorem test_wf_ddram_outside :
    ([0x28, 0x3F, 0x68, 0x7F].map fun a => (Instr.setDdramAddr a).wellFormed) = [false, false, false, false] := by decide
theorem test_wf_ddram_inside :
    ([0x00, 0x27, 0x40, 0x67].map fun a => (Instr.setDdramAddr a).wellFormed) = [true, true, true, true] := by decide

/-- A configuration with every default (R6). -/
def defaults : Config := Config.standard .g16x2 .fixedDelay .w4

theorem test_cfg_default : defaults.wf = true := by decide
-- R7
theorem test_cfg_polling_without_read : { defaults with strategy := .busyFlagPolling, canRead := false }.wf = false := by
  decide
theorem test_cfg_fixed_without_read : { defaults with canRead := false }.wf = true := by decide
-- R142
theorem test_cfg_one_pulse : { defaults with syncSeq := [(0x3, 4100)] }.wf = false := by decide
theorem test_cfg_first_delay : { defaults with syncSeq := [(0x3, 4099), (0x2, 100)] }.wf = false := by decide
theorem test_cfg_second_delay : { defaults with syncSeq := [(0x3, 4100), (0x2, 99)] }.wf = false := by decide
theorem test_cfg_third_delay : { defaults with syncSeq := [(0x3, 4100), (0x3, 100), (0x3, 99), (0x2, 0)] }.wf = false := by
  decide
-- the lower bounds of R6
theorem test_cfg_timings :
    [{ defaults with tELow := 1 }, { defaults with tEHigh := 1 }, { defaults with tHold := 39 },
      { defaults with tCmd := 39 }, { defaults with tHome := 1519 }, { defaults with tClear := 6199 }].map Config.wf
      = [false, false, false, false, false, false] := by decide

/-! ## Decoding: words written out from the encodings -/

/-- `op`, `rsv`, A, B, C as R80 lays them out, bit by bit. -/
def hostInstr (w : BitVec 32) : Option Instr := (decodeHost ⟨w, 0⟩).toOption

theorem test_dec_init : hostInstr 0b0000_0000_00000000_00000000_00000000 = some .init := by decide
theorem test_dec_writeAt :
    hostInstr 0b0001_0000_00001111_00000001_01011010 = some (.writeAt 15 1 0x5A) := by decide
theorem test_dec_writeStream : hostInstr 0b0010_0000_00000000_00000000_01000001 = some (.writeStream 0x41) := by decide
theorem test_dec_moveTo : hostInstr 0b0011_0000_00010011_00000011_00000000 = some (.moveTo 19 3) := by decide
theorem test_dec_clear : hostInstr 0b0100_0000_00000000_00000000_00000000 = some .clear := by decide
theorem test_dec_home : hostInstr 0b0101_0000_00000000_00000000_00000000 = some .home := by decide
theorem test_dec_setDisplayOff : hostInstr 0b0110_0000_00000000_00000000_00000000 = some .setDisplayOff := by decide
theorem test_dec_setDisplayOn : hostInstr 0b0110_0000_00000000_00000000_00000001 = some .setDisplayOn := by decide
theorem test_dec_setCursorOff : hostInstr 0b0110_0000_00000000_00000000_00000010 = some .setCursorOff := by decide
theorem test_dec_setCursorOn : hostInstr 0b0110_0000_00000000_00000000_00000011 = some .setCursorOn := by decide
theorem test_dec_setBlinkOff : hostInstr 0b0110_0000_00000000_00000000_00000100 = some .setBlinkOff := by decide
theorem test_dec_setBlinkOn : hostInstr 0b0110_0000_00000000_00000000_00000101 = some .setBlinkOn := by decide
theorem test_dec_setFlowDecrement :
    hostInstr 0b0110_0000_00000000_00000000_00000110 = some .setFlowDecrement := by decide
theorem test_dec_setFlowIncrement :
    hostInstr 0b0110_0000_00000000_00000000_00000111 = some .setFlowIncrement := by decide
theorem test_dec_setShiftOff : hostInstr 0b0110_0000_00000000_00000000_00001000 = some .setShiftOff := by decide
theorem test_dec_setShiftOn : hostInstr 0b0110_0000_00000000_00000000_00001001 = some .setShiftOn := by decide
theorem test_dec_defineGlyph :
    decodeHost ⟨0b0111_0000_00000001_00000000_00000000, 0x0000040E1F1F0A00⟩
      = .instr (.defineGlyph 1 0x0000040E1F1F0A00) := by decide
theorem test_dec_columns : hostInstr 0b1000_0000_00000000_00000000_00000000 = some .columns := by decide
theorem test_dec_rows : hostInstr 0b1001_0000_00000000_00000000_00000000 = some .rows := by decide
theorem test_dec_clearDisplay : decodeTransfer (.cmd 0b00000001) = .instr .clearDisplay := by decide
theorem test_dec_returnHome : decodeTransfer (.cmd 0b00000010) = .instr .returnHome := by decide
theorem test_dec_entryModeSet : decodeTransfer (.cmd 0b00000110) = .instr (.entryModeSet true false) := by decide
theorem test_dec_displayControl :
    decodeTransfer (.cmd 0b00001110) = .instr (.displayControl true true false) := by decide
theorem test_dec_functionSet : decodeTransfer (.cmd 0b00101100) = .instr (.functionSet false true true) := by decide
theorem test_dec_setCgramAddr : decodeTransfer (.cmd 0b01001000) = .instr (.setCgramAddr 1) := by decide
theorem test_dec_setDdramAddr : decodeTransfer (.cmd 0b10010100) = .instr (.setDdramAddr 0x14) := by decide
theorem test_dec_syncPulse : decodeTransfer (.sync 0b0011) = .instr (.syncPulse 3) := by decide
-- R102: a byte with register-select high is data, even one that is a command with register-select low
theorem test_dec_dataByte : decodeTransfer (.data 0b00000001) = .instr (.dataByte 1) := by decide

-- R83, R85 and V45.12, V45.13
theorem test_dec_rejects :
    [decodeHost ⟨0xF0000000, 0⟩, decodeHost ⟨0x01000000, 0⟩, decodeHost ⟨0x6000000A, 0⟩]
      = [.reject .reservedOpcode, .reject .reservedBits, .reject .reservedMode] := by decide
theorem test_dec_ignored_fields : hostInstr 0x60FFFF03 = some .setCursorOn := by decide
-- R104
theorem test_dec_never_formed :
    ([0x00, 0x03, 0x10, 0x1F, 0x21, 0x41].map fun b => decodeCommand b) = List.replicate 6 (.reject .neverFormed) := by decide
-- R93
theorem test_pseudo_print :
    (Pseudo.print [0x48, 0x69]).expand = [.writeStream 0x48, .writeStream 0x69] := by decide

/-! ## The numbering of table words -/

theorem test_table_moveTo : decodeTableWord 32 0x30130300 = some (.moveTo 19 3) := by decide
theorem test_table_displayControl : decodeTableWord 8 0x0C = some (.displayControl true false false) := by decide
theorem test_table_data : decodeTableWord 8 0x41 = some (.dataByte 0x41) := by decide
theorem test_table_sync : decodeTableWord 4 0x3 = some (.syncPulse 3) := by decide
theorem test_table_glyph :
    decodeTableWord 96 (0x70010000 + 0x0000040E1F1F0A00 * 2 ^ 32) = some (.defineGlyph 1 0x0000040E1F1F0A00) := by decide

/-! ## One step -/

/-- A block in phase Ready with its lines at rest. -/
def block (g : Geom) (st : Strategy) (bw : BusWidth) (column row : Byte) (dc : BitVec 3) (em : BitVec 2) : State :=
  { State.reset with
    cfg := Config.standard g st bw
    phase := .ready
    curCol := column
    curRow := row
    displayControl := dc
    entryMode := em
    lines := { e := false, rs := false, rw := false, dir := .output, data := 0 } }

/-- The default block of the vectors. -/
def panel (g : Geom) (column row : Byte) : State := block g .fixedDelay .w4 column row 0b100 0b10

/-- What a vector lists: status, command-level trace, cursor. -/
structure Seen where
  status : Option Status
  trace  : List CommandEvent
  column : Byte
  row    : Byte
  deriving DecidableEq, Repr

/-- What an instruction shows, with the given number of handshake pulses first. -/
def seen (i : Instr) (s : State) (syncs : Nat) : Option Seen :=
  match exec i s with
  | .next t =>
    some
      { status := t.output.map (·.status)
        trace := commandTrace s.cfg.busWidth (.start s.lines syncs) (t.trace.drop s.trace.length)
        column := t.curCol
        row := t.curRow }
  | .fault _ => none
  | .refused _ => none

/-- One field of the next state. -/
def after {α : Type} (f : State → α) (i : Instr) (s : State) : Option α :=
  match exec i s with
  | .next t => some (f t)
  | .fault _ => none
  | .refused _ => none

/-- A block under busy-flag polling whose reads answer 0 but for the first poll after `lead` primitives, which reads `v`
(R162, R163: the read is the fifth primitive of POLLWAIT). -/
def polled (lead : Nat) (v : Nibble) (s : State) : State :=
  { s with
    cfg := { s.cfg with strategy := .busyFlagPolling }
    script := List.replicate (lead + 4) ⟨true, 0⟩ ++ [⟨true, v⟩] ++ List.replicate 400 ⟨true, 0⟩ }

-- V41.1
theorem test_init :
    seen .init State.reset 3
      = some ⟨some .ok, [.sync 3, .sync 3, .sync 2, .cmd 0x28, .cmd 0x08, .cmd 0x01, .cmd 0x02, .cmd 0x06], 0, 0⟩ := by
  decide +kernel
-- V41.1, V41.2 (from V41.6's state), V41.3, V41.7, V41.8: events and delay sum
theorem test_init_counts :
    ([State.reset, block .g16x2 .fixedDelay .w8 9 1 7 1, { State.reset with cfg := { defaults with oledResync := true } },
        { State.reset with cfg := { defaults with tPowerOn := 0 } }, polled 0 0 State.reset].map
      (after (fun t => (t.trace.length, delaySum t.trace)) .init))
      = [some (108, 52612), some (66, 52348), some (143, 52832), some (107, 12612), some (173, 44812)] := by
  decide +kernel

-- V44.1, V44.2, V44.3
theorem test_writeAt : seen (.writeAt 15 1 0x5A) (panel .g16x2 3 0) 0 = some ⟨some .ok, [.cmd 0xCF, .data 0x5A], 3, 0⟩ := by
  decide +kernel
theorem test_writeAt_range : seen (.writeAt 16 0 0x5A) (panel .g16x2 3 0) 0 = some ⟨some .errRange, [], 3, 0⟩ := by
  decide +kernel
-- V44.5 (page wrap), V44.7 (line feed in the last row)
theorem test_writeStream_wrap :
    seen (.writeStream 0x41) (panel .g16x2 15 1) 0 = some ⟨some .ok, [.cmd 0xCF, .data 0x41], 0, 0⟩ := by decide +kernel
theorem test_writeStream_lineFeed : seen (.writeStream 0x0A) (panel .g20x4 4 3) 0 = some ⟨some .ok, [], 0, 0⟩ := by
  decide +kernel
-- V44.10, V44.11
theorem test_moveTo : seen (.moveTo 15 1) (panel .g16x2 0 0) 0 = some ⟨some .ok, [], 15, 1⟩ := by decide +kernel
theorem test_moveTo_range : seen (.moveTo 0 2) (panel .g16x2 2 1) 0 = some ⟨some .errRange, [], 2, 1⟩ := by decide +kernel
-- V44.12 and S7
theorem test_clear : seen .clear (panel .g16x2 5 1) 0 = some ⟨some .ok, [.cmd 0x01], 0, 0⟩ := by decide +kernel
theorem test_clear_delay : after (fun t => (t.trace.length, delaySum t.trace)) .clear (panel .g16x2 5 1) = some (16, 6288) := by
  decide +kernel
-- V44.13
theorem test_home : seen .home (panel .g16x2 5 1) 0 = some ⟨some .ok, [.cmd 0x02], 0, 0⟩ := by decide +kernel
-- V44.15
theorem test_columns : after (·.output) .columns (panel .g20x4 0 0) = some (some ⟨.ok, 20⟩) := by decide +kernel
theorem test_rows : after (·.output) .rows (panel .g20x4 0 0) = some (some ⟨.ok, 4⟩) := by decide +kernel

/-- A display or entry mode: the command it sends and the two shadows after. -/
def mode (i : Instr) (dc : BitVec 3) (em : BitVec 2) : Option (List CommandEvent × BitVec 3 × BitVec 2) :=
  let s := block .g16x2 .fixedDelay .w4 0 0 dc em
  after (fun t => (commandTrace .w4 (.start s.lines 0) t.trace, t.displayControl, t.entryMode)) i s

-- V45.1 to V45.10
theorem test_setDisplayOff : mode .setDisplayOff 0b111 0b10 = some ([.cmd 0x0B], 0b011, 0b10) := by decide +kernel
theorem test_setDisplayOn : mode .setDisplayOn 0b000 0b10 = some ([.cmd 0x0C], 0b100, 0b10) := by decide +kernel
theorem test_setCursorOff : mode .setCursorOff 0b110 0b10 = some ([.cmd 0x0C], 0b100, 0b10) := by decide +kernel
theorem test_setCursorOn : mode .setCursorOn 0b100 0b10 = some ([.cmd 0x0E], 0b110, 0b10) := by decide +kernel
theorem test_setBlinkOff : mode .setBlinkOff 0b101 0b10 = some ([.cmd 0x0C], 0b100, 0b10) := by decide +kernel
theorem test_setBlinkOn : mode .setBlinkOn 0b100 0b10 = some ([.cmd 0x0D], 0b101, 0b10) := by decide +kernel
theorem test_setFlowDecrement : mode .setFlowDecrement 0b100 0b10 = some ([.cmd 0x04], 0b100, 0b00) := by decide +kernel
theorem test_setFlowIncrement : mode .setFlowIncrement 0b100 0b00 = some ([.cmd 0x06], 0b100, 0b10) := by decide +kernel
theorem test_setShiftOff : mode .setShiftOff 0b100 0b11 = some ([.cmd 0x06], 0b100, 0b10) := by decide +kernel
theorem test_setShiftOn : mode .setShiftOn 0b100 0b10 = some ([.cmd 0x07], 0b100, 0b11) := by decide +kernel

-- V46.3 (byte 0 is GLYPH[7:0]), V46.4
theorem test_defineGlyph :
    seen (.defineGlyph 7 0x0807060504030201) (panel .g16x2 0 0) 0
      = some ⟨some .ok, [.cmd 0x78, .data 1, .data 2, .data 3, .data 4, .data 5, .data 6, .data 7, .data 8], 0, 0⟩ := by
  decide +kernel
theorem test_defineGlyph_slot : seen (.defineGlyph 8 0xFF) (panel .g16x2 0 0) 0 = some ⟨some .ok, [], 0, 0⟩ := by
  decide +kernel

/-- The events of one transfer. -/
def events (i : Instr) (s : State) : Option (List BusEvent) := after (·.trace) i s

/-- Two default nibbles. -/
def nibbles (rs : Bool) (hi lo : Nibble) : List BusEvent := .rs rs :: (defaultNibble hi ++ defaultNibble lo)

-- V40.5 to V40.8, and the same form for the other command bytes
theorem test_clearDisplay :
    events .clearDisplay (panel .g16x2 0 0) = some (nibbles false 0 1 ++ [.delay 6200]) := by decide +kernel
theorem test_returnHome :
    events .returnHome (panel .g16x2 0 0) = some (nibbles false 0 2 ++ [.delay 1520]) := by decide +kernel
theorem test_displayControl :
    events (.displayControl true false false) (panel .g16x2 0 0) = some (nibbles false 0 0xC ++ [.delay 40]) := by
  decide +kernel
theorem test_dataByte :
    events (.dataByte 0x41) (panel .g16x2 0 0) = some (nibbles true 4 1 ++ [.delay 40]) := by decide +kernel
theorem test_entryModeSet :
    events (.entryModeSet true false) (panel .g16x2 0 0) = some (nibbles false 0 6 ++ [.delay 40]) := by decide +kernel
theorem test_functionSet :
    events (.functionSet false true true) (panel .g16x2 0 0) = some (nibbles false 2 0xC ++ [.delay 40]) := by decide +kernel
theorem test_setCgramAddr :
    events (.setCgramAddr 1) (panel .g16x2 0 0) = some (nibbles false 4 8 ++ [.delay 40]) := by decide +kernel
theorem test_setDdramAddr :
    events (.setDdramAddr 0x14) (panel .g16x2 0 0) = some (nibbles false 9 4 ++ [.delay 40]) := by decide +kernel
-- R103, both widths
theorem test_syncPulse : events (.syncPulse 3) (panel .g16x2 0 0) = some (defaultNibble 3) := by decide +kernel
theorem test_syncPulse_w8 :
    events (.syncPulse 3) (block .g16x2 .fixedDelay .w8 0 0 0 0)
      = some [.w8 0x30, .e false, .delay 2, .e true, .delay 2, .e false, .delay 40] := by decide +kernel
-- V42.7: RS low after a polled data byte
theorem test_dataByte_polled :
    after (fun t => (t.trace.length, t.lines.rs)) (.dataByte 0x41) (polled 9 0 (panel .g16x2 0 0)) = some (29, false) := by
  decide +kernel

/-! ## The step -/

/-- One field after one step. -/
def stepped {α : Type} (f : State → α) (s : State) : Option α :=
  match step s with
  | .next t => some (f t)
  | .fault _ => none
  | .refused _ => none

-- V60.1, V60.3, V60.4 from reset, V60.5 in phase Ready
theorem test_step_illegal :
    stepped (fun t => t.output.map (·.status)) (State.reset.withFetchWord 32 0xF0000000) = some (some .errIllegalOp) := by
  decide +kernel
theorem test_step_notReady :
    stepped (fun t => t.output.map (·.status)) (State.reset.withFetchWord 32 0x30636300) = some (some .errNotReady) := by
  decide +kernel
theorem test_step_range :
    stepped (fun t => t.output.map (·.status)) ((panel .g16x2 0 0).withFetchWord 32 0x30636300)
      = some (some .errRange) := by decide +kernel
theorem test_step_init :
    stepped (fun t => (t.phase, t.hostPort)) (State.reset.withFetchWord 32 0) = some (.ready, []) := by decide +kernel
theorem test_step_transfer :
    stepped (fun t => (t.trace.length, t.transferPort)) ((panel .g16x2 0 0).withFetchWord 8 0x0C) = some (16, none) := by
  decide +kernel
-- V60.8
theorem test_step_recovers :
    stepped (·.phase) ({ State.reset with phase := .failed }.withFetchWord 32 0) = some .ready := by decide +kernel

/-- P5, step 2: the tenth primitive is not acknowledged. -/
def nacked : State :=
  { panel .g16x2 0 0 with transport := .i2cExpander, script := List.replicate 9 ⟨true, 0⟩ ++ [⟨false, 0⟩] }

theorem test_nack :
    after (fun t => (t.trace.length, t.trace.getLast?, t.phase, t.output.map (·.status))) (.writeStream 0x41) nacked
      = some (17, some (.rs true), .failed, some .errTransport) := by decide +kernel

/-- V42.4: a command byte whose polls read 0x8, then 0x0. -/
def waiting : State := polled 9 0x8 (panel .g16x2 0 0)

theorem test_poll_waits :
    after (fun t => (t.trace.length, t.output, t.position.length)) .setDisplayOn waiting = some (27, none, 4) := by
  decide +kernel

-- R281: the reset input after the fifth event
theorem test_reset_cuts :
    after (fun t => (t.trace.length, t.phase, t.output)) .clear { panel .g16x2 5 1 with resetIn := some 5 }
      = some (5, .reset, none) := by decide +kernel

-- R11
theorem test_conforms :
    (conforms [.e true, .delay 2, .delay 40, .e false] [.e true, .delay 42, .e false],
      conforms [.e true, .delay 2, .e false] [.e true, .delay 1, .e false]) = (true, false) := by decide

/-! ## Witnesses: each statement's hypotheses are met together -/

/-- On direct GPIO every primitive is acknowledged (R53). -/
theorem gpio_acks (s : State) (n : Nat) (h1 : s.transport = .directGpio) (h2 : s.resetIn = none) : s.Acks n :=
  ⟨h2, fun _ _ => by simp [State.ackedAt, h1]⟩

theorem gpio_grants (s : State) (n : Nat) (h1 : s.transport = .directGpio) (h2 : s.resetIn = none)
    (h3 : s.cfg.strategy = .fixedDelay) : s.Grants n :=
  ⟨gpio_acks s n h1 h2, fun h => absurd (h3.symm.trans h) (by decide)⟩

/-- A polling block whose every read answers 0. -/
def ready : State := polled 0 0 (panel .g16x2 0 0)

/-- Its environment grants far more than any operation asks for. -/
theorem ready_grants : ready.Grants 400 := by unfold State.Grants State.Acks; decide +kernel

theorem witness_UnusedFieldsAreIgnored :
    let h : HostWord := ⟨0x60000003, 0⟩
    let k : HostWord := ⟨0x60FFFF03, 1⟩
    h.op = k.op ∧ h.rsv = k.rsv ∧ h.fieldC = k.fieldC ∧ h ≠ k := by decide

/-- R250 and R24: the printed codes. -/
theorem test_codes : Status.errIllegalOp.code = 4 ∧ Status.errTransport.code = 3 ∧ Phase.ready.code = 7 ∧ Phase.failed.code = 8 := by
  decide

theorem witness_StepRunsTheHostWord :
    let s := State.reset.withFetchWord 32 0x30130300
    s.cfg.wf = true ∧ s.resetIn ≠ some 0 ∧ s.position = [] ∧ s.transferPort = none ∧
      s.hostPort = [⟨0x30130300, 0⟩] ∧ decodeHost ⟨0x30130300, 0⟩ = .instr (.moveTo 19 3) := by decide +kernel

theorem witness_StepRunsTheTransfer :
    let s := State.reset.withFetchWord 8 0x0C
    s.cfg.wf = true ∧ s.resetIn ≠ some 0 ∧ s.position = [] ∧ s.transferPort = some (.cmd 0x0C) ∧
      decodeTransfer (.cmd 0x0C) = .instr (.displayControl true false false) := by decide +kernel

-- each clause of the statement at its boundary, and the entry after which no pulse follows
theorem witness_BadConfigurationIsRefused :
    { defaults with strategy := .busyFlagPolling, canRead := false }.wf = false ∧
      { defaults with syncSeq := [(3, 4100)] }.wf = false ∧
      { defaults with syncSeq := [(3, 4099), (3, 100)] }.wf = false ∧
      { defaults with syncSeq := [(3, 4100), (3, 99)] }.wf = false ∧
      { defaults with syncSeq := [(3, 4100), (3, 100), (3, 99), (2, 0)] }.wf = false ∧
      { defaults with syncSeq := [(3, 4100), (3, 100), (3, 100), (2, 0)] }.wf = true ∧
      { defaults with tELow := 1 }.wf = false ∧ { defaults with tEHigh := 1 }.wf = false ∧
      { defaults with tHold := 39 }.wf = false ∧ { defaults with tCmd := 39 }.wf = false ∧
      { defaults with tHome := 1519 }.wf = false ∧ { defaults with tClear := 6199 }.wf = false := by decide

theorem witness_IllegalWordIsRefusedInEveryPhase :
    let s := { State.reset with phase := .failed }.withFetchWord 32 0x61000001
    s.cfg.wf = true ∧ s.resetIn ≠ some 0 ∧ s.position = [] ∧ s.transferPort = none ∧
      s.hostPort = [⟨0x61000001, 0⟩] ∧ (0x61000001#32).toNat / 2 ^ 24 % 16 ≠ 0 := by decide +kernel

theorem witness_NotReadyIsRefused :
    (Instr.columns).isHost = true ∧ Instr.columns ≠ .init ∧ State.reset.phase ≠ .ready := by decide

theorem witness_OutOfRangeIsRefused :
    (panel .g16x2 0 0).phase = .ready ∧ cols .g16x2 ≤ (16#8).toNat ∧ rows .g16x2 ≤ (2#8).toNat := by decide

theorem witness_MapperFollowsTheRowStarts :
    ((39#8).toNat < cols .g40x2 ∧ (1#8).toNat < rows .g40x2) ∧ ((19#8).toNat < cols .g20x4 ∧ (3#8).toNat < rows .g20x4) ∧
      ¬ ((16#8).toNat < cols .g16x2 ∧ (0#8).toNat < rows .g16x2) := by
  decide

-- V43: the last address of each geometry's first and last row
theorem witness_MapperIsInjective :
    addr .g20x4 19 3 = some 0x67 ∧ addr .g20x4 19 0 = some 0x13 ∧ ddramByte 0x67 = ddramByte 0x67 := by decide
theorem witness_MapperStaysInTheFormedAddresses : addr .g40x2 39 0 = some 0x27 ∧ addr .g40x2 40 0 = none := by decide

theorem witness_PulseIsSixEvents : defaults.wf = true := test_cfg_default

theorem witness_FarTransferUnderFixedDelay :
    let s := panel .g16x2 0 0
    s.cfg.wf = true ∧ s.cfg.strategy = .fixedDelay ∧ farByte .clearDisplay = some (false, 0x01) ∧
      farByte (.dataByte 0) = some (true, 0) ∧ s.Acks (primitives (fixedTransfer s.cfg false 0x01)) :=
  ⟨by decide, rfl, rfl, rfl, gpio_acks _ _ rfl rfl⟩

theorem witness_FarTransferUnderPolling :
    ready.cfg.wf = true ∧ ready.cfg.strategy = .busyFlagPolling ∧ farByte (.dataByte 0) = some (true, 0) ∧
      ready.Acks (primitives (polledTransfer ready.cfg true 0 [0])) ∧
      (ready.answerAt (primitives (transferEvents ready.cfg true 0) + 4)).data = 0 :=
  ⟨by decide, rfl, rfl, gpio_acks _ _ rfl rfl, by decide +kernel⟩

theorem witness_SyncPulseIsOnePulse : defaults.wf = true ∧ (panel .g16x2 0 0).Acks 4 :=
  ⟨test_cfg_default, gpio_acks _ _ rfl rfl⟩

/-- A block that stands in a poll, whose next read answers `v`. -/
def polling (v : Nibble) (t : Transport) : State :=
  { ready with
    transport := t
    position := pollWait.drop 3
    lines := { e := false, rs := false, rw := true, dir := .input, data := 0 }
    script := [⟨true, 0⟩, ⟨true, v⟩, ⟨true, 0⟩, ⟨true, 0⟩, ⟨true, 0⟩, ⟨true, 0⟩, ⟨true, 0⟩] }

theorem witness_BusySampleKeepsPolling :
    let s := polling 0x8 .directGpio
    s.cfg.wf = true ∧ s.position = .poll :: emitting pollExit ∧ s.Acks (primitives (pollIteration s.cfg 0)) ∧
      8 ≤ (s.answerAt 1).data.toNat :=
  ⟨by decide, rfl, gpio_acks _ _ rfl rfl, by decide⟩

theorem witness_ReadySampleEndsPolling :
    let s := polling 0x7 .directGpio
    s.cfg.wf = true ∧ s.position = [.poll, .emit (.dir .output), .emit (.rw false)] ∧
      s.Acks (primitives (pollIteration s.cfg 0) + 2) ∧ (s.answerAt 1).data.toNat < 8 :=
  ⟨by decide, rfl, gpio_acks _ _ rfl rfl, by decide⟩

/-- CLEAR of a host, standing in its poll after one busy sample; the next reads answer 0. -/
def clearing : State := run (clearProgram waiting.cfg) waiting

-- with the rest of a host operation behind the wait
theorem witness_ReadySampleEndsPolling_host :
    clearing.cfg.wf = true ∧
      clearing.position = .poll :: .emit (.dir .output) :: .emit (.rw false) :: [.setCursor 0 0, .ret .ok] ∧
      clearing.Acks (primitives (pollIteration clearing.cfg 0) + 2) ∧ (clearing.answerAt 1).data.toNat < 8 :=
  ⟨by decide +kernel, by decide +kernel, gpio_acks _ _ (by decide +kernel) (by decide +kernel), by decide +kernel⟩

/-- An idle block stays as it is, however many steps it takes. -/
theorem idle_run {s : State} (hc : s.cfg.wf = true) (ht : s.task = .idle) (n : Nat) :
    Host.Core.run Sys2Proof.core n s = .next s := by
  induction n with
  | zero => rfl
  | succ n ih => rw [core_run_succ (show step s = .next s by simp [step, hc, ht])]; exact ih

/-- ENV_BF_CLEARS of a block in a poll, one of whose next samples is ready, that is idle after one more step. -/
theorem clears_in_one {s : State} {ms : List Micro} (hc : s.cfg.wf = true) (hr : s.resetIn = none)
    (hp : s.position = .poll :: ms) (hk : s.PollClears) (ht : (run (.poll :: ms) s).task = .idle)
    (hw : (run (.poll :: ms) s).cfg.wf = true) (hq : (run (.poll :: ms) s).position = []) : s.EnvBfClears := by
  intro n t h hi
  cases n with
  | zero => cases h; exact hk
  | succ n =>
    rw [core_run_succ (step_resume hc (by simp [hr]) hp), idle_run hw ht] at h
    cases h
    simp [State.inPoll, hq] at hi

theorem clearing_clears : clearing.EnvBfClears :=
  clears_in_one (ms := [.emit (.dir .output), .emit (.rw false), .setCursor 0 0, .ret .ok]) (by decide +kernel)
    (by decide +kernel) (by decide +kernel) ⟨0, by decide +kernel⟩ (by decide +kernel) (by decide +kernel) (by decide +kernel)

theorem witness_OperationsEndWhenTheBusyFlagClears : clearing.cfg.wf = true ∧ clearing.EnvBfClears :=
  ⟨by decide +kernel, clearing_clears⟩

theorem acksAll_gpio {s : State} (h1 : s.transport = .directGpio) (h2 : s.resetIn = none) : s.AcksAll :=
  ⟨h2, fun _ => by simp [State.ackedAt, h1]⟩

theorem witness_PolledTraceOfEveryOperation :
    waiting.cfg.wf = true ∧ waiting.cfg.strategy = .busyFlagPolling ∧ waiting.phase = .ready ∧
      hostTransfers waiting .clear = some [(false, 0x01)] ∧ waiting.AcksAll ∧
      exec .clear waiting = .next clearing ∧ clearing.EnvBfClears :=
  ⟨by decide, rfl, rfl, rfl, acksAll_gpio rfl rfl, rfl, clearing_clears⟩

/-- INIT of a polling block, standing in its first poll after one busy sample; every later read answers 0. -/
def initialising : State := run (initProgram (polled 25 0x8 State.reset).cfg) (polled 25 0x8 State.reset)

theorem witness_PolledTraceOfInit :
    let s := polled 25 0x8 State.reset
    s.cfg.wf = true ∧ s.cfg.strategy = .busyFlagPolling ∧ s.AcksAll ∧
      exec .init s = .next initialising ∧ initialising.EnvBfClears :=
  ⟨by decide, rfl, acksAll_gpio rfl rfl, rfl,
    clears_in_one (ms := (initProgram (polled 25 0x8 State.reset).cfg).drop 48) (by decide +kernel) (by decide +kernel)
      (by decide +kernel) ⟨0, by decide +kernel⟩ (by decide +kernel) (by decide +kernel) (by decide +kernel)⟩

/-- A block in a poll whose controller stays busy for at least two iterations. -/
def hung : State := { polling 0x8 .directGpio with script := List.replicate 12 ⟨true, 0xF⟩ }

theorem witness_BusyControllerHangsTheOperation :
    hung.cfg.wf = true ∧ hung.position = .poll :: emitting pollExit ∧
      hung.Acks (2 * primitives (pollIteration hung.cfg 0)) ∧
      ∀ k, k < 2 → 8 ≤ (hung.answerAt (k * primitives (pollIteration hung.cfg 0) + 1)).data.toNat :=
  ⟨by decide, rfl, gpio_acks _ _ rfl rfl, by decide +kernel⟩

theorem witness_FixedDelayOperationsEnd :
    let s := panel .g16x2 0 0
    s.cfg.strategy = .fixedDelay ∧ s.position = [] ∧ after (·.phase) .clear s = some .ready := by decide +kernel

theorem witness_InitInitialises :
    State.reset.Grants (cost State.reset.cfg (initProgram State.reset.cfg)) ∧
      ready.Grants (cost ready.cfg (initProgram ready.cfg)) :=
  ⟨gpio_grants _ _ rfl rfl rfl, Grants.mono ready_grants (by decide +kernel)⟩

theorem witness_DefaultInitTrace : State.reset.cfg = defaults ∧ State.reset.Acks 61 := ⟨rfl, gpio_acks _ _ rfl rfl⟩

theorem witness_OnlyInitLeavesResetAndFailed :
    let s := State.reset.withFetchWord 32 0x40000000
    s.position = [] ∧ s.transferPort = none ∧ s.resetIn = none ∧ stepped (·.phase) s = some .reset := by decide +kernel

theorem witness_WriteAtWritesItsCell :
    ready.phase = .ready ∧ ready.lines.atRest = true ∧ addr ready.cfg.geom 15 1 = some 0x4F ∧
      ready.Grants (cost ready.cfg (writeAtProgram ready.cfg 0x4F 0)) :=
  ⟨rfl, rfl, by decide, Grants.mono ready_grants (by decide +kernel)⟩

-- the clauses of the advance: inside a row, at the end of a row, at the end of the grid
theorem witness_WriteStreamWritesAtTheCursor :
    ∀ s ∈ [panel .g16x2 14 0, panel .g16x2 15 0, panel .g16x2 15 1],
      s.phase = .ready ∧ s.lines.atRest = true ∧ (0x41#8) ≠ s.cfg.lfCode ∧
        (addr s.cfg.geom s.curCol s.curRow).isSome ∧ s.Grants (cost s.cfg (writeStreamProgram s.cfg 0 0x41)) := by
  intro s hs
  simp only [List.mem_cons, List.not_mem_nil, or_false] at hs
  rcases hs with rfl | rfl | rfl <;> exact ⟨rfl, rfl, by decide, by decide, gpio_grants _ _ rfl rfl rfl⟩

theorem witness_LineFeedMovesToTheNextRow :
    (panel .g20x4 4 3).phase = .ready ∧ (panel .g20x4 4 3).curRow.toNat < rows (panel .g20x4 4 3).cfg.geom := by decide

theorem witness_WriteStreamOffGridFaults :
    let s := panel .g16x2 16 0
    let u := panel .g16x2 0 2
    s.phase = .ready ∧ (0x41#8) ≠ s.cfg.lfCode ∧ cols s.cfg.geom ≤ s.curCol.toNat ∧ rows u.cfg.geom ≤ u.curRow.toNat := by
  decide

theorem witness_MoveToSetsTheCursor :
    (panel .g16x2 0 0).phase = .ready ∧ (15#8).toNat < cols .g16x2 ∧ (1#8).toNat < rows .g16x2 := by decide

theorem witness_ClearSendsOneCommand :
    ready.phase = .ready ∧ ready.lines.atRest = true ∧ ready.Grants (cost ready.cfg (clearProgram ready.cfg)) :=
  ⟨rfl, rfl, Grants.mono ready_grants (by decide +kernel)⟩

theorem witness_HomeSendsOneCommand :
    ready.phase = .ready ∧ ready.lines.atRest = true ∧ ready.Grants (cost ready.cfg (homeProgram ready.cfg)) :=
  ⟨rfl, rfl, Grants.mono ready_grants (by decide +kernel)⟩

theorem witness_QueriesReturnTheGeometry : (panel .g20x4 0 0).phase = .ready ∧ State.reset.phase ≠ .ready := by decide

theorem witness_OneRowOfAdvancesWraps :
    (panel .g20x4 0 3).curCol = 0 ∧ (panel .g20x4 0 3).curRow.toNat < rows (panel .g20x4 0 3).cfg.geom := by decide

theorem witness_DisplayModesChangeTheirBit :
    ready.phase = .ready ∧ ready.lines.atRest = true ∧ displayAfter ready.displayControl .setCursorOn = some 0b110 ∧
      ready.Grants (cost ready.cfg (displayProgram ready.cfg 0b110)) :=
  ⟨rfl, rfl, rfl, Grants.mono ready_grants (by decide +kernel)⟩

theorem witness_EntryModesChangeTheirBit :
    ready.phase = .ready ∧ ready.lines.atRest = true ∧ entryAfter ready.entryMode .setShiftOn = some 0b11 ∧
      ready.Grants (cost ready.cfg (entryProgram ready.cfg 0b11)) :=
  ⟨rfl, rfl, rfl, Grants.mono ready_grants (by decide +kernel)⟩

theorem witness_CursorOnThenOffRestoresTheShadow :
    ready.phase = .ready ∧ ready.displayControl.getLsbD 1 = false ∧
      ready.Grants (2 * cost ready.cfg (cmd ready.cfg 0x0E)) :=
  ⟨rfl, by decide, Grants.mono ready_grants (by decide +kernel)⟩

theorem witness_DefineGlyphSendsEightBytes :
    ready.phase = .ready ∧ ready.lines.atRest = true ∧ (7#8).toNat ≤ 7 ∧
      ready.Grants (cost ready.cfg (glyphProgram ready.cfg (BitVec.ofNat 3 (7#8).toNat) 0)) :=
  ⟨rfl, rfl, by decide, Grants.mono ready_grants (by decide +kernel)⟩

theorem witness_InvalidSlotIsASilentNoOp : 7 < (8#8).toNat := by decide

theorem witness_FixedDelayTraceOfEveryOperation :
    let s := panel .g16x2 0 0
    s.cfg.wf = true ∧ s.cfg.strategy = .fixedDelay ∧ s.phase = .ready ∧ hostTransfers s .clear = some [(false, 0x01)] ∧
      s.Acks 200 :=
  ⟨by decide, rfl, rfl, rfl, gpio_acks _ _ rfl rfl⟩

theorem witness_EveryInstructionKeepsItsFrame :
    (panel .g16x2 0 0).resetIn = none ∧ after (·.phase) .setDisplayOff (panel .g16x2 0 0) = some .ready := by
  decide +kernel

theorem witness_DurationsUnderFixedDelay :
    let s := panel .g16x2 15 1
    s.cfg = Config.standard .g16x2 .fixedDelay .w4 ∧ s.phase = .ready ∧ inRange .g16x2 s.curCol s.curRow = true ∧
      s.Acks 200 ∧ durationBound .g16x2 (.writeAt 15 1 0) = some 256 ∧ durationBound .g16x2 (.writeAt 16 1 0) = some 0 ∧
      durationBound .g16x2 (.defineGlyph 7 0) = some 1152 ∧ durationBound .g16x2 (.defineGlyph 8 0) = some 0 :=
  ⟨rfl, rfl, by decide, gpio_acks _ _ rfl rfl, by decide, by decide, by decide, by decide⟩

theorem witness_NackEndsTheOperation :
    nacked.cfg.strategy = .fixedDelay ∧ nacked.phase = .ready ∧ (hostProgram nacked (.writeStream 0x41)).isSome ∧
      nacked.resetIn = none ∧ (∀ k, k < 9 → nacked.ackedAt k = true) ∧ nacked.ackedAt 9 = false ∧
      9 < cost nacked.cfg (writeStreamProgram nacked.cfg 0 0x41) := by decide +kernel

theorem witness_NackDuringPollingEndsTheOperation :
    let s := { polling 0 .i2cExpander with script := [⟨true, 0⟩, ⟨false, 0⟩] }
    s.cfg.wf = true ∧ s.position = .poll :: emitting pollExit ∧ s.resetIn = none ∧
      1 < primitives (pollIteration s.cfg 0) ∧ (∀ k, k < 1 → s.ackedAt k = true) ∧ s.ackedAt 1 = false := by decide +kernel

theorem witness_DirectGpioNeverFails :
    State.reset.transport = .directGpio ∧ State.reset.phase ≠ .failed ∧ after (·.phase) .init State.reset = some .ready := by
  decide +kernel

-- the rest of an operation that stands in a poll, and a step from rest
theorem witness_DirectGpioNeverFails_step :
    (clearing.transport = .directGpio ∧ clearing.inPoll = true ∧ clearing.settled.phase ≠ .failed ∧
      stepped (fun t => (t.position, t.phase)) clearing = some ([], .ready)) ∧
    let s := State.reset.withFetchWord 32 0
    s.transport = .directGpio ∧ s.settled.phase ≠ .failed ∧ stepped (·.phase) s = some .ready := by decide +kernel

theorem witness_ResetInputAtRest :
    { panel .g16x2 0 0 with resetIn := some 0 }.cfg.wf = true ∧ { panel .g16x2 0 0 with resetIn := some 0 }.resetIn = some 0 := by
  decide

theorem witness_ResetInputCutsTheOperation :
    let s := { panel .g16x2 5 1 with resetIn := some 16 }
    s.cfg.strategy = .fixedDelay ∧ s.phase = .ready ∧ hostProgram s .clear = some (clearProgram s.cfg) ∧
      s.resetIn = some 16 ∧ 16 ≤ (clearProgram s.cfg).countP Micro.emits ∧
      ∀ k, k < cost s.cfg (clearProgram s.cfg) → s.ackedAt k = true := by decide +kernel

/-- A polling block on an expander: primitive `j` is the first not acknowledged, and a poll before primitive 17 reads busy. In
CLEAR 9 primitives are the transfer's, 3 the poll's entry, 5 each iteration's, 2 the exit's. -/
def nackedAt (j : Nat) : State :=
  { polled 0 0 (panel .g16x2 0 0) with
    transport := .i2cExpander
    script := List.replicate (min j 17) ⟨true, 0x8⟩ ++ List.replicate (j - 17) ⟨true, 0⟩ ++ [⟨false, 0⟩] }

-- in the entry of the poll, at each end of its second iteration, in its exit, and after the operation
theorem witness_NackAnywhereEndsTheOperation :
    ∀ j ∈ [11, 17, 21, 23, 24],
      (nackedAt j).cfg.wf = true ∧ (nackedAt j).phase = .ready ∧
        hostProgram (nackedAt j) .clear = some (clearProgram (nackedAt j).cfg) ∧ (nackedAt j).resetIn = none ∧
        (∀ k, k < j → (nackedAt j).ackedAt k = true) ∧ (nackedAt j).ackedAt j = false := by decide +kernel

-- R255 and R167: the first ends in the instruction's own step, the others in the second
theorem test_nack_entry :
    after (fun t => (t.phase, t.trace.getLast?, t.output.map (·.status))) .clear (nackedAt 11)
      = some (.failed, some (.rw true), some .errTransport) := by decide +kernel
theorem test_nack_second_step :
    [17, 23, 24].map (fun j => stepped (fun t => (t.phase, t.trace.getLast?, t.output.map (·.status)))
      (run (clearProgram (nackedAt j).cfg) (nackedAt j)))
      = [some (.failed, some (.e true), some .errTransport), some (.failed, some (.rw false), some .errTransport),
        some (.ready, some (.rw false), some .ok)] := by decide +kernel

-- inside the second iteration, after the last event, and after the operation
theorem witness_ResetAnywhereCutsTheOperation :
    ∀ n ∈ [30, 38, 39],
      let s := { waiting with resetIn := some n }
      s.cfg.wf = true ∧ s.phase = .ready ∧ hostProgram s .clear = some (clearProgram s.cfg) ∧ s.resetIn = some n ∧ 0 < n ∧
        (∀ k, k < n → s.ackedAt k = true) ∧
        stepped (fun t => (t.phase, t.trace.length, t.resetIn)) (run (clearProgram s.cfg) s)
          = some (if n = 39 then (.ready, 38, some 1) else (.reset, n, none)) := by decide +kernel

theorem witness_StepKeepsTheQuiescentInvariant :
    let s := (panel .g16x2 15 1).withFetchWord 32 0x20000041
    s.settles = true ∧ stepped (·.phase) s = some .ready := by decide +kernel

theorem witness_StepRespectsTheDirection :
    let s := (panel .g16x2 15 1).withFetchWord 32 0x20000041
    s.settles = true ∧ programDirectionOk s.lines s.position = true ∧ s.transferPort = none ∧
      stepped (·.trace.length) s = some 32 := by decide +kernel

theorem witness_StepEmitsOnlyWhatTheConfigurationAllows :
    let s := polling 0x8 .directGpio
    s.position.all (Micro.allowed s.cfg) = true ∧ stepped (·.trace.length) s = some 9 := by decide +kernel

theorem witness_MergedAndLongerDelaysConform :
    40 ≤ 41 ∧ ([BusEvent.rs false].any BusEvent.isPrimitive = true ∧ 40 < 41) ∧
      conforms [.rs false, .delay 40, .e true] [.rs false, .delay 41, .e true] = true := by decide

end Sys2Proof.Tests
end

section
/-!
SUPPORT. Which configurations are not admitted (R6, R7, R142), and that a step refuses exactly those.
-/

namespace Sys2Proof.Machine

/-! ## The conditions of admission -/

theorem readPathWf_eq_false (c : Config) :
    c.readPathWf = false ↔ c.strategy = .busyFlagPolling ∧ c.canRead = false := by
  cases h : c.strategy <;> simp [Config.readPathWf, h]

theorem timingWf_eq_false (c : Config) :
    c.timingWf = false ↔ c.tELow < 2 ∨ c.tEHigh < 2 ∨ c.tHold < 40 ∨ c.tCmd < 40 ∨ c.tHome < 1520 ∨ c.tClear < 6200 := by
  simp only [Config.timingWf, Bool.and_eq_false_iff, decide_eq_false_iff_not, Nat.not_le, or_assoc]

/-- A later handshake entry is bad where its delay is below 100 and another pulse follows. -/
theorem syncTailWf_eq_false (seq : List (Nibble × Nat)) :
    syncTailWf seq = false ↔ ∃ k n d, k + 1 < seq.length ∧ seq[k]? = some (n, d) ∧ d < 100 := by
  induction seq with
  | nil => simp [syncTailWf]
  | cons p rest ih =>
    obtain ⟨n, d⟩ := p
    cases rest with
    | nil => simp [syncTailWf]
    | cons q rest =>
      rw [syncTailWf, Bool.and_eq_false_iff, ih, decide_eq_false_iff_not, Nat.not_le]
      · constructor
        · rintro (h | ⟨k, n', d', hk, he, hd⟩)
          · exact ⟨0, n, d, by simp, rfl, h⟩
          · exact ⟨k + 1, n', d', Nat.succ_lt_succ hk, he, hd⟩
        · rintro ⟨k, n', d', hk, he, hd⟩
          cases k with
          | zero => cases he; exact .inl hd
          | succ k => exact .inr ⟨k, n', d', Nat.lt_of_succ_lt_succ hk, he, hd⟩
      · simp

theorem syncSeqWf_eq_false (seq : List (Nibble × Nat)) :
    syncSeqWf seq = false ↔
      seq.length < 2 ∨
      (∃ n d, seq[0]? = some (n, d) ∧ d < 4100) ∨
      (∃ n d, seq[1]? = some (n, d) ∧ d < 100) ∨
      (∃ k n d, 2 ≤ k ∧ k + 1 < seq.length ∧ seq[k]? = some (n, d) ∧ d < 100) := by
  match seq with
  | [] => simp [syncSeqWf]
  | [_] => simp [syncSeqWf]
  | (n1, d1) :: (n2, d2) :: rest =>
    have later : syncTailWf rest = false ↔ ∃ k n d, 2 ≤ k ∧ k + 1 < ((n1, d1) :: (n2, d2) :: rest).length ∧
        ((n1, d1) :: (n2, d2) :: rest)[k]? = some (n, d) ∧ d < 100 := by
      rw [syncTailWf_eq_false]
      constructor
      · rintro ⟨k, n, d, hk, he, hd⟩
        exact ⟨k + 2, n, d, by omega, by simp; omega, he, hd⟩
      · rintro ⟨k, n, d, h2, hk, he, hd⟩
        obtain ⟨j, rfl⟩ := Nat.exists_eq_add_of_le' h2
        exact ⟨j, n, d, by simp at hk; omega, he, hd⟩
    rw [← later]
    rw [syncSeqWf, Bool.and_eq_false_iff, Bool.and_eq_false_iff, or_assoc]
    simp

/-- The configurations that are not admitted, condition by condition. -/
theorem wf_eq_false (c : Config) :
    c.wf = false ↔ c.readPathWf = false ∨ syncSeqWf c.syncSeq = false ∨ c.timingWf = false := by
  simp only [Config.wf, Bool.and_eq_false_iff, or_assoc]

/-! ## The refusal -/

/-- No instruction is without a meaning. -/
theorem exec_ne_refused (i : Instr) (s : State) (r : Refusal) : exec i s ≠ .refused r := by
  cases hi : i.isHost with
  | true =>
    rcases exec_host_cases (s := s) hi with ⟨_, _, _, h⟩ | ⟨_, h⟩ | ⟨_, _, _, h⟩ | ⟨_, _, _, _, _, h⟩ | ⟨_, _, h⟩ |
      ⟨_, h⟩ <;> simp [h]
  | false =>
    rcases exec_far (s := s) hi with ⟨_, _, _, h⟩ | ⟨_, _, h⟩ <;> simp [h]

theorem step_of_not_wf {s : State} (h : s.cfg.wf = false) : step s = .refused .configurationNotAdmitted :=
  if_neg (by simp [h])

/-- With an admitted configuration a step is refused for a command byte that is never formed, if at all. -/
theorem refusal_of_wf {s : State} {r : Refusal} (hw : s.cfg.wf = true) (h : step s = .refused r) :
    r = .commandNeverFormed := by
  rw [step, if_pos hw] at h
  cases ht : s.task with
  | transfer x =>
    cases hd : decodeTransfer x with
    | instr i => simp only [ht, hd] at h; exact absurd h (exec_ne_refused i _ r)
    | reject why => simp only [ht, hd] at h; cases h; rfl
  | word w =>
    cases hd : decodeHost w with
    | instr i => simp only [ht, hd] at h; exact absurd h (exec_ne_refused i _ r)
    | reject why => simp only [ht, hd] at h; cases h
  | reset => simp only [ht] at h; cases h
  | resume => simp only [ht] at h; cases h
  | idle => simp only [ht] at h; cases h

theorem step_refused_configuration_iff (s : State) :
    step s = .refused .configurationNotAdmitted ↔ s.cfg.wf = false := by
  refine ⟨fun h => Bool.eq_false_iff.mpr fun hw => ?_, step_of_not_wf⟩
  cases refusal_of_wf hw h

/-- Settles O8: a step is refused for its configuration exactly where `Config.wf` fails, one clause for each condition. -/
theorem badConfigurationIsRefused : Obligations.BadConfigurationIsRefused := by
  intro s
  rw [step_refused_configuration_iff, wf_eq_false, readPathWf_eq_false, syncSeqWf_eq_false, timingWf_eq_false]
  simp only [or_assoc]

end Sys2Proof.Machine
end

section
/-!
SUPPORT. What the configuration lets the block emit (R10, R51, R286): every micro-sequence an instruction can run is
allowed, and running an allowed one emits only what is allowed and leaves only such to do.
-/

namespace Sys2Proof.Machine

/-! ## Allowed events -/

@[simp] theorem allowed_delayFor (c : Config) (t : Nat) : (delayFor t).all (BusEvent.allowed c) = true := by
  unfold delayFor
  split
  · rfl
  · next h => simp [BusEvent.allowed, h]

@[simp] theorem allowed_pulse (c : Config) : (pulse c).all (BusEvent.allowed c) = true := by
  simp [pulse, BusEvent.allowed]

@[simp] theorem allowed_xfer (c : Config) (b : Byte) : (xfer c b).all (BusEvent.allowed c) = true := by
  cases hw : c.busWidth <;> simp [xfer, nibble, byte8, BusEvent.allowed, hw]

@[simp] theorem allowed_syncx (c : Config) (n : Nibble) : (syncx c n).all (BusEvent.allowed c) = true := by
  cases hw : c.busWidth <;> simp [syncx, nibble, byte8, BusEvent.allowed, hw]

@[simp] theorem allowed_preset (c : Config) : (preset c).all (BusEvent.allowed c) = true := by
  simp [preset, BusEvent.allowed]

@[simp] theorem allowed_resync (c : Config) : (resync c).all (BusEvent.allowed c) = true := by
  cases ho : c.oledResync <;> simp [resync, ho]

@[simp] theorem allowed_handshake (c : Config) : (handshake c).all (BusEvent.allowed c) = true := by
  simp [handshake]

/-- A poll iteration reads, so it takes the polling strategy. -/
theorem allowed_pollEvents {c : Config} (h : c.strategy = .busyFlagPolling) (v : Nibble) :
    (pollEvents c v).all (BusEvent.allowed c) = true := by
  cases hw : c.busWidth <;> simp [pollEvents, pollRise, pollFall, BusEvent.allowed, h, hw]

/-! ## Allowed micro-sequences -/

@[simp] theorem allowed_emitting (c : Config) (evs : List BusEvent) :
    (emitting evs).all (Micro.allowed c) = evs.all (BusEvent.allowed c) := by
  rw [emitting, List.all_map]; rfl

/-- The strategy that polls is the one that allows it (R8, R160). -/
@[simp] theorem allowed_waitFor (c : Config) (k : WaitClass) : (waitFor c k).all (Micro.allowed c) = true := by
  cases hs : c.strategy with
  | fixedDelay => simp [waitFor, hs, fixedWait]
  | busyFlagPolling => simp [waitFor, hs, pollWait, pollEntry, pollExit, Micro.allowed, BusEvent.allowed]

@[simp] theorem allowed_cmd (c : Config) (b : Byte) : (cmd c b).all (Micro.allowed c) = true := by
  simp [cmd, Micro.allowed, BusEvent.allowed]

@[simp] theorem allowed_data (c : Config) (d : Byte) : (data c d).all (Micro.allowed c) = true := by
  simp [data, Micro.allowed, BusEvent.allowed]

@[simp] theorem allowed_farProgram (c : Config) (rs : Bool) (b : Byte) :
    (farProgram c rs b).all (Micro.allowed c) = true := by
  cases rs
  · exact allowed_cmd c b
  · exact allowed_data c b

theorem allowed_initProgram (c : Config) : (initProgram c).all (Micro.allowed c) = true := by
  simp [initProgram, Micro.allowed]

theorem allowed_charProgram (c : Config) (a : BitVec 7) (code : Byte) :
    (charProgram c a code).all (Micro.allowed c) = true := by
  simp [charProgram]

theorem allowed_glyphProgram (c : Config) (slot : BitVec 3) (glyph : BitVec 64) :
    (glyphProgram c slot glyph).all (Micro.allowed c) = true := by
  simp [glyphProgram, Micro.allowed]

theorem allowed_hostProgram {s : State} {i : Instr} {p : List Micro} (h : hostProgram s i = some p) :
    p.all (Micro.allowed s.cfg) = true := by
  rcases hostProgram_cases h with ⟨_, rfl⟩ | ⟨_, _, _, a, _, _, rfl⟩ | ⟨_, a, _, _, _, rfl⟩ | ⟨_, rfl⟩ | ⟨_, rfl⟩ |
    ⟨_, _, _, _, rfl⟩ | ⟨_, _, rfl⟩ | ⟨_, _, rfl⟩
  · exact allowed_initProgram _
  · rw [writeAtProgram, List.all_append, allowed_charProgram]; rfl
  · rw [writeStreamProgram, List.all_append, allowed_charProgram]; rfl
  · rw [clearProgram, List.all_append, allowed_cmd]; rfl
  · rw [homeProgram, List.all_append, allowed_cmd]; rfl
  · exact allowed_glyphProgram _ _ _
  · rw [displayProgram, List.all_append, List.all_append, allowed_cmd]; rfl
  · rw [entryProgram, List.all_append, List.all_append, allowed_cmd]; rfl

/-- Every micro-sequence an instruction runs is allowed. -/
theorem Runs.allowed {s : State} {i : Instr} {p : List Micro} (h : Runs s i p) :
    p.all (Micro.allowed s.cfg) = true := by
  rcases h with ⟨h, _⟩ | ⟨_, ⟨rs, b, rfl⟩ | ⟨n, rfl⟩⟩
  · exact allowed_hostProgram h
  · exact allowed_farProgram _ _ _
  · rw [allowed_emitting, allowed_syncx]

/-! ## What a run emits -/

/-- From `s` to `t` the configuration stands and only events it allows were emitted. -/
def EmitsAllowed (s t : State) : Prop :=
  t.cfg = s.cfg ∧ ∃ evs, t.trace = s.trace ++ evs ∧ evs.all (BusEvent.allowed s.cfg) = true

theorem EmitsAllowed.of_sameTrace {s t : State} (hc : t.cfg = s.cfg) (ht : t.trace = s.trace) : EmitsAllowed s t :=
  ⟨hc, [], by rw [ht, List.append_nil], rfl⟩

theorem EmitsAllowed.trans {s t u : State} (h : EmitsAllowed s t) (g : EmitsAllowed t u) : EmitsAllowed s u := by
  obtain ⟨hc, a, ha, haa⟩ := h
  obtain ⟨gc, b, hb, hba⟩ := g
  rw [hc] at hba gc
  exact ⟨gc, a ++ b, by rw [hb, ha, List.append_assoc], by rw [List.all_append, haa, hba]; rfl⟩

theorem emitsAllowed_afterAll {s : State} {evs : List BusEvent} (h : evs.all (BusEvent.allowed s.cfg) = true) :
    EmitsAllowed s (s.afterAll evs) :=
  ⟨afterAll_cfg s evs, evs, afterAll_trace s evs, h⟩

/-- An allowed action that goes on. -/
theorem emitsAllowed_of_go {m : Micro} {s t : State} (hm : m.allowed s.cfg = true) (h : m.run s = .go t) :
    EmitsAllowed s t := by
  rcases go_cases h with ⟨ev, rfl, rfl⟩ | ⟨rfl, v, rfl⟩ | ⟨_, _, rfl⟩ | ⟨_, _, rfl⟩ | ⟨_, _, rfl⟩ | ⟨_, _, _, rfl⟩ |
    ⟨_, rfl⟩ | ⟨_, _, rfl⟩
  · exact emitsAllowed_afterAll (evs := [ev]) (by rw [List.all_cons]; exact Bool.and_eq_true_iff.mpr ⟨hm, rfl⟩)
  · exact emitsAllowed_afterAll (allowed_pollEvents (eq_of_beq hm) v)
  all_goals exact .of_sameTrace rfl rfl

/-- What an allowed action can have emitted when it is cut short. -/
theorem allowed_of_cutEvents {c : Config} {m : Micro} {evs : List BusEvent} (hm : m.allowed c = true)
    (h : cutEvents c m evs) : evs.all (BusEvent.allowed c) = true := by
  rcases h with ⟨ev, rfl, rfl⟩ | ⟨rfl, v, n, rfl⟩
  · simpa [Micro.allowed] using hm
  · have hp := List.all_eq_true.mp (allowed_pollEvents (eq_of_beq hm) v)
    exact List.all_eq_true.mpr fun ev hev => hp ev (List.mem_of_mem_take hev)

/-- An allowed action that is cut short. -/
theorem emitsAllowed_of_halt {m : Micro} {s t : State} (hm : m.allowed s.cfg = true) (h : m.run s = .halt t) :
    EmitsAllowed s t := by
  obtain ⟨evs, hcut, rfl | rfl⟩ := halt_cases h
  all_goals
    refine (emitsAllowed_afterAll (allowed_of_cutEvents hm hcut)).trans (.of_sameTrace ?_ ?_)
    · simp
    · simp

/-- From `s` to `t` only allowed events were emitted, and only such are left to emit. -/
def StaysAllowed (s t : State) : Prop := EmitsAllowed s t ∧ t.position.all (Micro.allowed s.cfg) = true

/-- Running an allowed micro-sequence, whatever BUS answers. -/
theorem run_staysAllowed (p : List Micro) (s : State) (hp : p.all (Micro.allowed s.cfg) = true) :
    StaysAllowed s (run p s) := by
  induction p generalizing s with
  | nil => exact ⟨.of_sameTrace rfl rfl, rfl⟩
  | cons m ms ih =>
    obtain ⟨hm, hms⟩ := Bool.and_eq_true_iff.mp ((List.all_cons ..).symm.trans hp)
    simp only [run]
    cases hr : m.run s with
    | go t =>
      have hgo := emitsAllowed_of_go hm hr
      obtain ⟨he, hpos⟩ := ih t (by rw [hgo.1]; exact hms)
      rw [hgo.1] at hpos
      exact ⟨hgo.trans he, hpos⟩
    | wait t =>
      obtain ⟨rfl, v, rfl⟩ := wait_cases hr
      exact ⟨emitsAllowed_afterAll (allowed_pollEvents (eq_of_beq hm) v), hp⟩
    | halt t => exact ⟨emitsAllowed_of_halt hm hr, by rw [(halt_position hr).1]; rfl⟩

/-- An instruction, whatever the phase, with only allowed actions left in the position. -/
theorem exec_staysAllowed {i : Instr} {s t : State} (hp : s.position.all (Micro.allowed s.cfg) = true)
    (h : exec i s = .next t) : StaysAllowed s t := by
  rcases exec_next_cases h with ⟨p, hr, rfl⟩ | ⟨_, rfl⟩ | ⟨_, rfl⟩ | ⟨_, ⟨_, _, rfl⟩ | ⟨_, _, _, _, rfl⟩⟩
  · exact run_staysAllowed p s hr.allowed
  all_goals exact ⟨.of_sameTrace rfl rfl, hp⟩

theorem step_staysAllowed {s t : State} (hp : s.position.all (Micro.allowed s.cfg) = true) (h : step s = .next t) :
    StaysAllowed s t := by
  rcases step_next_cases h with rfl | ⟨_, rfl⟩ | ⟨_, _, _, _, _, h⟩ | ⟨_, _, _, _, _, ⟨_, _, h⟩ | rfl⟩ | ⟨_, _, _, rfl⟩
  · exact ⟨.of_sameTrace (by simp) (by simp), by simp⟩
  · exact run_staysAllowed _ s hp
  · exact exec_staysAllowed (s := s.takeTransfer) hp h
  · exact exec_staysAllowed (s := s.takeWord) hp h
  all_goals exact ⟨.of_sameTrace rfl rfl, hp⟩

/-- Settles O50: every way a step answers a next state either emits nothing or runs a micro-sequence that the
configuration allows. -/
theorem stepEmitsOnlyWhatTheConfigurationAllows : Obligations.StepEmitsOnlyWhatTheConfigurationAllows := by
  intro s t hp h
  obtain ⟨⟨hc, hevs⟩, hpos⟩ := step_staysAllowed hp h
  exact ⟨hc, hpos, hevs⟩

end Sys2Proof.Machine
end

section
/-!
SUPPORT. Timing conformance (R11): two traces that share their beginning conform exactly as far as the delays right after
it and the rest do.
-/

namespace Sys2Proof.Machine

/-- The sum of the delays before the first event that is no delay. -/
def leadingDelay (evs : List BusEvent) : Nat := delaySum (evs.takeWhile (!·.isPrimitive))

theorem leadingDelay_primitive {ev : BusEvent} (h : ev.isPrimitive = true) (evs : List BusEvent) :
    leadingDelay (ev :: evs) = 0 := by
  simp [leadingDelay, h]

theorem leadingDelay_delay {ev : BusEvent} (h : ev.isPrimitive = false) (evs : List BusEvent) :
    leadingDelay (ev :: evs) = ev.duration + leadingDelay evs := by
  simp [leadingDelay, h]

theorem spaced_primitive {ev : BusEvent} (h : ev.isPrimitive = true) (evs : List BusEvent) :
    spaced (ev :: evs) = (ev, leadingDelay evs) :: spaced evs := if_pos h

theorem spaced_delay {ev : BusEvent} (h : ev.isPrimitive = false) (evs : List BusEvent) :
    spaced (ev :: evs) = spaced evs := if_neg (by simp [h])

/-- What `spaced` compares is the trace without its delays, in order. -/
theorem spaced_events (evs : List BusEvent) : (spaced evs).map (·.1) = evs.filter BusEvent.isPrimitive := by
  induction evs with
  | nil => rfl
  | cons ev evs ih =>
    cases h : ev.isPrimitive with
    | true => simp [spaced_primitive h, h, ih]
    | false => simp [spaced_delay h, h, ih]

/-- The same event first: the delays after it are compared, and then the rest. -/
theorem conforms_primitive {ev : BusEvent} (h : ev.isPrimitive = true) (xs ys : List BusEvent) :
    conforms (ev :: xs) (ev :: ys) = true ↔ leadingDelay xs ≤ leadingDelay ys ∧ conforms xs ys = true := by
  simp [conforms, spaced_primitive h, and_left_comm]

/-- Delays before the first other event are not compared (log entry 27). -/
theorem conforms_delay {d e : BusEvent} (hd : d.isPrimitive = false) (he : e.isPrimitive = false)
    (xs ys : List BusEvent) : conforms (d :: xs) (e :: ys) = conforms xs ys := by
  rw [conforms, spaced_delay hd, spaced_delay he]; rfl

theorem conforms_refl (evs : List BusEvent) : conforms evs evs = true := by
  induction evs with
  | nil => rfl
  | cons ev evs ih =>
    cases h : ev.isPrimitive with
    | true => exact (conforms_primitive h evs evs).mpr ⟨Nat.le_refl _, ih⟩
    | false => rw [conforms_delay h h, ih]

/-- Behind the same beginning, traces that conform and wait no less at once still do. -/
theorem conforms_append_left (a : List BusEvent) {xs ys : List BusEvent} (hl : leadingDelay xs ≤ leadingDelay ys)
    (hc : conforms xs ys = true) :
    leadingDelay (a ++ xs) ≤ leadingDelay (a ++ ys) ∧ conforms (a ++ xs) (a ++ ys) = true := by
  induction a with
  | nil => exact ⟨hl, hc⟩
  | cons ev a ih =>
    obtain ⟨il, ic⟩ := ih
    rw [List.cons_append, List.cons_append]
    cases h : ev.isPrimitive with
    | true => exact ⟨by rw [leadingDelay_primitive h, leadingDelay_primitive h], (conforms_primitive h _ _).mpr ⟨il, ic⟩⟩
    | false =>
      rw [leadingDelay_delay h, leadingDelay_delay h, conforms_delay h h]
      exact ⟨Nat.add_le_add_left il _, ic⟩

/-- Behind a beginning of delays alone, both traces wait that much longer. -/
theorem leadingDelay_append {a : List BusEvent} (ha : a.any BusEvent.isPrimitive = false) (xs : List BusEvent) :
    leadingDelay (a ++ xs) = delaySum a + leadingDelay xs := by
  induction a with
  | nil => simp
  | cons ev a ih =>
    obtain ⟨h, hrest⟩ := Bool.or_eq_false_iff.mp ((List.any_cons ..).symm.trans ha)
    rw [List.cons_append, leadingDelay_delay h, ih hrest, delaySum_cons, Nat.add_assoc]

/-- Behind a beginning with some event that is no delay, conforming traces wait no less right after it. -/
theorem leadingDelay_le_of_conforms {a : List BusEvent} (ha : a.any BusEvent.isPrimitive = true)
    {xs ys : List BusEvent} (hc : conforms (a ++ xs) (a ++ ys) = true) : leadingDelay xs ≤ leadingDelay ys := by
  induction a with
  | nil => cases ha
  | cons ev a ih =>
    rw [List.cons_append, List.cons_append] at hc
    cases h : ev.isPrimitive with
    | false =>
      rw [conforms_delay h h] at hc
      exact ih (by simpa [h] using ha) hc
    | true =>
      obtain ⟨hl, hc⟩ := (conforms_primitive h _ _).mp hc
      cases hrest : a.any BusEvent.isPrimitive with
      | true => exact ih hrest hc
      | false =>
        rw [leadingDelay_append hrest, leadingDelay_append hrest] at hl
        exact Nat.le_of_add_le_add_left hl

theorem leadingDelay_delay_cons (t : Nat) (evs : List BusEvent) :
    leadingDelay (.delay t :: evs) = t + leadingDelay evs := leadingDelay_delay rfl evs

theorem merged_conforms (a b : List BusEvent) (t u : Nat) :
    conforms (a ++ [.delay t, .delay u] ++ b) (a ++ [.delay (t + u)] ++ b) = true := by
  rw [List.append_assoc, List.append_assoc]
  refine (conforms_append_left a ?_ ?_).2
  · simp only [List.cons_append, List.nil_append, leadingDelay_delay_cons]; omega
  · exact conforms_refl b

theorem lengthened_conforms (a b : List BusEvent) {t u : Nat} (h : t ≤ u) :
    conforms (a ++ [.delay t] ++ b) (a ++ [.delay u] ++ b) = true := by
  rw [List.append_assoc, List.append_assoc]
  refine (conforms_append_left a ?_ ?_).2
  · simp only [List.cons_append, List.nil_append, leadingDelay_delay_cons]; omega
  · exact conforms_refl b

theorem shortened_not_conforms {a : List BusEvent} (ha : a.any BusEvent.isPrimitive = true) (b : List BusEvent)
    {t u : Nat} (h : u < t) : conforms (a ++ [.delay t] ++ b) (a ++ [.delay u] ++ b) = false := by
  rw [List.append_assoc, List.append_assoc]
  refine Bool.eq_false_iff.mpr fun hc => ?_
  have hl := leadingDelay_le_of_conforms ha hc
  simp only [List.cons_append, List.nil_append, leadingDelay_delay_cons] at hl
  omega

theorem filter_eq_of_conforms {xs ys : List BusEvent} (h : conforms xs ys = true) :
    xs.filter BusEvent.isPrimitive = ys.filter BusEvent.isPrimitive := by
  have he := eq_of_beq (Bool.and_eq_true_iff.mp h).1
  rwa [spaced_events, spaced_events] at he

/-- Settles O53: the changed delay stands right behind the shared beginning, and only its length there is compared. -/
theorem mergedAndLongerDelaysConform : Obligations.MergedAndLongerDelaysConform :=
  ⟨fun a b t u => ⟨merged_conforms a b t u, lengthened_conforms a b⟩, fun _ b _ _ ha => shortened_not_conforms ha b,
    fun _ _ => filter_eq_of_conforms⟩

end Sys2Proof.Machine
end

section
/-!
SUPPORT. Where an operation is heading (R25, R31, R197, R287): what the actions of a micro-sequence come to, taken one after
the other, and that running one heads for the same quiescent point whatever BUS answers.
-/

namespace Sys2Proof.Machine

/-! ## The quiescent point -/

theorem quiescentOk_iff (s : State) :
    s.quiescentOk = true ↔ s.phase.quiescent = true ∧
      (s.phase = .ready → inRange s.cfg.geom s.curCol s.curRow = true ∧ s.lines.atRest = true) := by
  cases h : s.phase <;> simp [State.quiescentOk, Phase.quiescent, h]

/-- With no operation running the invariant is R31 itself. -/
theorem settles_at_rest {s : State} (h : s.position = []) : s.settles = s.quiescentOk := by
  rw [State.settles, State.settled, h, List.foldl_nil]

theorem settles_of_quiescentOk {s : State} (h : s.position = []) (hs : s.quiescentOk = true) : s.settles = true :=
  (settles_at_rest h).trans hs

/-- Outside phase Ready R31 asks nothing of the registers. -/
theorem quiescentOk_of_phase {s : State} (hq : s.phase.quiescent = true) (hr : s.phase ≠ .ready) :
    s.quiescentOk = true :=
  (quiescentOk_iff s).mpr ⟨hq, fun h => absurd h hr⟩

theorem quiescentOk_transportFailure (s : State) : (transportFailure s).quiescentOk = true :=
  quiescentOk_of_phase rfl (by simp)

theorem quiescentOk_assertReset (running : Bool) (s : State) : (assertReset running s).quiescentOk = true :=
  quiescentOk_of_phase (by simp [Phase.quiescent]) (by simp)

/-! ## The cursor stays on the grid (R197) -/

theorem inRange_iff (g : Geom) (column row : Byte) :
    inRange g column row = true ↔ column.toNat < cols g ∧ row.toNat < rows g := by
  simp [inRange]

theorem inRange_origin (g : Geom) : inRange g 0 0 = true := by cases g <;> decide

theorem nextRow_lt {g : Geom} {row : Byte} (h : row.toNat < rows g) : (nextRow g row).toNat < rows g := by
  rw [nextRow_toNat g row h]
  exact Nat.mod_lt _ (by omega)

theorem advance_inRange {s : State} (h : inRange s.cfg.geom s.curCol s.curRow = true) :
    inRange s.cfg.geom s.advance.curCol s.advance.curRow = true := by
  obtain ⟨hc, hr⟩ := (inRange_iff ..).mp h
  refine (inRange_iff ..).mpr ⟨?_, ?_⟩
  · rw [advance_curCol_toNat s hc]
    exact Nat.mod_lt _ (by omega)
  · rw [State.advance_curRow]
    split
    · exact nextRow_lt hr
    · exact hr

theorem newline_inRange {s : State} (h : inRange s.cfg.geom s.curCol s.curRow = true) :
    inRange s.cfg.geom s.newline.curCol s.newline.curRow = true :=
  (inRange_iff ..).mpr ⟨((inRange_iff ..).mp (inRange_origin _)).1, nextRow_lt ((inRange_iff ..).mp h).2⟩

theorem quiescentOk_advance {s : State} (h : s.quiescentOk = true) : s.advance.quiescentOk = true := by
  obtain ⟨hq, hr⟩ := (quiescentOk_iff s).mp h
  exact (quiescentOk_iff _).mpr ⟨hq, fun hp => ⟨advance_inRange (hr hp).1, (hr hp).2⟩⟩

theorem quiescentOk_newline {s : State} (h : s.quiescentOk = true) : s.newline.quiescentOk = true := by
  obtain ⟨hq, hr⟩ := (quiescentOk_iff s).mp h
  exact (quiescentOk_iff _).mpr ⟨hq, fun hp => ⟨newline_inRange (hr hp).1, (hr hp).2⟩⟩

theorem quiescentOk_withCursor {s : State} {column row : Byte} (hc : inRange s.cfg.geom column row = true)
    (h : s.quiescentOk = true) : ({ s with curCol := column, curRow := row } : State).quiescentOk = true := by
  obtain ⟨hq, hr⟩ := (quiescentOk_iff s).mp h
  exact (quiescentOk_iff _).mpr ⟨hq, fun hp => ⟨hc, (hr hp).2⟩⟩

/-! ## Running an operation heads where its actions lead -/

/-- The states agree in all that R31 speaks of. -/
structure Agree (s t : State) : Prop where
  cfg    : t.cfg = s.cfg
  phase  : t.phase = s.phase
  curCol : t.curCol = s.curCol
  curRow : t.curRow = s.curRow
  lines  : t.lines = s.lines

theorem Agree.quiescentOk {s t : State} (h : Agree s t) : t.quiescentOk = s.quiescentOk := by
  rw [State.quiescentOk, State.quiescentOk, h.cfg, h.phase, h.curCol, h.curRow, h.lines]

theorem Agree.effect {s t : State} (h : Agree s t) (m : Micro) : Agree (m.effect s) (m.effect t) := by
  obtain ⟨hcfg, hphase, hcol, hrow, hlines⟩ := h
  cases m with
  | emit ev => exact ⟨hcfg, hphase, hcol, hrow, by simp [Micro.effect, hlines]⟩
  | poll => exact ⟨hcfg, hphase, hcol, hrow, by simp [Micro.effect, hlines]⟩
  | setPhase p => exact ⟨hcfg, rfl, hcol, hrow, hlines⟩
  | setCursor column row => exact ⟨hcfg, hphase, rfl, rfl, hlines⟩
  | advance => exact ⟨hcfg, hphase, by simp [Micro.effect, hcfg, hcol], by simp [Micro.effect, hcfg, hcol, hrow], hlines⟩
  | setDisplayControl v => exact ⟨hcfg, hphase, hcol, hrow, hlines⟩
  | setEntryMode v => exact ⟨hcfg, hphase, hcol, hrow, hlines⟩
  | ret st => exact ⟨hcfg, hphase, hcol, hrow, hlines⟩

theorem Agree.effects {s t : State} (h : Agree s t) (p : List Micro) :
    Agree (p.foldl Micro.effect s) (p.foldl Micro.effect t) := by
  induction p generalizing s t with
  | nil => exact h
  | cons m p ih => exact ih (h.effect m)

theorem agree_afterPoll (s : State) (v : Nibble) : Agree (Micro.poll.effect s) (s.afterAll (pollEvents s.cfg v)) :=
  ⟨by simp [Micro.effect], by simp [Micro.effect], by simp [Micro.effect], by simp [Micro.effect], by simp [Micro.effect]⟩

/-- An action that goes on does what its effect says. -/
theorem agree_of_go {m : Micro} {s t : State} (h : m.run s = .go t) : Agree (m.effect s) t := by
  rcases go_cases h with ⟨_, rfl, rfl⟩ | ⟨rfl, v, rfl⟩ | ⟨_, rfl, rfl⟩ | ⟨_, rfl, rfl⟩ | ⟨_, rfl, rfl⟩ |
    ⟨_, _, rfl, rfl⟩ | ⟨rfl, rfl⟩ | ⟨_, rfl, rfl⟩
  · exact ⟨rfl, rfl, rfl, rfl, rfl⟩
  · exact agree_afterPoll s v
  all_goals exact ⟨rfl, rfl, rfl, rfl, rfl⟩

/-- A poll that has read busy is where a poll leads: enable is low once more. -/
theorem agree_of_wait {m : Micro} {s t : State} (h : m.run s = .wait t) : Agree (m.effect s) (m.effect t) := by
  obtain ⟨rfl, v, rfl⟩ := wait_cases h
  exact (agree_afterPoll s v).effect .poll

/-- A run heads for a good quiescent point if its actions lead to one, whatever BUS answers and whenever the reset input
comes. -/
theorem run_settles {p : List Micro} {s : State} (h : (p.foldl Micro.effect s).quiescentOk = true) :
    (run p s).settles = true := by
  refine run_induction (P := fun p s => (p.foldl Micro.effect s).quiescentOk = true) (Q := fun t => t.settles = true)
    (fun s h => h) ?go ?wait ?halt p s h
  case go =>
    intro m ms s t h hm
    exact ((agree_of_go hm).effects ms).quiescentOk.trans h
  case wait =>
    intro m ms s t h hm
    have hpos : Agree t { t with position := m :: ms } := ⟨rfl, rfl, rfl, rfl, rfl⟩
    exact ((hpos.effects (m :: ms)).quiescentOk.trans ((agree_of_wait hm).effects ms).quiescentOk).trans h
  case halt =>
    intro m ms s t _ hm
    obtain ⟨evs, -, rfl | rfl⟩ := halt_cases hm
    · exact settles_of_quiescentOk rfl (quiescentOk_transportFailure _)
    · exact settles_of_quiescentOk rfl (quiescentOk_assertReset _ _)

/-! ## Where the micro-sequences lead -/

/-- The actions of `p`, taken one after the other, lead from `P` to `Q`. -/
def Leads (P : State → Prop) (p : List Micro) (Q : State → Prop) : Prop := ∀ s, P s → Q (p.foldl Micro.effect s)

theorem Leads.append {P Q R : State → Prop} {p q : List Micro} (hp : Leads P p Q) (hq : Leads Q q R) :
    Leads P (p ++ q) R := by
  intro s hs
  rw [List.foldl_append]
  exact hq _ (hp s hs)

/-- What stays true whenever only the lines change, and those at rest are at rest again. -/
def RestClosed (P : State → Prop) : Prop :=
  ∀ (s : State) (l : Lines), (s.lines.atRest = true → l.atRest = true) → P s → P { s with lines := l }

theorem effects_emitting (evs : List BusEvent) (s : State) :
    (emitting evs).foldl Micro.effect s = { s with lines := evs.foldl Lines.drive s.lines } := by
  induction evs generalizing s with
  | nil => rfl
  | cons ev evs ih => exact ih _

theorem leads_emitting {P : State → Prop} (hP : RestClosed P) {evs : List BusEvent} (h : KeepsRest evs) :
    Leads P (emitting evs) P := by
  intro s hs
  rw [effects_emitting]
  exact hP s _ (h s.lines) hs

theorem keepsRest_transfer (c : Config) (rs : Bool) (b : Byte) : KeepsRest (.rs rs :: xfer c b) := by
  intro l hl
  obtain ⟨d, hd⟩ := drive_transfer c rs b l
  rw [hd]
  simp only [Lines.atRest, Bool.and_eq_true] at hl ⊢
  exact ⟨⟨rfl, hl.1.2⟩, hl.2⟩

/-- A POLLWAIT leaves enable and read/write low and the direction output, from any lines (R164). -/
theorem effects_pollWait (s : State) :
    pollWait.foldl Micro.effect s =
      { s with lines := { s.lines with e := false, rs := false, rw := false, dir := .output } } := by
  simp [pollWait, pollEntry, pollExit, Micro.effect, Lines.drive]

theorem leads_waitFor {P : State → Prop} (hP : RestClosed P) (c : Config) (k : WaitClass) : Leads P (waitFor c k) P := by
  cases hs : c.strategy with
  | fixedDelay =>
    rw [waitFor_fixed hs]
    exact leads_emitting hP (keepsRest_delayFor _)
  | busyFlagPolling =>
    simp only [waitFor, hs]
    intro s hs
    rw [effects_pollWait]
    exact hP s _ (fun _ => rfl) hs

theorem leads_cmd {P : State → Prop} (hP : RestClosed P) (c : Config) (b : Byte) : Leads P (cmd c b) P :=
  (leads_emitting hP (keepsRest_transfer c false b)).append (leads_waitFor hP c _)

theorem leads_data {P : State → Prop} (hP : RestClosed P) (c : Config) (b : Byte) : Leads P (data c b) P :=
  (leads_emitting hP (keepsRest_transfer c true b)).append (leads_waitFor hP c _)

theorem leads_datas {P : State → Prop} (hP : RestClosed P) (c : Config) (bs : List Byte) :
    Leads P (bs.flatMap (data c)) P := by
  induction bs with
  | nil => exact fun _ hs => hs
  | cons b bs ih => rw [List.flatMap_cons]; exact (leads_data hP c b).append ih

theorem leads_charProgram {P : State → Prop} (hP : RestClosed P) (c : Config) (a : BitVec 7) (code : Byte) :
    Leads P (charProgram c a code) P :=
  (leads_cmd hP c _).append (leads_data hP c code)

/-- A good quiescent point. -/
def Quiet (s : State) : Prop := s.quiescentOk = true

/-- The lines are at rest. -/
def LinesRest (s : State) : Prop := s.lines.atRest = true

/-- The lines are at rest and the cursor is on the grid: all that R31 asks of phase Ready. -/
def RestsOnGrid (s : State) : Prop := inRange s.cfg.geom s.curCol s.curRow = true ∧ LinesRest s

theorem restClosed_quiet : RestClosed Quiet := by
  intro s l hl h
  obtain ⟨hq, hr⟩ := (quiescentOk_iff s).mp h
  exact (quiescentOk_iff _).mpr ⟨hq, fun hp => ⟨(hr hp).1, hl (hr hp).2⟩⟩

theorem restClosed_linesRest : RestClosed LinesRest := fun _ _ hl h => hl h

theorem restClosed_restsOnGrid : RestClosed RestsOnGrid := fun _ _ hl h => ⟨h.1, hl h.2⟩

/-- The Synchronizing region brings the lines to rest from any state (R141 to R144). -/
theorem leads_syncRegion (c : Config) :
    Leads (fun _ => True)
      ([.setPhase .synchronizing] ++ emitting (preset c) ++ emitting (resync c) ++ emitting (handshake c)) LinesRest := by
  intro s _
  rw [List.append_assoc, List.append_assoc, ← emitting_append, ← emitting_append, List.foldl_append, effects_emitting,
    ← List.append_assoc]
  exact (syncRegion c s.lines).2.2

/-- From any state INIT leads to phase Ready with the cursor at the origin and the lines at rest (R150). -/
theorem leads_initProgram (c : Config) : Leads (fun _ => True) (initProgram c) Quiet := by
  have rest := leads_cmd restClosed_linesRest c
  have registers (p : List Micro) (h : ∀ s : State, (p.foldl Micro.effect s).lines = s.lines) :
      Leads LinesRest p LinesRest := fun s hs => (congrArg Lines.atRest (h s)).trans hs
  have origin : Leads LinesRest [.setCursor 0 0, .setPhase .homePosition, .setEntryMode 0b10] RestsOnGrid :=
    fun s hs => ⟨inRange_origin _, hs⟩
  have done : Leads RestsOnGrid [.setPhase .entryModeSet, .setPhase .ready, .ret .ok] Quiet :=
    fun s hs => (quiescentOk_iff _).mpr ⟨rfl, fun _ => hs⟩
  have displayOff := ((leads_syncRegion c).append (rest (functionByteOf c))).append
    (registers [.setPhase .functionSet, .setDisplayControl 0b000] fun _ => rfl)
  have cleared := (displayOff.append (rest (displayByte 0b000))).append (registers [.setPhase .displayOff] fun _ => rfl)
  have home := (cleared.append (rest clearByte)).append (registers [.setPhase .cleared] fun _ => rfl)
  have entry := (home.append (rest homeByte)).append origin
  exact (entry.append (leads_cmd restClosed_restsOnGrid c (entryByte 0b10))).append done

/-- Every micro-sequence of a host operation leads from a good quiescent point to one. -/
theorem leads_hostProgram {s : State} {i : Instr} {p : List Micro} (h : hostProgram s i = some p) : Leads Quiet p Quiet := by
  have cmds := leads_cmd restClosed_quiet s.cfg
  have chars := leads_charProgram restClosed_quiet s.cfg
  have ret : Leads Quiet [.ret .ok] Quiet := fun _ hs => hs
  have origin : Leads Quiet [.setCursor 0 0, .ret .ok] Quiet := fun _ hs => quiescentOk_withCursor (inRange_origin _) hs
  rcases hostProgram_cases h with ⟨_, rfl⟩ | ⟨_, _, _, a, _, _, rfl⟩ | ⟨_, a, _, _, _, rfl⟩ | ⟨_, rfl⟩ | ⟨_, rfl⟩ |
    ⟨_, _, _, _, rfl⟩ | ⟨v, _, rfl⟩ | ⟨v, _, rfl⟩
  · exact fun t _ => leads_initProgram s.cfg t trivial
  · exact (chars a _).append ret
  · exact (chars a _).append fun _ hs => quiescentOk_advance hs
  · exact (cmds _).append origin
  · exact (cmds _).append origin
  · exact ((cmds _).append (leads_datas restClosed_quiet s.cfg _)).append ret
  · have shadow : Leads Quiet [.setDisplayControl v] Quiet := fun _ hs => hs
    exact (shadow.append (cmds _)).append ret
  · have shadow : Leads Quiet [.setEntryMode v] Quiet := fun _ hs => hs
    exact (shadow.append (cmds _)).append ret

/-- Every micro-sequence an instruction runs leads from a good quiescent point to one. -/
theorem Runs.leads {s : State} {i : Instr} {p : List Micro} (h : Runs s i p) : Leads Quiet p Quiet := by
  rcases h with ⟨h, _⟩ | ⟨_, ⟨rs, b, rfl⟩ | ⟨n, rfl⟩⟩
  · exact leads_hostProgram h
  · cases rs
    · exact leads_cmd restClosed_quiet s.cfg b
    · exact leads_data restClosed_quiet s.cfg b
  · exact leads_emitting restClosed_quiet (keepsRest_syncx s.cfg n)

/-! ## The step -/

/-- An instruction that begins at a good quiescent point heads for one. -/
theorem exec_settles {i : Instr} {s t : State} (hp : s.position = []) (hs : s.quiescentOk = true)
    (h : exec i s = .next t) : t.settles = true := by
  rcases exec_next_cases h with ⟨p, hr, rfl⟩ | ⟨_, rfl⟩ | ⟨_, rfl⟩ | ⟨_, ⟨_, _, rfl⟩ | ⟨_, _, _, hc, rfl⟩⟩
  · exact run_settles (hr.leads s hs)
  · exact settles_of_quiescentOk hp hs
  · exact settles_of_quiescentOk hp hs
  · exact settles_of_quiescentOk hp (quiescentOk_newline hs)
  · exact settles_of_quiescentOk hp (quiescentOk_withCursor (s := s) hc hs)

/-- Settles O48: a step is reset, goes on where the running operation was heading, or begins at rest, where the invariant is
R31 itself. -/
theorem stepKeepsTheQuiescentInvariant : Obligations.StepKeepsTheQuiescentInvariant := by
  intro s t hs h
  rcases step_next_cases h with rfl | ⟨_, rfl⟩ | ⟨hp, _, _, _, _, h⟩ | ⟨hp, _, _, _, _, ⟨_, _, h⟩ | rfl⟩ | ⟨_, _, _, rfl⟩
  · exact settles_of_quiescentOk (by simp) (quiescentOk_assertReset _ s)
  · exact run_settles hs
  · exact exec_settles (s := s.takeTransfer) hp ((settles_at_rest hp).symm.trans hs) h
  · exact exec_settles (s := s.takeWord) hp ((settles_at_rest hp).symm.trans hs) h
  · exact settles_of_quiescentOk hp ((settles_at_rest hp).symm.trans hs)
  · exact hs

end Sys2Proof.Machine
end

section
/-!
SUPPORT. The frame of an instruction (R21, R22, R27, R28, R34, R118): the registers a micro-sequence can write, and what no
operation touches.
-/

namespace Sys2Proof.Machine

/-! ## The registers a micro-sequence writes -/

/-- The registers of the block; column and row are written together. -/
inductive Register where
  | phase | cursor | displayControl | entryMode

/-- What a register holds. -/
abbrev Register.Value : Register → Type
  | .phase => Phase
  | .cursor => Byte × Byte
  | .displayControl => BitVec 3
  | .entryMode => BitVec 2

def Register.read (r : Register) (s : State) : r.Value :=
  match r with
  | .phase => s.phase
  | .cursor => (s.curCol, s.curRow)
  | .displayControl => s.displayControl
  | .entryMode => s.entryMode

@[simp] theorem read_afterAll (r : Register) (s : State) (evs : List BusEvent) : r.read (s.afterAll evs) = r.read s := by
  cases r <;> simp [Register.read]

@[simp] theorem read_returnValue (r : Register) (s : State) (st : Status) (v : Byte) :
    r.read (s.returnValue st v) = r.read s := by
  cases r <;> rfl

@[simp] theorem read_returnStatus (r : Register) (s : State) (st : Status) : r.read (s.returnStatus st) = r.read s :=
  read_returnValue r s st _

@[simp] theorem read_withPosition (r : Register) (s : State) (p : List Micro) :
    r.read { s with position := p } = r.read s := by
  cases r <;> rfl

/-- The register an action writes. -/
def Micro.target : Micro → Option Register
  | .emit _ => none
  | .poll => none
  | .setPhase _ => some .phase
  | .setDisplayControl _ => some .displayControl
  | .setEntryMode _ => some .entryMode
  | .setCursor _ _ => some .cursor
  | .advance => some .cursor
  | .ret _ => none

/-- The registers a micro-sequence writes. -/
def targets (p : List Micro) : List Register := p.filterMap Micro.target

@[simp] theorem targets_append (p q : List Micro) : targets (p ++ q) = targets p ++ targets q := List.filterMap_append

@[simp] theorem targets_emitting (evs : List BusEvent) : targets (emitting evs) = [] := by
  simp [targets, emitting, Micro.target]

@[simp] theorem targets_waitFor (c : Config) (k : WaitClass) : targets (waitFor c k) = [] := by
  cases hs : c.strategy with
  | fixedDelay => rw [waitFor_fixed hs, targets_emitting]
  | busyFlagPolling => simp only [waitFor, hs]; rfl

/-- CMD writes no register (R118). -/
@[simp] theorem targets_cmd (c : Config) (b : Byte) : targets (cmd c b) = [] := by
  rw [cmd, targets_append, targets_emitting, targets_waitFor]; rfl

/-- DATA writes no register (R118). -/
@[simp] theorem targets_data (c : Config) (b : Byte) : targets (data c b) = [] := by
  rw [data, targets_append, targets_emitting, targets_waitFor]; rfl

@[simp] theorem targets_datas (c : Config) (bs : List Byte) : targets (bs.flatMap (data c)) = [] := by
  induction bs with
  | nil => rfl
  | cons b bs ih => rw [List.flatMap_cons, targets_append, targets_data, ih]; rfl

@[simp] theorem targets_charProgram (c : Config) (a : BitVec 7) (code : Byte) : targets (charProgram c a code) = [] := by
  rw [charProgram, targets_append, targets_cmd, targets_data]; rfl

theorem targets_farProgram (c : Config) (rs : Bool) (b : Byte) : targets (farProgram c rs b) = [] := by
  cases rs
  · exact targets_cmd c b
  · exact targets_data c b

/-- An action leaves every register but its target alone. -/
theorem read_of_go {r : Register} {m : Micro} {s t : State} (hm : m.target ≠ some r) (h : m.run s = .go t) :
    r.read t = r.read s := by
  rcases go_cases h with ⟨ev, _, rfl⟩ | ⟨_, v, rfl⟩ | ⟨_, rfl, rfl⟩ | ⟨_, rfl, rfl⟩ | ⟨_, rfl, rfl⟩ | ⟨_, _, rfl, rfl⟩ |
    ⟨rfl, rfl⟩ | ⟨_, _, rfl⟩
  · exact read_afterAll r s [ev]
  · exact read_afterAll r s _
  all_goals cases r <;> trivial

theorem read_of_wait {m : Micro} {s t : State} (h : m.run s = .wait t) (r : Register) : r.read t = r.read s := by
  obtain ⟨_, v, rfl⟩ := wait_cases h
  exact read_afterAll r s _

theorem go_resetIn_none {m : Micro} {s t : State} (h : m.run s = .go t) (hr : s.resetIn = none) : t.resetIn = none := by
  rcases go_cases h with ⟨ev, _, rfl⟩ | ⟨_, v, rfl⟩ | ⟨_, _, rfl⟩ | ⟨_, _, rfl⟩ | ⟨_, _, rfl⟩ | ⟨_, _, _, rfl⟩ |
    ⟨_, rfl⟩ | ⟨_, _, rfl⟩
  · exact afterAll_resetIn_none hr [ev]
  · exact afterAll_resetIn_none hr _
  all_goals exact hr

/-- A run that neither fails in transport nor is reset leaves every register but its targets alone. -/
theorem read_run {r : Register} {p : List Micro} {s : State} (hp : r ∉ targets p) (hr : s.resetIn = none)
    (hf : (run p s).phase ≠ .failed) : r.read (run p s) = r.read s := by
  induction p generalizing s with
  | nil => exact read_withPosition r s []
  | cons m ms ih =>
    have hm : m.target ≠ some r := fun h => hp (List.mem_filterMap.mpr ⟨m, List.mem_cons_self, h⟩)
    have hms : r ∉ targets ms := fun h => hp (((List.sublist_cons_self m ms).filterMap _).subset h)
    simp only [run] at hf ⊢
    cases hrun : m.run s with
    | go t =>
      rw [hrun] at hf
      exact (ih hms (go_resetIn_none hrun hr) hf).trans (read_of_go hm hrun)
    | wait t => exact (read_withPosition r t _).trans (read_of_wait hrun r)
    | halt t =>
      rw [hrun] at hf
      obtain ⟨evs, -, rfl⟩ := halt_noReset hrun hr
      exact absurd rfl hf

/-! ## The registers an instruction writes -/

/-- The operations that write a register (R21, R22, R24, R27, R28). -/
def writesRegister (i : Instr) : Register → Bool
  | .phase => i == .init
  | .cursor => writesCursor i
  | .displayControl => writesDisplay i
  | .entryMode => writesEntry i

theorem writesDisplay_of_displayAfter {v w : BitVec 3} {i : Instr} (h : displayAfter v i = some w) :
    writesDisplay i = true := by
  cases i <;> trivial

theorem writesEntry_of_entryAfter {v w : BitVec 2} {i : Instr} (h : entryAfter v i = some w) :
    writesEntry i = true := by
  cases i <;> trivial

/-- The registers that an operation's micro-sequence writes are those of the operation. -/
theorem writesRegister_of_hostProgram {s : State} {i : Instr} {p : List Micro} (h : hostProgram s i = some p)
    {r : Register} (hr : r ∈ targets p) : writesRegister i r = true := by
  rcases hostProgram_cases h with ⟨rfl, _⟩ | ⟨_, _, _, a, _, _, rfl⟩ | ⟨_, a, rfl, _, _, rfl⟩ | ⟨rfl, rfl⟩ | ⟨rfl, rfl⟩ |
    ⟨_, _, _, _, rfl⟩ | ⟨v, hv, rfl⟩ | ⟨v, hv, rfl⟩
  · cases r <;> rfl
  · rw [writeAtProgram, targets_append, targets_charProgram] at hr
    cases hr
  · rw [writeStreamProgram, targets_append, targets_charProgram] at hr
    cases List.mem_singleton.mp hr
    rfl
  · rw [clearProgram, targets_append, targets_cmd] at hr
    cases List.mem_singleton.mp hr
    rfl
  · rw [homeProgram, targets_append, targets_cmd] at hr
    cases List.mem_singleton.mp hr
    rfl
  · rw [glyphProgram, targets_append, targets_append, targets_cmd, targets_datas] at hr
    cases hr
  · rw [displayProgram, targets_append, targets_append, targets_cmd] at hr
    cases List.mem_singleton.mp hr
    exact writesDisplay_of_displayAfter hv
  · rw [entryProgram, targets_append, targets_append, targets_cmd] at hr
    cases List.mem_singleton.mp hr
    exact writesEntry_of_entryAfter hv

/-- The registers that an instruction's micro-sequence writes are those of the instruction. -/
theorem Runs.writesRegister {s : State} {i : Instr} {p : List Micro} (h : Runs s i p) {r : Register}
    (hr : r ∈ targets p) : writesRegister i r = true := by
  rcases h with ⟨h, _⟩ | ⟨_, ⟨rs, b, rfl⟩ | ⟨n, rfl⟩⟩
  · exact writesRegister_of_hostProgram h hr
  · rw [targets_farProgram] at hr
    cases hr
  · rw [targets_emitting] at hr
    cases hr

/-- An instruction that neither fails in transport nor is reset leaves every register it does not write alone. -/
theorem read_exec {i : Instr} {s t : State} {r : Register} (hw : writesRegister i r = false) (hr : s.resetIn = none)
    (h : exec i s = .next t) (hf : t.phase ≠ .failed) : r.read t = r.read s := by
  rcases exec_next_cases h with ⟨p, hp, rfl⟩ | ⟨st, rfl⟩ | ⟨v, rfl⟩ | ⟨_, ⟨_, rfl, rfl⟩ | ⟨_, _, rfl, _, rfl⟩⟩
  · exact read_run (fun hmem => absurd (hp.writesRegister hmem) (by simp [hw])) hr hf
  · exact read_returnStatus r s st
  · exact read_returnValue r s .ok v
  all_goals cases r <;> trivial

/-! ## What stands outside the block -/

/-- Nothing outside the block changed, and the trace at most grew. -/
def Extends (s t : State) : Prop := SameOutside s t ∧ ∃ evs, t.trace = s.trace ++ evs

theorem Extends.refl (s : State) : Extends s s := ⟨⟨rfl, rfl, rfl, rfl⟩, [], (List.append_nil _).symm⟩

theorem Extends.trans {s t u : State} (h : Extends s t) (g : Extends t u) : Extends s u := by
  obtain ⟨⟨hc, ht, hh, hx⟩, a, ha⟩ := h
  obtain ⟨⟨gc, gt, gh, gx⟩, b, gb⟩ := g
  exact ⟨⟨gc.trans hc, gt.trans ht, gh.trans hh, gx.trans hx⟩, a ++ b, by rw [gb, ha, List.append_assoc]⟩

theorem extends_afterAll (s : State) (evs : List BusEvent) : Extends s (s.afterAll evs) :=
  ⟨⟨by simp, by simp, by simp, by simp⟩, evs, by simp⟩

theorem extends_of_go {m : Micro} {s t : State} (h : m.run s = .go t) : Extends s t := by
  rcases go_cases h with ⟨ev, _, rfl⟩ | ⟨_, v, rfl⟩ | ⟨_, _, rfl⟩ | ⟨_, _, rfl⟩ | ⟨_, _, rfl⟩ | ⟨_, _, _, rfl⟩ |
    ⟨_, rfl⟩ | ⟨_, _, rfl⟩
  · exact extends_afterAll s [ev]
  · exact extends_afterAll s _
  all_goals exact .refl s

theorem extends_of_halt {m : Micro} {s t : State} (h : m.run s = .halt t) : Extends s t := by
  obtain ⟨evs, -, rfl | rfl⟩ := halt_cases h
  all_goals exact extends_afterAll s evs

/-- A run, whatever BUS answers and whenever the reset input comes. -/
theorem extends_run (p : List Micro) (s : State) : Extends s (run p s) := by
  refine run_induction (P := fun _ t => Extends s t) (Q := Extends s) (fun t h => h) ?go ?wait ?halt p s (.refl s)
  case go => exact fun m ms t u h hm => h.trans (extends_of_go hm)
  case wait =>
    intro m ms t u h hm
    obtain ⟨_, v, rfl⟩ := wait_cases hm
    exact h.trans (extends_afterAll t _)
  case halt => exact fun m ms t u h hm => h.trans (extends_of_halt hm)

theorem extends_exec {i : Instr} {s t : State} (h : exec i s = .next t) : Extends s t := by
  rcases exec_next_cases h with ⟨p, _, rfl⟩ | ⟨_, rfl⟩ | ⟨_, rfl⟩ | ⟨_, ⟨_, _, rfl⟩ | ⟨_, _, _, _, rfl⟩⟩
  · exact extends_run p s
  all_goals exact .refl s

/-- Settles O41: each register is left alone by every instruction whose micro-sequence has no action that writes it. -/
theorem everyInstructionKeepsItsFrame : Obligations.EveryInstructionKeepsItsFrame := by
  intro i s t hr h hf
  have frame (r : Register) (hw : writesRegister i r = false) : r.read t = r.read s := read_exec hw hr h hf
  exact ⟨fun hw => Prod.mk.inj (frame .cursor hw), frame .displayControl, frame .entryMode,
    fun hi => frame .phase (beq_false_of_ne hi), extends_exec h⟩

end Sys2Proof.Machine
end

section
/-!
SUPPORT. The state after reset and the reset input (R35, R280).
-/

namespace Sys2Proof.Machine

theorem task_reset {s : State} (h : s.resetIn = some 0) : s.task = .reset := if_pos h

theorem step_reset {s : State} (hw : s.cfg.wf = true) (h : s.resetIn = some 0) :
    step s = .next (assertReset (!s.position.isEmpty) s) := by
  rw [step, if_pos hw, task_reset h]

/-- Settles O46: the step is `assertReset`, whether an operation was running or not. -/
theorem resetInputAtRest : Obligations.ResetInputAtRest := by
  intro s hw h
  exact ⟨_, step_reset hw h, by simp⟩

/-- Settles O51: field by field; the configuration as strapped (log entry 1) is admitted. -/
theorem resetStateIsAsStated : Obligations.ResetStateIsAsStated :=
  ⟨rfl, rfl, rfl, rfl, rfl, by decide⟩

/-- Settles O52: nothing is running after reset, and phase Reset is a quiescent phase. -/
theorem resetMeetsTheInvariants : Obligations.ResetMeetsTheInvariants :=
  ⟨settles_of_quiescentOk rfl (quiescentOk_of_phase rfl (by decide)), rfl, rfl⟩

end Sys2Proof.Machine
end

section
/-!
SUPPORT. What a step leaves alone outside the block (R53, R67; log entry 3).
-/

namespace Sys2Proof.Machine

/-- No step attaches another realisation of BUS, and none puts a transfer at the port. -/
theorem step_outside {s t : State} (h : step s = .next t) :
    t.transport = s.transport ∧ (s.transferPort = none → t.transferPort = none) := by
  rcases step_next_cases h with rfl | ⟨_, rfl⟩ | ⟨_, _, _, _, _, h⟩ | ⟨_, _, _, _, _, ⟨_, _, h⟩ | rfl⟩ | ⟨_, _, _, rfl⟩
  · exact ⟨by simp, by simp⟩
  · obtain ⟨⟨_, ht, _, hx⟩, _⟩ := extends_run s.position s
    exact ⟨ht, hx.trans⟩
  · obtain ⟨⟨_, ht, _, hx⟩, _⟩ := extends_exec h
    exact ⟨ht, fun _ => hx⟩
  · obtain ⟨⟨_, ht, _, hx⟩, _⟩ := extends_exec h
    exact ⟨ht, hx.trans⟩
  all_goals exact ⟨rfl, id⟩

end Sys2Proof.Machine
end

section
/-!
SUPPORT. The direction of the data lines (R51): running a micro-sequence that writes only as output and reads only as input
emits only such events, and every micro-sequence of a host operation is one, from lines at rest.
-/

namespace Sys2Proof.Machine

/-! ## Events -/

@[simp] theorem directionOk_append (l : Lines) (xs ys : List BusEvent) :
    directionOk l (xs ++ ys) = (directionOk l xs && directionOk (xs.foldl Lines.drive l) ys) := by
  induction xs generalizing l with
  | nil => rfl
  | cons x xs ih => simp only [List.cons_append, directionOk, List.foldl_cons, ih, Bool.and_assoc]

theorem directionOk_take {l : Lines} {evs : List BusEvent} (n : Nat) (h : directionOk l evs = true) :
    directionOk l (evs.take n) = true := by
  rw [← List.take_append_drop n evs, directionOk_append] at h
  exact (Bool.and_eq_true_iff.mp h).1

@[simp] theorem directionOk_delayFor (l : Lines) (t : Nat) : directionOk l (delayFor t) = true := by
  unfold delayFor; split <;> rfl

@[simp] theorem directionOk_pulse (c : Config) (l : Lines) : directionOk l (pulse c) = true := by
  simp [pulse, directionOk]

/-- A transfer drives data while the direction is output (R112). -/
theorem directionOk_transfer (c : Config) (rs : Bool) (b : Byte) {l : Lines} (h : l.dir = .output) :
    directionOk l (.rs rs :: xfer c b) = true := by
  cases hw : c.busWidth <;> simp [xfer, nibble, byte8, directionOk, Lines.drive, hw, h]

theorem directionOk_syncx (c : Config) (n : Nibble) {l : Lines} (h : l.dir = .output) :
    directionOk l (syncx c n) = true := by
  cases hw : c.busWidth <;> simp [syncx, nibble, byte8, directionOk, Lines.drive, hw, h]

/-- PRESET drives no data, so it may begin with any direction (R141). -/
theorem directionOk_preset (c : Config) (l : Lines) : directionOk l (preset c) = true := by
  simp [preset, directionOk]

/-- A poll iteration reads while the direction is input (R163). -/
theorem directionOk_pollEvents (c : Config) (v : Nibble) {l : Lines} (h : l.dir = .input) :
    directionOk l (pollEvents c v) = true := by
  cases hw : c.busWidth <;> simp [pollEvents, pollRise, pollFall, directionOk, Lines.drive, hw, h]

/-! ## What a run emits -/

/-- From `s` to `t` every event found the direction it needs. -/
def Directed (s t : State) : Prop := ∃ evs, t.trace = s.trace ++ evs ∧ directionOk s.lines evs = true

/-- The same, and the lines of `t` are those the events drove. -/
def DirectedTo (s t : State) : Prop :=
  ∃ evs, t.trace = s.trace ++ evs ∧ t.lines = evs.foldl Lines.drive s.lines ∧ directionOk s.lines evs = true

theorem Directed.of_sameTrace {s t : State} (h : t.trace = s.trace) : Directed s t :=
  ⟨[], by rw [h, List.append_nil], rfl⟩

theorem DirectedTo.refl (s : State) : DirectedTo s s := ⟨[], (List.append_nil _).symm, rfl, rfl⟩

theorem DirectedTo.directed {s t : State} (h : DirectedTo s t) : Directed s t := by
  obtain ⟨evs, ht, -, hd⟩ := h
  exact ⟨evs, ht, hd⟩

theorem DirectedTo.afterAll {s t : State} {evs : List BusEvent} (h : DirectedTo s t)
    (he : directionOk t.lines evs = true) : DirectedTo s (t.afterAll evs) := by
  obtain ⟨first, ht, hl, hd⟩ := h
  refine ⟨first ++ evs, ?_, ?_, ?_⟩
  · rw [afterAll_trace, ht, List.append_assoc]
  · rw [afterAll_lines, hl, List.foldl_append]
  · rw [directionOk_append, hd, ← hl, he]; rfl

/-- What stands at the head of a micro-sequence that respects the direction can emit only what respects it. -/
theorem directionOk_of_cutEvents {c : Config} {m : Micro} {ms : List Micro} {l : Lines} {evs : List BusEvent}
    (h : programDirectionOk l (m :: ms) = true) (hc : cutEvents c m evs) : directionOk l evs = true := by
  rcases hc with ⟨ev, rfl, rfl⟩ | ⟨rfl, v, n, rfl⟩
  · exact (Bool.and_eq_true_iff.mp h).1
  · exact directionOk_take n (directionOk_pollEvents c v (eq_of_beq (Bool.and_eq_true_iff.mp h).1))

/-- An action that goes on leaves the rest respecting the direction. -/
theorem directedTo_of_go {m : Micro} {ms : List Micro} {s t u : State} (h : DirectedTo s t)
    (hp : programDirectionOk t.lines (m :: ms) = true) (hm : m.run t = .go u) :
    DirectedTo s u ∧ programDirectionOk u.lines ms = true := by
  rcases go_cases hm with ⟨ev, rfl, rfl⟩ | ⟨rfl, v, rfl⟩ | ⟨_, rfl, rfl⟩ | ⟨_, rfl, rfl⟩ | ⟨_, rfl, rfl⟩ |
    ⟨_, _, rfl, rfl⟩ | ⟨rfl, rfl⟩ | ⟨_, rfl, rfl⟩
  · obtain ⟨hev, hms⟩ := Bool.and_eq_true_iff.mp hp
    exact ⟨h.afterAll hev, hms⟩
  · obtain ⟨hdir, hms⟩ := Bool.and_eq_true_iff.mp hp
    refine ⟨h.afterAll (directionOk_pollEvents _ v (eq_of_beq hdir)), ?_⟩
    rwa [afterAll_lines, drive_pollEvents]
  all_goals exact ⟨h, hp⟩

/-- From `s` to `t` every event found the direction it needs, and every event still to come will. -/
def StaysDirected (s t : State) : Prop := programDirectionOk t.lines t.position = true ∧ Directed s t

theorem StaysDirected.of_sameTrace {s t : State} (hp : t.position = []) (h : t.trace = s.trace) : StaysDirected s t :=
  ⟨by rw [hp]; rfl, .of_sameTrace h⟩

/-- Running a micro-sequence that respects the direction, whatever BUS answers and whenever the reset input comes. -/
theorem run_staysDirected {p : List Micro} {s : State} (hp : programDirectionOk s.lines p = true) :
    StaysDirected s (run p s) := by
  refine run_induction (P := fun p t => DirectedTo s t ∧ programDirectionOk t.lines p = true) (Q := StaysDirected s)
    (fun t h => ⟨rfl, h.1.directed⟩) ?go ?wait ?halt p s ⟨.refl s, hp⟩
  case go => exact fun m ms t u h hm => directedTo_of_go h.1 h.2 hm
  case wait =>
    intro m ms t u ⟨h, hp⟩ hm
    obtain ⟨rfl, v, rfl⟩ := wait_cases hm
    obtain ⟨hdir, hms⟩ := Bool.and_eq_true_iff.mp hp
    refine ⟨?_, (h.afterAll (directionOk_pollEvents t.cfg v (eq_of_beq hdir))).directed⟩
    rw [afterAll_lines, drive_pollEvents]
    exact Bool.and_eq_true_iff.mpr ⟨hdir, hms⟩
  case halt =>
    intro m ms t u ⟨h, hp⟩ hm
    obtain ⟨evs, hcut, rfl | rfl⟩ := halt_cases hm
    all_goals exact ⟨rfl, (h.afterAll (directionOk_of_cutEvents hp hcut)).directed⟩

/-! ## The micro-sequences of the host operations -/

theorem programDirectionOk_append (s : State) (p q : List Micro) :
    programDirectionOk s.lines (p ++ q) =
      (programDirectionOk s.lines p && programDirectionOk (p.foldl Micro.effect s).lines q) := by
  induction p generalizing s with
  | nil => rfl
  | cons m p ih =>
    have rest := ih (m.effect s)
    cases m with
    | emit ev => exact (congrArg (directionOk s.lines [ev] && ·) rest).trans (Bool.and_assoc ..).symm
    | poll => exact (congrArg (s.lines.dir == .input && ·) rest).trans (Bool.and_assoc ..).symm
    | _ => exact rest

theorem programDirectionOk_emitting (l : Lines) (evs : List BusEvent) :
    programDirectionOk l (emitting evs) = directionOk l evs := by
  induction evs generalizing l with
  | nil => rfl
  | cons ev evs ih => simp only [emitting_cons, programDirectionOk, ih, directionOk, Bool.and_true]

/-- From `P` the micro-sequence respects the direction and leads to lines at rest. -/
def Directs (P : State → Prop) (p : List Micro) : Prop :=
  (∀ s, P s → programDirectionOk s.lines p = true) ∧ Leads P p LinesRest

theorem Directs.append {P : State → Prop} {p q : List Micro} (hp : Directs P p) (hq : Directs LinesRest q) :
    Directs P (p ++ q) := by
  refine ⟨fun s hs => ?_, hp.2.append hq.2⟩
  rw [programDirectionOk_append, hp.1 s hs, hq.1 _ (hp.2 s hs)]
  rfl

theorem LinesRest.dir {s : State} (h : LinesRest s) : s.lines.dir = .output :=
  eq_of_beq (Bool.and_eq_true_iff.mp h).2

theorem directs_emitting {evs : List BusEvent} (hd : ∀ l : Lines, l.dir = .output → directionOk l evs = true)
    (hr : KeepsRest evs) : Directs LinesRest (emitting evs) :=
  ⟨fun s hs => by rw [programDirectionOk_emitting, hd _ hs.dir], leads_emitting restClosed_linesRest hr⟩

/-- Actions that emit nothing. -/
theorem directs_silent {p : List Micro}
    (h : ∀ s : State, programDirectionOk s.lines p = true ∧ (p.foldl Micro.effect s).lines = s.lines) :
    Directs LinesRest p :=
  ⟨fun s _ => (h s).1, fun s hs => (congrArg Lines.atRest (h s).2).trans hs⟩

/-- A POLLWAIT turns the direction to input before its poll and back after it (R162, R164). -/
theorem directs_waitFor (c : Config) (k : WaitClass) : Directs LinesRest (waitFor c k) := by
  refine ⟨fun s _ => ?_, leads_waitFor restClosed_linesRest c k⟩
  cases hs : c.strategy with
  | fixedDelay => rw [waitFor_fixed hs, programDirectionOk_emitting, fixedWait, directionOk_delayFor]
  | busyFlagPolling => simp only [waitFor, hs]; rfl

theorem directs_transfer (c : Config) (rs : Bool) (b : Byte) : Directs LinesRest (emitting (.rs rs :: xfer c b)) :=
  directs_emitting (fun _ => directionOk_transfer c rs b) (keepsRest_transfer c rs b)

theorem directs_cmd (c : Config) (b : Byte) : Directs LinesRest (cmd c b) :=
  (directs_transfer c false b).append (directs_waitFor c _)

theorem directs_data (c : Config) (b : Byte) : Directs LinesRest (data c b) :=
  (directs_transfer c true b).append (directs_waitFor c _)

theorem directs_datas (c : Config) (bs : List Byte) : Directs LinesRest (bs.flatMap (data c)) := by
  induction bs with
  | nil => exact directs_silent fun _ => ⟨rfl, rfl⟩
  | cons b bs ih => rw [List.flatMap_cons]; exact (directs_data c b).append ih

theorem directs_charProgram (c : Config) (a : BitVec 7) (code : Byte) : Directs LinesRest (charProgram c a code) :=
  (directs_cmd c _).append (directs_data c code)

theorem directs_syncx (c : Config) (n : Nibble) : Directs LinesRest (emitting (syncx c n)) :=
  directs_emitting (fun _ => directionOk_syncx c n) (keepsRest_syncx c n)

theorem directs_resync (c : Config) : Directs LinesRest (emitting (resync c)) := by
  unfold resync
  cases c.oledResync with
  | false => exact directs_silent fun _ => ⟨rfl, rfl⟩
  | true =>
    have h := directs_syncx c 0x0
    simpa using h.append (h.append (h.append (h.append h)))

theorem directs_handshake (c : Config) (seq : List (Nibble × Nat)) :
    Directs LinesRest (emitting (seq.flatMap fun p => syncx c p.1 ++ delayFor p.2)) := by
  induction seq with
  | nil => exact directs_silent fun _ => ⟨rfl, rfl⟩
  | cons p ps ih =>
    have pause := directs_emitting (fun l _ => directionOk_delayFor l p.2) (keepsRest_delayFor p.2)
    rw [List.flatMap_cons, emitting_append, emitting_append]
    exact ((directs_syncx c p.1).append pause).append ih

/-- PRESET drives no data and sets the direction to output, from any lines (R141). -/
theorem directs_preset (c : Config) :
    Directs (fun _ => True) ([.setPhase .synchronizing] ++ emitting (preset c)) := by
  refine ⟨fun s _ => ?_, fun s _ => ?_⟩
  · exact (programDirectionOk_emitting ..).trans (directionOk_preset c s.lines)
  · rw [List.foldl_append, effects_emitting, LinesRest]
    dsimp only
    rw [drive_preset]; rfl

/-- INIT respects the direction from any lines (R140, R141). -/
theorem directs_initProgram (c : Config) : Directs (fun _ => True) (initProgram c) := by
  have silent (p : List Micro) := directs_silent (p := p)
  have synchronized := ((directs_preset c).append (directs_resync c)).append (directs_handshake c c.syncSeq)
  have displayOff := (synchronized.append (directs_cmd c (functionByteOf c))).append
    (silent [.setPhase .functionSet, .setDisplayControl 0b000] fun _ => ⟨rfl, rfl⟩)
  have cleared := (displayOff.append (directs_cmd c (displayByte 0b000))).append
    (silent [.setPhase .displayOff] fun _ => ⟨rfl, rfl⟩)
  have home := (cleared.append (directs_cmd c clearByte)).append
    (silent [.setPhase .cleared] fun _ => ⟨rfl, rfl⟩)
  have entry := (home.append (directs_cmd c homeByte)).append
    (silent [.setCursor 0 0, .setPhase .homePosition, .setEntryMode 0b10] fun _ => ⟨rfl, rfl⟩)
  exact (entry.append (directs_cmd c (entryByte 0b10))).append
    (silent [.setPhase .entryModeSet, .setPhase .ready, .ret .ok] fun _ => ⟨rfl, rfl⟩)

/-- Every micro-sequence of a host operation respects the direction from lines at rest. -/
theorem directs_hostProgram {s : State} {i : Instr} {p : List Micro} (h : hostProgram s i = some p) :
    Directs LinesRest p := by
  have cmds := directs_cmd s.cfg
  have chars := directs_charProgram s.cfg
  have silent (p : List Micro) := directs_silent (p := p)
  have ret := silent [.ret .ok] fun _ => ⟨rfl, rfl⟩
  have origin := silent [.setCursor 0 0, .ret .ok] fun _ => ⟨rfl, rfl⟩
  rcases hostProgram_cases h with ⟨_, rfl⟩ | ⟨_, _, _, a, _, _, rfl⟩ | ⟨_, a, _, _, _, rfl⟩ | ⟨_, rfl⟩ | ⟨_, rfl⟩ |
    ⟨_, _, _, _, rfl⟩ | ⟨v, _, rfl⟩ | ⟨v, _, rfl⟩
  · obtain ⟨hd, hl⟩ := directs_initProgram s.cfg
    exact ⟨fun t _ => hd t trivial, fun t _ => hl t trivial⟩
  · exact (chars a _).append ret
  · exact (chars a _).append (silent [.advance, .ret .ok] fun _ => ⟨rfl, rfl⟩)
  · exact (cmds _).append origin
  · exact (cmds _).append origin
  · exact ((cmds _).append (directs_datas s.cfg _)).append ret
  · exact ((silent [.setDisplayControl v] fun _ => ⟨rfl, rfl⟩).append (cmds _)).append ret
  · exact ((silent [.setEntryMode v] fun _ => ⟨rfl, rfl⟩).append (cmds _)).append ret

/-- At a good quiescent point a host operation begins with a micro-sequence that respects the direction: INIT does from any
lines, the others begin in phase Ready. -/
theorem programDirectionOk_hostProgram {s : State} {i : Instr} {p : List Micro} (hs : s.quiescentOk = true)
    (hi : i = .init ∨ s.phase = .ready) (h : hostProgram s i = some p) : programDirectionOk s.lines p = true := by
  rcases hi with rfl | hr
  · cases h
    exact (directs_initProgram s.cfg).1 s trivial
  · obtain ⟨-, hready⟩ := (quiescentOk_iff s).mp hs
    exact (directs_hostProgram h).1 s (hready hr).2

/-! ## The step -/

/-- A host operation that begins at a good quiescent point. -/
theorem exec_staysDirected {i : Instr} {s t : State} (hi : i.isHost = true) (hp : s.position = [])
    (hs : s.quiescentOk = true) (h : exec i s = .next t) : StaysDirected s t := by
  rcases exec_next_cases h with ⟨p, ⟨hprog, hr⟩ | ⟨hfar, _⟩, rfl⟩ | ⟨_, rfl⟩ | ⟨_, rfl⟩ |
    ⟨_, ⟨_, _, rfl⟩ | ⟨_, _, _, _, rfl⟩⟩
  · exact run_staysDirected (programDirectionOk_hostProgram hs hr hprog)
  · rw [hi] at hfar; cases hfar
  all_goals exact .of_sameTrace hp rfl

/-- A step with no bare transfer at the port. -/
theorem step_staysDirected {s t : State} (hs : s.settles = true) (hd : programDirectionOk s.lines s.position = true)
    (hx : s.transferPort = none) (h : step s = .next t) : StaysDirected s t := by
  rcases step_next_cases h with rfl | ⟨_, rfl⟩ | ⟨_, x, _, hport, _⟩ | ⟨hp, _, _, _, _, ⟨_, hdec, h⟩ | rfl⟩ | ⟨hp, _, _, rfl⟩
  · exact .of_sameTrace (by simp) (by simp)
  · exact run_staysDirected hd
  · rw [hx] at hport; cases hport
  · exact exec_staysDirected (s := s.takeWord) (decodeHost_isHost hdec) hp ((settles_at_rest hp).symm.trans hs) h
  all_goals exact .of_sameTrace hp rfl

/-- Settles O49: a step goes on with a micro-sequence that respects the direction, begins a host operation from lines at rest
or INIT from any, or emits nothing. -/
theorem stepRespectsTheDirection : Obligations.StepRespectsTheDirection := by
  intro s t hs hd hx h
  obtain ⟨hpos, hevs⟩ := step_staysDirected hs hd hx h
  exact ⟨hpos, (step_outside h).2 hx, hevs⟩

end Sys2Proof.Machine
end

section
/-!
SUPPORT. Direct GPIO, which has no acknowledgement channel (R53): only the reset input cuts an action short, and no
instruction's micro-sequence sets phase Failed.
-/

namespace Sys2Proof.Machine

theorem signal_ne_nack {s : State} (h : s.transport = .directGpio) (ev : BusEvent) : s.signal ev ≠ .nack := by
  unfold State.signal
  split
  · simp
  · simp [State.ackedAt, h]

theorem emitAll_ne_nack (evs : List BusEvent) {s t : State} (h : s.transport = .directGpio) :
    emitAll evs s ≠ (.nack, t) := by
  induction evs generalizing s with
  | nil => simp [emitAll]
  | cons ev evs ih =>
    simp only [emitAll, emitOne]
    cases hs : s.signal ev with
    | ack => exact ih h
    | nack => exact absurd hs (signal_ne_nack h ev)
    | reset => simp

/-- On direct GPIO an action that is cut short was cut by the reset input. -/
theorem halt_gpio {m : Micro} {s t : State} (h : m.run s = .halt t) (hg : s.transport = .directGpio) :
    ∃ u, t = assertReset true u := by
  cases m with
  | emit ev =>
    simp only [Micro.run, emitOne] at h
    cases hs : s.signal ev with
    | ack => rw [hs] at h; cases h
    | nack => exact absurd hs (signal_ne_nack hg ev)
    | reset => rw [hs] at h; cases h; exact ⟨_, rfl⟩
  | poll =>
    simp only [Micro.run, pollOnce] at h
    obtain ⟨n, hn, -⟩ := emitAll_snd (pollRise s.cfg) s
    rcases he : emitAll (pollRise s.cfg) s with ⟨sig, u⟩
    rw [he] at h hn
    cases sig with
    | nack => exact absurd he (emitAll_ne_nack _ hg)
    | reset => cases h; exact ⟨_, rfl⟩
    | ack =>
      have hu : u.transport = .directGpio := by rw [show u = _ from hn, afterAll_transport, hg]
      rcases he2 : emitAll (.r4 u.readData :: pollFall s.cfg) u with ⟨sig, w⟩
      simp only [he2] at h
      cases sig with
      | nack => exact absurd he2 (emitAll_ne_nack _ hu)
      | reset => cases h; exact ⟨_, rfl⟩
      | ack => simp only at h; split at h <;> cases h
  | _ => cases h

/-! ## Where a run heads -/

/-- With no operation running the block heads for the phase it is in. -/
theorem settled_ne_failed {s : State} (hp : s.position = []) (hs : s.phase ≠ .failed) : s.settled.phase ≠ .failed := by
  rwa [State.settled, hp]

/-- On direct GPIO a run that does not head for phase Failed goes on not to. -/
theorem run_heads_not_failed {p : List Micro} {s : State} (hg : s.transport = .directGpio)
    (h : (p.foldl Micro.effect s).phase ≠ .failed) : (run p s).settled.phase ≠ .failed := by
  refine run_induction (P := fun p s => s.transport = .directGpio ∧ (p.foldl Micro.effect s).phase ≠ .failed)
    (Q := fun t => t.settled.phase ≠ .failed) (fun s h => h.2) ?go ?wait ?halt p s ⟨hg, h⟩
  case go =>
    intro m ms s t ⟨hg, h⟩ hm
    obtain ⟨⟨_, ht, _⟩, _⟩ := extends_of_go hm
    exact ⟨ht.trans hg, by rw [((agree_of_go hm).effects ms).phase]; exact h⟩
  case wait =>
    intro m ms s t ⟨_, h⟩ hm
    have hpos : Agree t { t with position := m :: ms } := ⟨rfl, rfl, rfl, rfl, rfl⟩
    rw [State.settled, (hpos.effects (m :: ms)).phase]
    exact ne_of_eq_of_ne ((agree_of_wait hm).effects ms).phase h
  case halt =>
    intro m ms s t ⟨hg, _⟩ hm
    obtain ⟨u, rfl⟩ := halt_gpio hm hg
    exact settled_ne_failed (by simp) (by simp)

/-! ## The phases a micro-sequence sets -/

/-- No action of the micro-sequence sets phase Failed. -/
def NeverFails (p : List Micro) : Prop := .setPhase .failed ∉ p

theorem neverFails_of_targets {p : List Micro} (h : .phase ∉ targets p) : NeverFails p :=
  fun hm => h (List.mem_filterMap.mpr ⟨_, hm, rfl⟩)

theorem neverFails_cons {m : Micro} {ms : List Micro} : NeverFails (m :: ms) ↔ m ≠ .setPhase .failed ∧ NeverFails ms := by
  rw [NeverFails, List.mem_cons, not_or, ne_comm]; rfl

theorem effect_phase_ne_failed {m : Micro} {s : State} (hm : m ≠ .setPhase .failed) (hs : s.phase ≠ .failed) :
    (m.effect s).phase ≠ .failed := by
  cases m with
  | setPhase p => exact fun h => hm (congrArg _ h)
  | _ => exact hs

theorem NeverFails.effects {p : List Micro} (hp : NeverFails p) {s : State} (hs : s.phase ≠ .failed) :
    (p.foldl Micro.effect s).phase ≠ .failed := by
  induction p generalizing s with
  | nil => exact hs
  | cons m p ih =>
    obtain ⟨hm, hp⟩ := neverFails_cons.mp hp
    exact ih hp (effect_phase_ne_failed hm hs)

/-- INIT sets the phases of its stages and Ready (R24, R140). -/
theorem neverFails_initProgram (c : Config) : NeverFails (initProgram c) := by
  have cmds (b : Byte) : .setPhase .failed ∉ cmd c b := neverFails_of_targets (by simp)
  have events (evs : List BusEvent) : .setPhase .failed ∉ emitting evs := neverFails_of_targets (by simp)
  simp [NeverFails, initProgram, cmds, events]

/-- INIT alone writes the phase (R24). -/
theorem Runs.neverFails {s : State} {i : Instr} {p : List Micro} (h : Runs s i p) : NeverFails p := by
  by_cases hi : i = .init
  · subst hi
    rcases h with ⟨h, _⟩ | ⟨h, _⟩
    · cases h; exact neverFails_initProgram s.cfg
    · cases h
  · exact neverFails_of_targets fun hmem => hi (eq_of_beq (h.writesRegister hmem))

/-- On direct GPIO a run that does not begin in phase Failed and never sets it does not end there. -/
theorem run_phase_ne_failed {p : List Micro} {s : State} (hg : s.transport = .directGpio) (hp : NeverFails p)
    (h : s.phase ≠ .failed) : (run p s).phase ≠ .failed := by
  refine run_induction (P := fun p s => s.transport = .directGpio ∧ NeverFails p ∧ s.phase ≠ .failed)
    (Q := fun t => t.phase ≠ .failed) (fun _ ⟨_, _, h⟩ => h) ?go ?wait ?halt p s ⟨hg, hp, h⟩
  case go =>
    intro m ms s t ⟨hg, hp, h⟩ hm
    obtain ⟨hm', hms⟩ := neverFails_cons.mp hp
    obtain ⟨⟨_, ht, _⟩, _⟩ := extends_of_go hm
    exact ⟨ht.trans hg, hms, by rw [(agree_of_go hm).phase]; exact effect_phase_ne_failed hm' h⟩
  case wait =>
    intro m ms s t ⟨_, _, h⟩ hm
    exact ne_of_eq_of_ne (read_of_wait hm .phase) h
  case halt =>
    intro m ms s t ⟨hg, _, _⟩ hm
    obtain ⟨u, rfl⟩ := halt_gpio hm hg
    simp

/-! ## Instructions and steps -/

theorem exec_phase_ne_failed {i : Instr} {s t : State} (hg : s.transport = .directGpio) (hs : s.phase ≠ .failed)
    (h : exec i s = .next t) : t.phase ≠ .failed := by
  rcases exec_next_cases h with ⟨p, hr, rfl⟩ | ⟨_, rfl⟩ | ⟨_, rfl⟩ | ⟨_, ⟨_, _, rfl⟩ | ⟨_, _, _, _, rfl⟩⟩
  · exact run_phase_ne_failed hg hr.neverFails hs
  all_goals exact hs

/-- An instruction that begins with no operation running. -/
theorem exec_heads_not_failed {i : Instr} {s t : State} (hg : s.transport = .directGpio) (hp : s.position = [])
    (hs : s.phase ≠ .failed) (h : exec i s = .next t) : t.settled.phase ≠ .failed := by
  rcases exec_next_cases h with ⟨p, hr, rfl⟩ | ⟨_, rfl⟩ | ⟨_, rfl⟩ | ⟨_, ⟨_, _, rfl⟩ | ⟨_, _, _, _, rfl⟩⟩
  · exact run_heads_not_failed hg (hr.neverFails.effects hs)
  all_goals exact settled_ne_failed hp hs

theorem step_heads_not_failed {s t : State} (hg : s.transport = .directGpio) (hs : s.settled.phase ≠ .failed)
    (h : step s = .next t) : t.settled.phase ≠ .failed := by
  have rest (hp : s.position = []) : s.phase ≠ .failed := by rwa [State.settled, hp] at hs
  rcases step_next_cases h with rfl | ⟨_, rfl⟩ | ⟨hp, _, _, _, _, h⟩ | ⟨hp, _, _, _, _, ⟨_, _, h⟩ | rfl⟩ | ⟨_, _, _, rfl⟩
  · exact settled_ne_failed (by simp) (by simp)
  · exact run_heads_not_failed hg hs
  · exact exec_heads_not_failed (s := s.takeTransfer) hg hp (rest hp) h
  · exact exec_heads_not_failed (s := s.takeWord) hg hp (rest hp) h
  · exact settled_ne_failed hp (rest hp)
  · exact hs

/-- Settles O45: on direct GPIO a run is cut short by the reset input only; no instruction's micro-sequence sets phase Failed,
and the rest of a running one heads where it did. -/
theorem directGpioNeverFails : Obligations.DirectGpioNeverFails :=
  ⟨fun _ _ _ => exec_phase_ne_failed,
    fun _ _ hg hs h => ⟨(step_outside h).1.trans hg, step_heads_not_failed hg hs h⟩⟩

end Sys2Proof.Machine
end

section
/-!
SUPPORT. The addresses the mapper forms (R56, R181, R182).
-/

namespace Sys2Proof.Machine

/-- An address is formed exactly in range (R182). -/
theorem addr_eq_none_iff (g : Geom) (column row : Byte) :
    addr g column row = none ↔ ¬ (column.toNat < cols g ∧ row.toNat < rows g) := by
  rw [← inRange_iff]
  cases h : inRange g column row <;> simp [addr, h]

/-- Rows 2 and 3 are those of 20x4, so they end below `0x28` and at `0x67` as rows 0 and 1 do (R181). -/
theorem rowBase_add_formed {g : Geom} {column row : Nat} (hc : column < cols g) (hr : row < rows g) :
    rowBase g row + column ≤ 0x27 ∨ (0x40 ≤ rowBase g row + column ∧ rowBase g row + column ≤ 0x67) := by
  have hcols := cols_bounds g
  have hrow : 2 ≤ row → cols g = 20 := by cases g <;> simp [rows, cols] at hr ⊢ <;> omega
  rw [rowBase_eq hr]
  split_ifs <;> omega

theorem ddramFormed_iff (a : BitVec 7) :
    ddramFormed a = true ↔ a.toNat ≤ 0x27 ∨ (0x40 ≤ a.toNat ∧ a.toNat ≤ 0x67) := by
  simp [ddramFormed, BitVec.le_def]

/-- Settles O14: an address is a row's start and a column of that row. -/
theorem mapperStaysInTheFormedAddresses : Obligations.MapperStaysInTheFormedAddresses := by
  refine fun g column row => ⟨addr_eq_none_iff g column row, fun a h => ?_⟩
  obtain ⟨hc, hr, rfl⟩ := addr_eq_some h
  have formed := rowBase_add_formed hc hr
  have hnum : (BitVec.ofNat 7 (rowBase g row.toNat + column.toNat)).toNat = rowBase g row.toNat + column.toNat := by
    rw [BitVec.toNat_ofNat, Nat.mod_eq_of_lt (by omega)]
  rw [ddramFormed_iff, hnum]
  omega

end Sys2Proof.Machine
end

section
/-!
SUPPORT. A step with a host word at the port (R71, R251).
-/

namespace Sys2Proof.Machine

theorem task_word {s : State} {h : HostWord} {rest : List HostWord} (hr : s.resetIn ≠ some 0) (hp : s.position = [])
    (hx : s.transferPort = none) (hw : s.hostPort = h :: rest) : s.task = .word h := by
  simp only [State.task, if_neg hr, hp, hx, hw]

theorem takeWord_eq {s : State} {h : HostWord} {rest : List HostWord} (hw : s.hostPort = h :: rest) :
    s.takeWord = { s with hostPort := rest, output := none } := by
  rw [State.takeWord, hw]; rfl

/-- Settles O6: the next task is the word, and taking it leaves the rest of the words and no status pending. -/
theorem stepRunsTheHostWord : Obligations.StepRunsTheHostWord := by
  intro s h rest i hc hr hp hx hw hd
  rw [step, if_pos hc, task_word hr hp hx hw, ← takeWord_eq hw]
  simp only [hd]

end Sys2Proof.Machine
end

section
/-!
SUPPORT. The encodings (30_encoding.md): the fields of a packed host word, what each decoder rejects, and the round trip.
-/

namespace Sys2Proof

/-! ## The fields of a host word (R80) -/

theorem HostWord.op_toNat (h : HostWord) : h.op.toNat = h.w.toNat / 2 ^ 28 := by
  have bound := h.w.isLt
  rw [HostWord.op, BitVec.extractLsb'_toNat, Nat.shiftRight_eq_div_pow]
  omega

theorem HostWord.rsv_toNat (h : HostWord) : h.rsv.toNat = h.w.toNat / 2 ^ 24 % 16 := by
  rw [HostWord.rsv, BitVec.extractLsb'_toNat, Nat.shiftRight_eq_div_pow]

theorem HostWord.fieldC_toNat (h : HostWord) : h.fieldC.toNat = h.w.toNat % 2 ^ 8 := by
  rw [HostWord.fieldC, BitVec.extractLsb'_toNat, Nat.shiftRight_zero]

/-- The host word that `packHost` forms (R91). -/
def packedWord (op : BitVec 4) (a b c : Byte) (glyph : BitVec 64) : HostWord :=
  { w := op ++ 0#4 ++ a ++ b ++ c, glyph := glyph }

theorem packHost_eq (op : BitVec 4) (a b c : Byte) (glyph : BitVec 64) :
    packHost op a b c glyph = .host (packedWord op a b c glyph) := rfl

section
variable (op : BitVec 4) (a b c : Byte) (glyph : BitVec 64)

@[simp] theorem op_packedWord : (packedWord op a b c glyph).op = op := by
  simp only [HostWord.op, packedWord, BitVec.extractLsb'_append_eq_of_le, Nat.reduceLeDiff, Nat.reduceSub,
    BitVec.extractLsb'_eq_self]

@[simp] theorem rsv_packedWord : (packedWord op a b c glyph).rsv = 0#4 := by
  simp only [HostWord.rsv, packedWord, BitVec.extractLsb'_append_eq_of_le, Nat.reduceLeDiff, Nat.reduceSub,
    BitVec.extractLsb'_append_eq_right]

@[simp] theorem fieldA_packedWord : (packedWord op a b c glyph).fieldA = a := by
  simp only [HostWord.fieldA, packedWord, BitVec.extractLsb'_append_eq_of_le, Nat.reduceLeDiff, Nat.reduceSub,
    BitVec.extractLsb'_append_eq_right]

@[simp] theorem fieldB_packedWord : (packedWord op a b c glyph).fieldB = b := by
  simp only [HostWord.fieldB, packedWord, BitVec.extractLsb'_append_eq_of_le, Nat.reduceLeDiff, Nat.reduceSub,
    BitVec.extractLsb'_append_eq_right]

@[simp] theorem fieldC_packedWord : (packedWord op a b c glyph).fieldC = c := BitVec.extractLsb'_append_eq_right

@[simp] theorem glyph_packedWord : (packedWord op a b c glyph).glyph = glyph := rfl

end

/-! ## The round trip -/

/-- A mode's word decodes as its mode code does. -/
theorem decode_packMode (c : Byte) : decode (packMode c) = decodeMode c := by
  simp [decode, packMode, packHost_eq, decodeHost]

/-- The leading bit selects SET_DDRAM_ADDR, and the rest is the address (R101). -/
theorem decodeCommand_ddram (addr : BitVec 7) : decodeCommand (0b1#1 ++ addr) = .instr (.setDdramAddr addr) := by
  rw [decodeCommand, if_pos (by rw [BitVec.getElem_append]; rfl), BitVec.extractLsb'_append_eq_right]

theorem decodeCommand_cgram (slot : BitVec 3) :
    decodeCommand (0b01#2 ++ slot ++ 0b000#3) = .instr (.setCgramAddr slot) := by
  revert slot; decide

theorem decodeCommand_function (dl n f : Bool) :
    decodeCommand (0b001#3 ++ bit dl ++ bit n ++ bit f ++ 0b00#2) = .instr (.functionSet dl n f) := by
  revert dl n f; decide

theorem decodeCommand_display (d c b : Bool) :
    decodeCommand (0b00001#5 ++ bit d ++ bit c ++ bit b) = .instr (.displayControl d c b) := by
  revert d c b; decide

theorem decodeCommand_entry (id s : Bool) :
    decodeCommand (0b000001#6 ++ bit id ++ bit s) = .instr (.entryModeSet id s) := by
  revert id s; decide

/-- Settles O1: a host operation by the fields of its word, a far-side transfer by its leading bit. -/
theorem decodeInvertsEncode : Obligations.DecodeInvertsEncode := by
  intro i
  cases i with
  | writeAt | writeStream | moveTo | defineGlyph => simp [encode, decode, packHost_eq, decodeHost]
  | init | clear | home | columns | rows => rfl
  | setDisplayOff | setDisplayOn | setCursorOff | setCursorOn | setBlinkOff | setBlinkOn | setFlowDecrement
  | setFlowIncrement | setShiftOff | setShiftOn => exact decode_packMode _
  | clearDisplay | returnHome | syncPulse | dataByte => rfl
  | entryModeSet id s => exact decodeCommand_entry id s
  | displayControl d c b => exact decodeCommand_display d c b
  | functionSet dl n f => exact decodeCommand_function dl n f
  | setCgramAddr slot => exact decodeCommand_cgram slot
  | setDdramAddr addr => exact decodeCommand_ddram addr

/-- Settles O5: each word is the encoding of its instruction, so the round trip decodes it. -/
theorem wordsOfTheSpecDecode : Obligations.WordsOfTheSpecDecode :=
  ⟨decodeInvertsEncode (.moveTo 19 3), decodeInvertsEncode (.writeStream 0x41), decodeInvertsEncode .setCursorOn,
    decodeInvertsEncode (.writeAt 15 1 0x5A), decodeInvertsEncode (.defineGlyph 1 0x0000040E1F1F0A00),
    decodeInvertsEncode (.displayControl true true false), decodeInvertsEncode (.setCgramAddr 1),
    decodeInvertsEncode (.setDdramAddr 0x14)⟩

/-! ## The words that are rejected -/

theorem decodeMode_reject_iff (c : Byte) : (∃ why, decodeMode c = .reject why) ↔ 10 ≤ c.toNat := by
  unfold decodeMode
  split
  case h_11 =>
    simp only [imp_false, BitVec.toNat_eq, BitVec.toNat_ofNat] at *
    exact iff_of_true ⟨_, rfl⟩ (by omega)
  all_goals simp

theorem decodeHost_reject_iff (h : HostWord) :
    (∃ why, decodeHost h = .reject why) ↔
      10 ≤ h.op.toNat ∨ h.rsv ≠ 0#4 ∨ (h.op.toNat = 6 ∧ 10 ≤ h.fieldC.toNat) := by
  unfold decodeHost
  split
  case isTrue hr => exact iff_of_true ⟨_, rfl⟩ (.inr (.inl hr))
  case isFalse hr =>
    split
    case h_7 ho => simp [decodeMode_reject_iff, not_not.mp hr, ho]
    case h_11 =>
      simp only [imp_false, BitVec.toNat_eq, BitVec.toNat_ofNat] at *
      exact iff_of_true ⟨_, rfl⟩ (.inl (by omega))
    all_goals next ho => simp [not_not.mp hr, ho]

/-- Settles O2: the conditions of `decodeHost_reject_iff`, read from the word as a number. -/
theorem illegalHostWordsAreTheListed : Obligations.IllegalHostWordsAreTheListed := by
  intro h
  rw [decodeHost_reject_iff, ne_eq, BitVec.toNat_eq, h.op_toNat, h.rsv_toNat, h.fieldC_toNat]
  rfl

/-- Settles O3: with the same `rsv` and `op` both words decode by the same arm, and each arm reads only the fields its
operation uses. -/
theorem unusedFieldsAreIgnored : Obligations.UnusedFieldsAreIgnored := by
  intro h k hop hrsv hA hB hC hG
  unfold decodeHost
  rw [← hrsv, ← hop]
  split
  · rfl
  · split <;> simp_all

/-! ### Command bytes -/

/-- Of a byte below `2 ^ (k + 1)` bit `k` is the leading bit. -/
theorem ite_leadingBit {b : Byte} {k : Nat} (hb : b.toNat < 2 ^ (k + 1)) {x y : Decoded} (hk : k < 8 := by decide) :
    (if b[k] then x else y) = if 2 ^ k ≤ b.toNat then x else y := by
  refine if_congr ?_ rfl rfl
  rw [BitVec.getElem_eq_testBit_toNat]
  exact ⟨Nat.ge_two_pow_of_testBit, fun h => Nat.testBit_of_two_pow_le_and_two_pow_add_one_gt h hb⟩

theorem lowBits_eq_zero_iff (b : Byte) (n : Nat) : b.extractLsb' 0 n = 0#n ↔ b.toNat % 2 ^ n = 0 := by
  simp [BitVec.toNat_eq]

theorem ite_eq_neverFormed_iff {p : Prop} [Decidable p] {i : Instr} :
    (if p then Decoded.instr i else .reject .neverFormed) = .reject .neverFormed ↔ ¬ p := by
  split <;> simp [*]

/-- Settles O4: down the arms of the decoder, which ask for the leading set bit of the byte (R94). -/
theorem neverFormedBytesAreRejected : Obligations.NeverFormedBytesAreRejected := by
  intro b
  rw [decodeCommand, ite_leadingBit b.isLt]
  split
  · -- 0x80 and above: SET_DDRAM_ADDR (R101)
    exact iff_of_false nofun (by omega)
  rw [ite_leadingBit (by omega)]
  split
  · -- 0x40 to 0x7F: SET_CGRAM_ADDR, whose low three bits are zero (R100)
    rw [ite_eq_neverFormed_iff, lowBits_eq_zero_iff]; omega
  rw [ite_leadingBit (by omega)]
  split
  · -- 0x20 to 0x3F: FUNCTION_SET, whose low two bits are zero (R99)
    rw [ite_eq_neverFormed_iff, lowBits_eq_zero_iff]; omega
  rw [ite_leadingBit (by omega)]
  split
  · -- 0x10 to 0x1F: no command
    exact iff_of_true rfl (by omega)
  rw [ite_leadingBit (by omega)]
  split
  · -- 0x08 to 0x0F: DISPLAY_CONTROL (R98)
    exact iff_of_false nofun (by omega)
  rw [ite_leadingBit (by omega)]
  split
  · -- 0x04 to 0x07: ENTRY_MODE_SET (R97)
    exact iff_of_false nofun (by omega)
  -- 0x00 to 0x03: RETURN_HOME, CLEAR_DISPLAY and two bytes that are no command (R95, R96)
  split
  · next h => exact iff_of_false nofun (by rw [h]; decide)
  · next h =>
    rw [ite_eq_neverFormed_iff]
    simp only [BitVec.toNat_eq, BitVec.toNat_ofNat] at h ⊢
    omega

end Sys2Proof
end

section
/-!
SUPPORT. A step with a transfer at the transfer port, and the handshake pulse on its own (R103, R143; log entry 3).
-/

namespace Sys2Proof.Machine

theorem task_transfer {s : State} {x : Transfer} (hr : s.resetIn ≠ some 0) (hp : s.position = [])
    (hx : s.transferPort = some x) : s.task = .transfer x := by
  simp only [State.task, if_neg hr, hp, hx]

/-- Settles O7: the next task is the transfer, and taking it empties the port. -/
theorem stepRunsTheTransfer : Obligations.StepRunsTheTransfer := by
  intro s x i hc hr hp hx hd
  rw [step, if_pos hc, task_transfer hr hp hx]
  simp only [hd, State.takeTransfer]

/-- PULSE_W as the spec prints it: an admitted configuration has no delay of zero (R6, R110). -/
theorem pulse_eq_pulseEvents {c : Config} (hc : c.wf = true) : pulse c = pulseEvents c := by
  obtain ⟨hlow, hhigh, hhold, -⟩ := wf_times hc
  simp [pulse, pulseEvents, delayFor, hlow, hhigh, hhold]

theorem primitives_syncx (c : Config) (n : Nibble) : primitives (syncx c n) = 4 := by
  cases hw : c.busWidth <;> simp [syncx, hw, nibble, byte8, primitives_cons, BusEvent.isPrimitive]

theorem append_zero_eq_ofNat (n : Nibble) : n ++ 0x0#4 = BitVec.ofNat 8 (16 * n.toNat) := by
  revert n; decide

theorem sameRegisters_afterAll (s : State) (evs : List BusEvent) (p : List Micro) :
    SameRegisters s { s.afterAll evs with position := p } := by
  simp [SameRegisters, SameCursor, SameShadows]

/-- An acknowledged handshake pulse emits its events and does nothing else (R143). -/
theorem exec_syncPulse_ack {s : State} {n : Nibble} (h : s.Acks 4) :
    exec (.syncPulse n) s = .next { s.afterAll (syncx s.cfg n) with position := [] } := by
  rw [← primitives_syncx s.cfg n] at h
  exact congrArg _ (run_completes (completes_emitting _ s h))

/-- Settles O18: the acknowledged events of SYNCX are the driven nibble or byte and one PULSE_W. -/
theorem syncPulseIsOnePulse : Obligations.SyncPulseIsOnePulse := by
  intro s n hc ha
  obtain ⟨d, hlines⟩ := drive_syncx s.cfg n s.lines
  refine ⟨_, exec_syncPulse_ack ha, ?_, rfl, sameRegisters_afterAll .., ((ran_afterAll s _).position []).outside, ?_⟩
  · rw [afterAll_trace, ← pulse_eq_pulseEvents hc]
    cases hw : s.cfg.busWidth with
    | w4 => simp only [syncx, hw, nibble]
    | w8 => simp only [syncx, hw, byte8, append_zero_eq_ofNat]
  · simp [hlines]

end Sys2Proof.Machine
end

section
/-!
SUPPORT. CMD and DATA under fixed delay (R112 to R114, R161), on their own and as the micro-sequences of the host operations.
-/

namespace Sys2Proof.Machine

/-- Settles O15: no delay of an admitted configuration is zero, so none is omitted. -/
theorem pulseIsSixEvents : Obligations.PulseIsSixEvents := fun _ hc => pulse_eq_pulseEvents hc

/-! ## One transfer -/

theorem waitTime_ne_zero {c : Config} (hc : c.wf = true) (k : WaitClass) : waitTime c k ≠ 0 := by
  obtain ⟨-, -, -, hcmd, hhome, hclear⟩ := wf_times hc
  cases k with
  | ordinary => exact hcmd
  | home => exact hhome
  | clear => exact hclear

theorem waitTime_waitClass (c : Config) (b : Byte) : waitTime c (waitClass b) = fixedTime c false b := by
  by_cases hclear : b = clearByte
  · subst hclear; rfl
  · by_cases hhome : b = homeByte
    · subst hhome; rfl
    · rw [waitClass, if_neg hclear, if_neg hhome, fixedTime, if_neg fun h => hclear h.2, if_neg fun h => hhome h.2]
      rfl

/-- Register-select, byte and one delay, as the spec prints them. -/
theorem fixedTransfer_eq {c : Config} (hc : c.wf = true) {rs : Bool} {b : Byte} {k : WaitClass}
    (hk : waitTime c k = fixedTime c rs b) : fixedTransfer c rs b = .rs rs :: xfer c b ++ fixedWait c k := by
  rw [fixedTransfer, transferEvents_eq_xfer hc, fixedWait, delayFor, if_neg (waitTime_ne_zero hc k), hk]

theorem cmd_eq_fixedTransfer {c : Config} (hc : c.wf = true) (hs : c.strategy = .fixedDelay) (b : Byte) :
    cmd c b = emitting (fixedTransfer c false b) := by
  rw [cmd_fixed hs, fixedTransfer_eq hc (waitTime_waitClass c b)]

theorem data_eq_fixedTransfer {c : Config} (hc : c.wf = true) (hs : c.strategy = .fixedDelay) (d : Byte) :
    data c d = emitting (fixedTransfer c true d) := by
  rw [data_fixed hs, fixedTransfer_eq hc (k := .ordinary) rfl]

theorem farProgram_eq_fixedTransfer {c : Config} (hc : c.wf = true) (hs : c.strategy = .fixedDelay) (rs : Bool) (b : Byte) :
    farProgram c rs b = emitting (fixedTransfer c rs b) := by
  cases rs with
  | false => exact cmd_eq_fixedTransfer hc hs b
  | true => exact data_eq_fixedTransfer hc hs b

/-- A transfer under fixed delay drives enable, register-select and the data lines only (R112 to R114). -/
theorem drive_fixedTransfer {c : Config} (hc : c.wf = true) (rs : Bool) (b : Byte) (l : Lines) :
    ∃ d, (fixedTransfer c rs b).foldl Lines.drive l = { l with e := false, rs := rs, data := d } := by
  obtain ⟨d, hd⟩ := drive_transfer c rs b l
  refine ⟨d, ?_⟩
  rw [fixedTransfer, transferEvents_eq_xfer hc, List.foldl_append, hd]
  rfl

/-- Settles O16: the acknowledged events of CMD or DATA are those of `fixedTransfer`, and events change no register. -/
theorem farTransferUnderFixedDelay : Obligations.FarTransferUnderFixedDelay := by
  intro s i rs b hc hs hb ha
  have hrun : exec i s = .next { s.afterAll (fixedTransfer s.cfg rs b) with position := [] } := by
    rw [exec_farProgram hb, farProgram_eq_fixedTransfer hc hs, run_completes (completes_emitting _ s ha)]
  obtain ⟨d, hlines⟩ := drive_fixedTransfer hc rs b s.lines
  refine ⟨_, hrun, afterAll_trace .., rfl, sameRegisters_afterAll .., ((ran_afterAll s _).position []).outside, ?_⟩
  simp [hlines]

/-! ## The host operations -/

/-- The events of transfers in order, under fixed delay. -/
def fixedTransfers (c : Config) (xs : List (Bool × Byte)) : List BusEvent :=
  xs.flatMap fun x => fixedTransfer c x.1 x.2

theorem glyphByte_toNat (glyph : BitVec 64) (k : Nat) :
    glyphByte glyph k = BitVec.ofNat 8 (glyph.toNat / 2 ^ (8 * k)) := by
  simp [glyphByte, BitVec.extractLsb', Nat.shiftRight_eq_div_pow]

section
variable {s : State} (hc : s.cfg.wf = true) (hs : s.cfg.strategy = .fixedDelay)
include hc hs

theorem emitted_cmd (b : Byte) : emitted (cmd s.cfg b) = fixedTransfer s.cfg false b := by
  rw [cmd_eq_fixedTransfer hc hs, emitted_emitting]

theorem emitted_data (d : Byte) : emitted (data s.cfg d) = fixedTransfer s.cfg true d := by
  rw [data_eq_fixedTransfer hc hs, emitted_emitting]

theorem emitted_datas (ds : List Byte) :
    emitted (ds.flatMap (data s.cfg)) = fixedTransfers s.cfg (ds.map fun d => (true, d)) := by
  induction ds with
  | nil => rfl
  | cons d ds ih =>
    rw [List.flatMap_cons, emitted_append, emitted_data hc hs, ih]
    rfl

/-- The address, then the character, at whatever cell the mapper gives (R190, R191). -/
theorem emitted_charProgram (cell : Option (BitVec 7)) (code : Byte) {q : List Micro} (hq : emitted q = []) :
    (cell.map fun a => charProgram s.cfg a code ++ q).map emitted =
      (cell.map fun a => [(false, BitVec.ofNat 8 (128 + a.toNat)), (true, code)]).map (fixedTransfers s.cfg) := by
  rw [Option.map_map, Option.map_map]
  refine congrArg (Option.map · _) (funext fun a => ?_)
  simp [charProgram, emitted_cmd hc hs, emitted_data hc hs, ddramByte_toNat, fixedTransfers, hq]

theorem emitted_glyphProgram {slot : Byte} (hslot : slot.toNat ≤ 7) (glyph : BitVec 64) :
    emitted (glyphProgram s.cfg (slot.extractLsb' 0 3) glyph) =
      fixedTransfers s.cfg ((false, BitVec.ofNat 8 (64 + 8 * slot.toNat))
        :: (List.range 8).map fun k => (true, BitVec.ofNat 8 (glyph.toNat / 2 ^ (8 * k)))) := by
  have hlow : (slot.extractLsb' 0 3).toNat = slot.toNat := by simp; omega
  have hbytes : (glyphBytes glyph).map (fun d => (true, d))
      = (List.range 8).map fun k => (true, BitVec.ofNat 8 (glyph.toNat / 2 ^ (8 * k))) := by
    simp only [glyphBytes, List.map_map, Function.comp_def, glyphByte_toNat]
  rw [glyphProgram, emitted_append, emitted_append, emitted_cmd hc hs, emitted_datas hc hs, cgramByte_toNat, hlow, hbytes]
  exact List.append_nil _

/-- Actions without events around one command add nothing to it. -/
theorem emitted_oneCommand {p q : List Micro} (hp : emitted p = []) (hq : emitted q = []) (b : Byte) :
    emitted (p ++ cmd s.cfg b ++ q) = fixedTransfers s.cfg [(false, b)] := by
  rw [emitted_append, emitted_append, hp, hq, emitted_cmd hc hs]
  rfl

theorem emitted_displayMode (i : Instr) :
    (displayModeProgram s i).map emitted = (displayModeTransfers s i).map (fixedTransfers s.cfg) := by
  rw [displayModeProgram, displayModeTransfers, Option.map_map, Option.map_map]
  refine congrArg (Option.map · _) (funext fun v => ?_)
  rw [Function.comp_apply, Function.comp_apply, ← displayByte_toNat]
  exact emitted_oneCommand hc hs rfl rfl _

theorem emitted_entryMode (i : Instr) :
    (entryModeProgram s i).map emitted = (entryModeTransfers s i).map (fixedTransfers s.cfg) := by
  rw [entryModeProgram, entryModeTransfers, Option.map_map, Option.map_map]
  refine congrArg (Option.map · _) (funext fun v => ?_)
  rw [Function.comp_apply, Function.comp_apply, ← entryByte_toNat]
  exact emitted_oneCommand hc hs rfl rfl _

/-- What the micro-sequence of a host operation other than INIT emits is its transfers in order (R190 to R194, R220, R240). -/
theorem emitted_hostProgram {i : Instr} (hi : i ≠ .init) :
    (hostProgram s i).map emitted = (hostTransfers s i).map (fixedTransfers s.cfg) := by
  cases i with
  | init => exact absurd rfl hi
  | writeAt column row code => exact emitted_charProgram hc hs _ code rfl
  | writeStream byte =>
    by_cases hb : byte = s.cfg.lfCode
    · rw [hostProgram, hostTransfers, if_pos hb, if_pos hb]; rfl
    · rw [hostProgram, hostTransfers, if_neg hb, if_neg hb]
      exact emitted_charProgram hc hs _ byte rfl
  | clear => exact congrArg some (emitted_oneCommand hc hs (p := []) rfl rfl clearByte)
  | home => exact congrArg some (emitted_oneCommand hc hs (p := []) rfl rfl homeByte)
  | defineGlyph slot glyph =>
    by_cases hslot : slot.toNat ≤ 7
    · rw [hostProgram, hostTransfers, if_pos hslot, if_pos hslot]
      exact congrArg some (emitted_glyphProgram hc hs hslot glyph)
    · rw [hostProgram, hostTransfers, if_neg hslot, if_neg hslot]; rfl
  | setDisplayOff => exact emitted_displayMode hc hs _
  | setDisplayOn => exact emitted_displayMode hc hs _
  | setCursorOff => exact emitted_displayMode hc hs _
  | setCursorOn => exact emitted_displayMode hc hs _
  | setBlinkOff => exact emitted_displayMode hc hs _
  | setBlinkOn => exact emitted_displayMode hc hs _
  | setFlowDecrement => exact emitted_entryMode hc hs _
  | setFlowIncrement => exact emitted_entryMode hc hs _
  | setShiftOff => exact emitted_entryMode hc hs _
  | setShiftOn => exact emitted_entryMode hc hs _
  | _ => rfl

end

/-- Under fixed delay a host operation whose primitives are acknowledged emits its events, returns OK and is over. -/
theorem exec_hostProgram_fixed {s : State} {i : Instr} {p : List Micro} (hs : s.cfg.strategy = .fixedDelay)
    (hr : i = .init ∨ s.phase = .ready) (hp : hostProgram s i = some p) (ha : s.Acks (primitives (emitted p))) :
    ∃ t, exec i s = .next t ∧ t.trace = s.trace ++ emitted p ∧ Returned s t .ok ∧ t.position = [] := by
  obtain ⟨q, rfl, hq⟩ := hostProgram_plain hs hp
  have hret : emitted (q ++ [.ret .ok]) = emitted q := by rw [emitted_append]; exact List.append_nil _
  rw [hret] at ha ⊢
  obtain ⟨t, ht, hworld⟩ := completes_plain hq s ha
  obtain ⟨htrace, -, hresults, -⟩ := hworld.fields
  rw [afterAll_trace] at htrace
  rw [afterAll_results] at hresults
  rw [exec_hostProgram hr hp, run_of_completes ht]
  exact ⟨_, rfl, htrace, ⟨_, rfl, congrArg (· ++ _) hresults⟩, rfl⟩

/-- Settles O40: the micro-sequence of the operation is plain, and its events are the transfers. -/
theorem fixedDelayTraceOfEveryOperation : Obligations.FixedDelayTraceOfEveryOperation := by
  intro s i xs hc hs hr hx ha
  have hi : i ≠ .init := by rintro rfl; cases hx
  obtain ⟨p, hp, hevents⟩ := Option.map_eq_some_iff.mp ((emitted_hostProgram hc hs hi).trans (congrArg _ hx))
  have hrun := exec_hostProgram_fixed hs (.inr hr) hp (by rw [hevents]; exact ha)
  rwa [hevents] at hrun

end Sys2Proof.Machine
end

section
/-!
SUPPORT. INIT (R140 to R154): its Synchronizing region, then five commands, each with the registers it writes. One end state
for every way it is run, and the events before it under either strategy.
-/

namespace Sys2Proof.Machine

/-! ## Actions that only write registers -/

/-- Register writes and nothing else. -/
def WritesOnly (ws : List Micro) : Prop := ∀ m ∈ ws, m.target ≠ none

/-- A register write always goes on, touches nothing else, and may change places with an event. -/
theorem effect_of_target {m : Micro} (h : m.target ≠ none) (s : State) :
    m.run s = .go (m.effect s) ∧ SameWorld s (m.effect s) ∧
      ∀ ev, (m.effect s).after ev = m.effect (s.after ev) := by
  cases m with
  | emit => exact absurd rfl h
  | poll => exact absurd rfl h
  | ret => exact absurd rfl h
  | _ => exact ⟨rfl, rfl, fun _ => rfl⟩

theorem effect_afterAll {m : Micro} (h : m.target ≠ none) (s : State) (evs : List BusEvent) :
    (m.effect s).afterAll evs = m.effect (s.afterAll evs) := by
  induction evs generalizing s with
  | nil => rfl
  | cons ev evs ih =>
    obtain ⟨-, -, hafter⟩ := effect_of_target h s
    rw [afterAll_cons, hafter, ih, afterAll_cons]

section
variable {ws : List Micro} (h : WritesOnly ws) (s : State)
include h

theorem completes_writes : completes ws s = some (ws.foldl Micro.effect s) := by
  induction ws generalizing s with
  | nil => rfl
  | cons m ws ih =>
    obtain ⟨hm, hws⟩ := List.forall_mem_cons.mp h
    obtain ⟨hrun, -⟩ := effect_of_target hm s
    rw [completes, hrun]
    exact ih hws _

theorem sameWorld_effects : SameWorld s (ws.foldl Micro.effect s) := by
  induction ws generalizing s with
  | nil => rfl
  | cons m ws ih =>
    obtain ⟨hm, hws⟩ := List.forall_mem_cons.mp h
    obtain ⟨-, hworld, -⟩ := effect_of_target hm s
    exact hworld.trans (ih hws _)

theorem effects_afterAll (evs : List BusEvent) :
    (ws.foldl Micro.effect s).afterAll evs = ws.foldl Micro.effect (s.afterAll evs) := by
  induction ws generalizing s with
  | nil => rfl
  | cons m ws ih =>
    obtain ⟨hm, hws⟩ := List.forall_mem_cons.mp h
    rw [List.foldl_cons, ih hws, effect_afterAll hm, List.foldl_cons]

end

theorem SameWorld.cfg {s t : State} (h : SameWorld s t) : t.cfg = s.cfg := by
  unfold SameWorld at h
  rw [h]

theorem SameWorld.grants {s t : State} (h : SameWorld s t) {n : Nat} (hg : s.Grants n) : t.Grants n := by
  unfold SameWorld at h
  rw [h]; exact hg

theorem SameWorld.acksAll {s t : State} (h : SameWorld s t) (ha : s.AcksAll) : t.AcksAll := by
  unfold SameWorld at h
  rw [h]; exact ha

/-! ## Commands, each with the registers it writes -/

/-- A command and the register writes behind it. -/
structure Stage where
  command : Byte
  writes  : List Micro

def Stage.program (c : Config) (x : Stage) : List Micro := cmd c x.command ++ x.writes

/-- The micro-sequence of stages in order. -/
def stagesProgram (c : Config) (xs : List Stage) : List Micro := xs.flatMap (Stage.program c)

/-- The register writes of stages in order. -/
def stagesWrites (xs : List Stage) : List Micro := xs.flatMap Stage.writes

theorem stagesProgram_cons (c : Config) (x : Stage) (xs : List Stage) :
    stagesProgram c (x :: xs) = cmd c x.command ++ (x.writes ++ stagesProgram c xs) := List.append_assoc ..

/-- The writes of a stage may wait until the events of the later stages are over. -/
theorem effects_stagesWrites_cons {x : Stage} (h : WritesOnly x.writes) (xs : List Stage) (s : State)
    (first rest : List BusEvent) :
    (stagesWrites xs).foldl Micro.effect ((x.writes.foldl Micro.effect (s.afterAll first)).afterAll rest) =
      (stagesWrites (x :: xs)).foldl Micro.effect (s.afterAll (first ++ rest)) := by
  rw [effects_afterAll h, ← afterAll_append, ← List.foldl_append]
  rfl

/-- Where the environment grants it, stages complete: their commands at the command level, then all their writes. -/
theorem completes_stages {c : Config} {xs : List Stage} (hw : ∀ x ∈ xs, WritesOnly x.writes) {s : State} (hs : s.cfg = c)
    (hg : s.Grants (cost c (stagesProgram c xs))) :
    ∃ evs, completes (stagesProgram c xs) s = some ((stagesWrites xs).foldl Micro.effect (s.afterAll evs)) ∧
      Speaks c.busWidth evs (xs.map fun x => .cmd x.command) ∧ KeepsRest evs := by
  induction xs generalizing s with
  | nil => exact ⟨[], rfl, fun _ ha => ⟨rfl, ha⟩, fun _ hl => hl⟩
  | cons x xs ih =>
    obtain ⟨hx, hxs⟩ := List.forall_mem_cons.mp hw
    rw [stagesProgram_cons, cost_append, cost_append] at hg
    obtain ⟨first, hfirst, hprim, hsays, hrest⟩ := sends_cmd c x.command s hs (Grants.mono hg (Nat.le_add_right ..))
    have hworld := sameWorld_effects hx (s.afterAll first)
    have hleft := hworld.grants (Grants.afterAll first (by rw [hprim]; exact hg))
    obtain ⟨later, hlater, hlaterSays, hlaterRest⟩ := ih hxs (hworld.cfg.trans ((afterAll_cfg ..).trans hs))
      (Grants.mono hleft (Nat.le_add_left ..))
    refine ⟨first ++ later, ?_, hsays.append hlaterSays,
      KeepsRest.append (fun l hl => hrest l (writable_of_atRest hl)) hlaterRest⟩
    rw [stagesProgram_cons, completes_append hfirst (completes_append (completes_writes hx _) hlater),
      effects_stagesWrites_cons hx]

/-- Under polling and ENV_BF_CLEARS stages are over after some steps: each command with its POLLWAIT, then all their writes. -/
theorem stages_poll {c : Config} (hc : c.wf = true) (hp : c.strategy = .busyFlagPolling) {xs : List Stage}
    (hw : ∀ x ∈ xs, WritesOnly x.writes) {s : State} (hs : s.cfg = c) (ha : s.AcksAll) (q : List Micro)
    (he : (run (stagesProgram c xs ++ q) s).EnvBfClears) :
    ∃ n vss, Host.Core.run core n (run (stagesProgram c xs ++ q) s) =
        .next (run q ((stagesWrites xs).foldl Micro.effect
          (s.afterAll (polledTransfers c (xs.map fun x => (false, x.command)) vss)))) ∧
      vss.length = xs.length ∧ ∀ vs ∈ vss, BusyUntilReady vs := by
  induction xs generalizing s with
  | nil => exact ⟨0, [], rfl, rfl, by simp⟩
  | cons x xs ih =>
    obtain ⟨hx, hxs⟩ := List.forall_mem_cons.mp hw
    rw [stagesProgram_cons, List.append_assoc, List.append_assoc] at he ⊢
    have hone := polls_transfers hc hp [(false, x.command)]
    rw [List.flatMap_singleton] at hone
    obtain ⟨n, vss, hrun, hlen, hready⟩ := hone s _ hs ha he
    obtain ⟨vs, rfl⟩ := List.length_eq_one_iff.mp hlen
    rw [run_of_completes (completes_writes hx _)] at hrun
    have hworld := sameWorld_effects hx (s.afterAll (polledTransfers c [(false, x.command)] [vs]))
    obtain ⟨m, later, hlater, hlaterLen, hlaterReady⟩ := ih hxs (hworld.cfg.trans ((afterAll_cfg ..).trans hs))
      (hworld.acksAll (AcksAll.afterAll ha _)) (EnvBfClears.of_run he hrun)
    refine ⟨n + m, vs :: later, (core_run_add hrun m).trans (hlater.trans ?_), congrArg (· + 1) hlaterLen,
      List.forall_mem_cons.mpr ⟨hready vs (List.mem_singleton_self vs), hlaterReady⟩⟩
    rw [effects_stagesWrites_cons hx]
    simp [polledTransfers]

/-! ## INIT as stages -/

/-- The events of INIT before its first command: PRESET, RESYNC and HANDSHAKE (R141 to R144). -/
def syncEvents (c : Config) : List BusEvent := preset c ++ resync c ++ handshake c

/-- The five commands of INIT and the registers each writes (R145 to R149). -/
def initStages (c : Config) : List Stage :=
  [⟨functionByteOf c, [.setPhase .functionSet, .setDisplayControl 0b000]⟩,
    ⟨displayByte 0b000, [.setPhase .displayOff]⟩,
    ⟨clearByte, [.setPhase .cleared]⟩,
    ⟨homeByte, [.setCursor 0 0, .setPhase .homePosition, .setEntryMode 0b10]⟩,
    ⟨entryByte 0b10, [.setPhase .entryModeSet, .setPhase .ready]⟩]

/-- INIT (R140). -/
theorem initProgram_eq (c : Config) :
    initProgram c =
      .setPhase .synchronizing :: (emitting (syncEvents c) ++ (stagesProgram c (initStages c) ++ [.ret .ok])) := by
  simp [initProgram, syncEvents, stagesProgram, Stage.program, initStages]

theorem writesOnly_initStages (c : Config) : ∀ x ∈ initStages c, WritesOnly x.writes := by
  simp [initStages, WritesOnly, Micro.target]

theorem functionByteOf_eq (c : Config) :
    functionByteOf c =
      BitVec.ofNat 8 (32 + (if c.busWidth = .w8 then 16 else 0) + 8 + (if c.font = .f5x10 then 4 else 0)) := by
  rw [functionByteOf, functionByte_toNat, decide_eq_true (rows_bounds c.geom).1]
  cases c.busWidth <;> cases c.font <;> rfl

/-- The commands of the stages as numbers (R95 to R99). -/
theorem initStages_transfers (c : Config) : (initStages c).map (fun x => (false, x.command)) = initTransfers c := by
  rw [initTransfers, ← functionByteOf_eq]
  rfl

/-! ## The end state -/

/-- The registers as INIT leaves them (R150). -/
def State.initialised (s : State) : State :=
  { s with phase := .ready, curCol := 0, curRow := 0, displayControl := 0b000, entryMode := 0b10 }

/-- Where INIT is over, having emitted `evs` (R150). -/
def initDone (s : State) (evs : List BusEvent) : State := run [.ret .ok] (s.afterAll evs).initialised

theorem initDone_trace (s : State) (evs : List BusEvent) : (initDone s evs).trace = s.trace ++ evs := afterAll_trace ..

theorem initDone_lines (s : State) (evs : List BusEvent) : (initDone s evs).lines = evs.foldl Lines.drive s.lines :=
  afterAll_lines ..

theorem initDone_returned (s : State) (evs : List BusEvent) : Returned s (initDone s evs) .ok :=
  ⟨_, rfl, congrArg (· ++ _) (afterAll_results s evs)⟩

theorem initDone_outside (s : State) (evs : List BusEvent) : SameOutside s (initDone s evs) := (ran_afterAll s evs).outside

/-- The phase register as INIT enters the Synchronizing region (R24, R140). -/
def State.synchronizing (s : State) : State := { s with phase := .synchronizing }

theorem synchronizing_afterAll (s : State) (evs : List BusEvent) :
    s.synchronizing.afterAll evs = (s.afterAll evs).synchronizing :=
  effect_afterAll (m := .setPhase .synchronizing) (by simp [Micro.target]) s evs

theorem effects_initStages (c : Config) (s : State) (first rest : List BusEvent) :
    (stagesWrites (initStages c)).foldl Micro.effect ((s.synchronizing.afterAll first).afterAll rest) =
      (s.afterAll (first ++ rest)).initialised := by
  rw [← afterAll_append, synchronizing_afterAll]
  rfl

/-- The Synchronizing region, acknowledged: INIT goes on with its commands (R141 to R144). -/
theorem exec_init_synchronized (s : State) (h : s.Acks (primitives (syncEvents s.cfg))) :
    exec .init s = .next (run (stagesProgram s.cfg (initStages s.cfg) ++ [.ret .ok])
      (s.synchronizing.afterAll (syncEvents s.cfg))) := by
  rw [exec_hostProgram (.inl rfl) rfl, initProgram_eq]
  exact congrArg _ (run_of_completes (completes_emitting _ s.synchronizing h) _)

/-- Where the environment grants it INIT completes in its own step, and its events say the five commands behind the
Synchronizing region. -/
theorem exec_init_granted (s : State) (hg : s.Grants (cost s.cfg (initProgram s.cfg))) :
    ∃ evs, exec .init s = .next (initDone s (syncEvents s.cfg ++ evs)) ∧
      Speaks s.cfg.busWidth evs ((initTransfers s.cfg).map fun x => .cmd x.2) ∧ KeepsRest evs := by
  have hcost : cost s.cfg (initProgram s.cfg) =
      primitives (syncEvents s.cfg) + cost s.cfg (stagesProgram s.cfg (initStages s.cfg)) := by
    rw [initProgram_eq, cost_cons, cost_append, cost_emitting, cost_append]
    exact Nat.zero_add _
  rw [hcost] at hg
  have hsync : s.synchronizing.Grants _ := hg
  obtain ⟨evs, hrun, hsays, hrest⟩ := completes_stages (c := s.cfg) (writesOnly_initStages s.cfg)
    (afterAll_cfg s.synchronizing _) (Grants.afterAll (syncEvents s.cfg) hsync)
  refine ⟨evs, ?_, ?_, hrest⟩
  · rw [exec_init_synchronized s (Acks.mono hg.1 (Nat.le_add_right ..)), run_of_completes hrun, effects_initStages]
    rfl
  · rwa [← initStages_transfers, List.map_map]

/-! ## The statements -/

/-- The pulses of the Synchronizing region as the statement on INIT writes them (R103, R142 to R144). -/
theorem syncEvent_eq (w : BusWidth) (n : Nibble) :
    syncEvent w n = if w = .w4 then .sync n else .syncByte (BitVec.ofNat 8 (16 * n.toNat)) := by
  cases w with
  | w4 => rfl
  | w8 => exact congrArg CommandEvent.syncByte (append_zero_eq_ofNat n)

/-- Settles O23: INIT ends in `initDone`; at the command level its events are those of the Synchronizing region and then
those of the stages. -/
theorem initInitialises : Obligations.InitInitialises := by
  intro s hg
  obtain ⟨evs, hexec, hsays, hrest⟩ := exec_init_granted s hg
  obtain ⟨hsync, hidle, hline⟩ := syncRegion s.cfg s.lines
  refine ⟨_, hexec, ⟨⟨_, initDone_trace .., ?_⟩, rfl, ?_⟩, initDone_returned .., rfl, rfl, rfl, rfl, rfl, initDone_outside ..⟩
  · rw [syncEvents, commandTrace_append, (hsays _ hidle).1, hsync]
    refine congrArg (· ++ _) ?_
    cases hw : s.cfg.busWidth <;> cases ho : s.cfg.oledResync <;>
      simp [syncEvent_eq, Function.comp_def]
  · rw [initDone_lines, List.foldl_append]
    exact hrest _ hline

/-- Settles O24: under fixed delay INIT emits the events of its micro-sequence, which the default configuration makes these
108. -/
theorem defaultInitTrace : Obligations.DefaultInitTrace := by
  refine ⟨fun s hc ha => ?_, by decide, by decide⟩
  have hs : s.cfg.strategy = .fixedDelay := by rw [hc]; rfl
  have hevents : emitted (initProgram s.cfg) = defaultInitEvents := by rw [hc]; decide
  have hcost : cost s.cfg (initProgram s.cfg) = 61 := by rw [hc]; decide
  obtain ⟨evs, hexec, -⟩ := exec_init_granted s ⟨by rwa [hcost], by simp [hs]⟩
  obtain ⟨t, ht, htrace, -⟩ := exec_hostProgram_fixed hs (.inl rfl) rfl (by rw [hevents]; exact ha)
  cases hexec.symm.trans ht
  rw [initDone_trace, hevents] at htrace
  rw [List.append_cancel_left htrace] at hexec
  refine ⟨_, hexec, initDone_trace .., initDone_returned .., rfl, rfl, rfl, rfl, rfl, ?_⟩
  rw [initDone_lines]
  exact ⟨rfl, rfl, rfl, rfl, BitVec.extractLsb'_append_eq_left⟩

/-- Settles O56: behind the Synchronizing region, which has no poll, the stages poll until ready. -/
theorem polledTraceOfInit : Obligations.PolledTraceOfInit := by
  intro s hc hp ha
  have hsync : s.synchronizing.AcksAll := ha
  refine ⟨_, exec_init_synchronized s (AcksAll.acks ha _), fun he => ?_⟩
  obtain ⟨n, vss, hrun, hlen, hready⟩ := stages_poll hc hp (writesOnly_initStages s.cfg) (afterAll_cfg s.synchronizing _)
    (AcksAll.afterAll hsync _) _ he
  rw [initStages_transfers, effects_initStages] at hrun
  refine ⟨n, initDone s (syncEvents s.cfg ++ polledTransfers s.cfg (initTransfers s.cfg) vss), vss, hrun, hlen, hready, ?_, rfl,
    initDone_returned .., rfl, rfl, rfl, rfl, rfl, ?_, initDone_outside ..⟩
  · rw [initDone_trace]
    simp [syncEvents]
  · rw [initDone_lines, List.foldl_append]
    exact polledTransfers_atRest hc _ _ (by simp [initTransfers]) hlen _

end Sys2Proof.Machine
end

section
/-!
SUPPORT. The phase with no operation running (R150, R151, R260): what a step there can take, and what an operation other than
INIT does to the phase.
-/

namespace Sys2Proof.Machine

/-- A step at rest, with nothing at the transfer port and no reset input, takes a host word or is idle. -/
theorem step_next_at_rest {s t : State} (hp : s.position = []) (hx : s.transferPort = none) (hr : s.resetIn = none)
    (h : step s = .next t) :
    (∃ w rest, s.hostPort = w :: rest ∧
      ((∃ i, decodeHost w = .instr i ∧ exec i s.takeWord = .next t) ∨ t = refuse .errIllegalOp s.takeWord)) ∨ t = s := by
  rcases task_cases s with ⟨-, h0⟩ | ⟨-, h0⟩ | ⟨x, -, -, h0⟩ | ⟨w, rest, ht, -, -, hw⟩ | ⟨ht, -⟩
  · exact nomatch hr.symm.trans h0
  · exact absurd hp h0
  · exact nomatch hx.symm.trans h0
  all_goals
    simp only [step, ht] at h
    split at h
    case isFalse => cases h
  · refine .inl ⟨w, rest, hw, ?_⟩
    cases hd : decodeHost w with
    | instr i => rw [hd] at h; exact .inl ⟨i, rfl, h⟩
    | reject why => rw [hd] at h; cases h; exact .inr rfl
  · cases h; exact .inr rfl

/-- A transport failure in phase Ready is all that takes an operation other than INIT to another phase. -/
theorem exec_phase_of_ne_init {i : Instr} {s t : State} (hi : i.isHost = true) (hn : i ≠ .init) (hr : s.resetIn = none)
    (h : exec i s = .next t) :
    (t.phase = s.phase ∧ (s.phase ≠ .ready → t.trace = s.trace)) ∨ (s.phase = .ready ∧ t.phase = .failed) := by
  by_cases hs : s.phase = .ready
  · by_cases hf : t.phase = .failed
    · exact .inr ⟨hs, hf⟩
    · exact .inl ⟨read_exec (r := .phase) (beq_false_of_ne hn) hr h hf, fun hne => absurd hs hne⟩
  · rw [exec_notReady hi hn hs] at h
    cases h
    exact .inl ⟨rfl, fun _ => rfl⟩

/-- Settles O25: a host operation other than INIT is refused outside phase Ready, and in it fails in transport or keeps the
phase. -/
theorem onlyInitLeavesResetAndFailed : Obligations.OnlyInitLeavesResetAndFailed := by
  intro s t hp hx hr h
  rcases step_next_at_rest hp hx hr h with ⟨w, rest, hw, ⟨i, hd, hexec⟩ | rfl⟩ | rfl
  · by_cases hn : i = .init
    · subst hn
      exact .inl ⟨w, rest, hw, hd⟩
    · exact .inr (exec_phase_of_ne_init (s := s.takeWord) (decodeHost_isHost hd) hn hr hexec)
  all_goals exact .inr (.inl ⟨rfl, fun _ => rfl⟩)

end Sys2Proof.Machine
end

section
/-!
SUPPORT. POLLWAIT step by step (R162 to R165): what one iteration does by its sample, and the exit behind a ready one.
-/

namespace Sys2Proof.Machine

theorem primitives_pollIteration {c : Config} (hc : c.wf = true) (v : Nibble) :
    primitives (pollIteration c v) = pollCost c := by
  rw [pollIteration_eq_pollEvents hc, primitives_pollEvents]

section
variable {s : State} (hc : s.cfg.wf = true)
include hc

/-- One acknowledged iteration: it goes on or stands by bit 3 of its sample (R163, R164). -/
theorem poll_run_ack (ha : s.Acks (pollCost s.cfg)) :
    Micro.poll.run s =
      if 8 ≤ (s.answerAt 1).data.toNat then .wait (s.afterAll (pollIteration s.cfg (s.answerAt 1).data))
      else .go (s.afterAll (pollIteration s.cfg (s.answerAt 1).data)) := by
  rw [pollIteration_eq_pollEvents hc]
  exact (pollOnce_ack s ha).trans (if_congr busy_eq_true rfl rfl)

/-- A step in the loop whose sample is busy: one iteration, and the loop stands (R165). -/
theorem step_busy {ms : List Micro} (hp : s.position = .poll :: ms) (ha : s.Acks (pollCost s.cfg))
    (hv : 8 ≤ (s.answerAt 1).data.toNat) :
    step s = .next (s.afterAll (pollIteration s.cfg (s.answerAt 1).data)) := by
  rw [step_resume hc (by simp [ha.1]) hp, run, poll_run_ack hc ha, if_pos hv]
  refine congrArg Host.Outcome.next ?_
  rw [← hp, ← afterAll_position s (pollIteration s.cfg (s.answerAt 1).data)]

/-- The iteration that ends the loop, and the exit of POLLWAIT (R164). -/
theorem completes_readyPoll (ha : s.Acks (pollCost s.cfg + 2)) (hv : (s.answerAt 1).data.toNat < 8) :
    completes (.poll :: emitting pollExit) s =
      some (s.afterAll (pollIteration s.cfg (s.answerAt 1).data ++ pollExit)) := by
  rw [completes, poll_run_ack hc (Acks.mono ha (Nat.le_add_right ..)), if_neg (Nat.not_le.mpr hv), afterAll_append]
  exact completes_emitting _ _ (Acks.afterAll _ (by rw [primitives_pollIteration hc]; exact ha))

end

/-- Settles O19: a busy step is `step_busy`, and events change no register. -/
theorem busySampleKeepsPolling : Obligations.BusySampleKeepsPolling := by
  intro s ms hc hp ha hv
  rw [primitives_pollIteration hc] at ha
  refine ⟨_, step_busy hc hp ha hv, afterAll_position .., afterAll_trace .., sameRegisters_afterAll s _ (State.position _),
    (ran_afterAll s _).outside, ?_⟩
  rw [afterAll_lines, pollIteration_eq_pollEvents hc, drive_pollEvents]

/-- Settles O20: the rest runs behind the completed iteration and exit. -/
theorem readySampleEndsPolling : Obligations.ReadySampleEndsPolling := by
  intro s ms hc hp ha hv
  have hcost := primitives_pollIteration hc
  rw [hcost] at ha ⊢
  have hstep := step_resume hc (by simp [ha.1]) hp
  have hlines : (s.afterAll (pollIteration s.cfg (s.answerAt 1).data ++ pollExit)).lines =
      { s.lines with e := false, rw := false, dir := .output } := by
    rw [afterAll_lines, List.foldl_append, pollIteration_eq_pollEvents hc, drive_pollEvents]; rfl
  refine ⟨_, hstep.trans (congrArg _ (run_of_completes (completes_readyPoll hc ha hv) ms)), ?_,
    congrArg Lines.atRest hlines, (congrArg Lines.rs hlines :), (congrArg Lines.data hlines :),
    sameRegisters_afterAll s _ (State.position _), (ran_afterAll s _).outside, afterAll_resetIn_none ha.1 _, fun j => ?_⟩
  · rw [afterAll_trace, List.append_assoc]; rfl
  · rw [answerAt_afterAll, primitives_append, hcost, Nat.add_assoc]; rfl

/-! ## A controller that stays busy -/

/-- The next `n` iterations of the loop, with the samples that they would read (R163, R165). -/
def nextIterations (s : State) (n : Nat) : List BusEvent :=
  (List.range n).flatMap fun k =>
    pollIteration s.cfg (s.answerAt (k * primitives (pollIteration s.cfg 0) + 1)).data

theorem nextIterations_succ (s : State) (n : Nat) :
    nextIterations s (n + 1) = nextIterations s n ++
      pollIteration s.cfg (s.answerAt (n * primitives (pollIteration s.cfg 0) + 1)).data := by
  simp [nextIterations, List.range_succ]

theorem primitives_nextIterations {s : State} (hc : s.cfg.wf = true) (n : Nat) :
    primitives (nextIterations s n) = n * primitives (pollIteration s.cfg 0) := by
  induction n with
  | zero => simp [nextIterations]
  | succ n ih =>
    rw [nextIterations_succ, primitives_append, ih, primitives_pollIteration hc, primitives_pollIteration hc, Nat.succ_mul]

/-- While every sample is busy each step is one more iteration (R165). -/
theorem run_busy {s : State} {ms : List Micro} (hc : s.cfg.wf = true) (hp : s.position = .poll :: ms) (n : Nat)
    (ha : s.Acks (n * primitives (pollIteration s.cfg 0)))
    (hv : ∀ k, k < n → 8 ≤ (s.answerAt (k * primitives (pollIteration s.cfg 0) + 1)).data.toNat) :
    Host.Core.run core n s = .next (s.afterAll (nextIterations s n)) := by
  induction n with
  | zero => rfl
  | succ n ih =>
    rw [Nat.succ_mul] at ha
    have hrun := ih (Acks.mono ha (Nat.le_add_right ..)) fun k hk => hv k (Nat.lt_succ_of_lt hk)
    have hprim := primitives_nextIterations hc n
    rw [← hprim] at ha
    have hsample : (s.afterAll (nextIterations s n)).answerAt 1 =
        s.answerAt (n * primitives (pollIteration s.cfg 0) + 1) := by
      rw [answerAt_afterAll, hprim, Nat.add_comm]
    have hstep := step_busy (s := s.afterAll (nextIterations s n)) (by rwa [afterAll_cfg])
      ((afterAll_position ..).trans hp)
      (by rw [afterAll_cfg, ← primitives_pollIteration hc 0]; exact Acks.afterAll _ ha)
      (by rw [hsample]; exact hv n (Nat.lt_succ_self n))
    rw [hsample, afterAll_cfg, ← afterAll_append, ← nextIterations_succ] at hstep
    exact (core_run_add hrun 1).trans (core_run_succ hstep)

/-- Settles O21: the `n` steps of `run_busy`, which leave the position and every register. -/
theorem busyControllerHangsTheOperation : Obligations.BusyControllerHangsTheOperation := by
  intro n s ms hc hp ha hv
  exact ⟨_, run_busy hc hp n ha hv, afterAll_position .., afterAll_trace .., sameRegisters_afterAll s _ (State.position _),
    (ran_afterAll s _).outside⟩

/-! ## A transfer with its POLLWAIT -/

/-- CMD and DATA under polling: register-select and byte, the entry, the loop, the exit (R113, R114, R162 to R164). -/
theorem farProgram_polled {c : Config} (hc : c.wf = true) (hs : c.strategy = .busyFlagPolling) (rs : Bool) (b : Byte) :
    farProgram c rs b = emitting (transferEvents c rs b ++ pollEntry) ++ .poll :: emitting pollExit := by
  cases rs <;> simp [farProgram, cmd, data, waitFor, hs, pollWait, transferEvents_eq_xfer hc]

/-- Where the first sample is ready, a transfer completes with one iteration. -/
theorem completes_farProgram {s : State} {rs : Bool} {b : Byte} {v : Nibble} (hc : s.cfg.wf = true)
    (hs : s.cfg.strategy = .busyFlagPolling) (ha : s.Acks (primitives (polledTransfer s.cfg rs b [v])))
    (hsample : (s.answerAt (primitives (transferEvents s.cfg rs b) + 4)).data = v) (hv : v.toNat < 8) :
    completes (farProgram s.cfg rs b) s = some (s.afterAll (polledTransfer s.cfg rs b [v])) := by
  have hevents : polledTransfer s.cfg rs b [v] =
      (transferEvents s.cfg rs b ++ pollEntry) ++ (pollIteration s.cfg v ++ pollExit) := by
    simp [polledTransfer, pollEntry, pollExit]
  have hentry : primitives (transferEvents s.cfg rs b ++ pollEntry) = primitives (transferEvents s.cfg rs b) + 3 :=
    primitives_append ..
  rw [hevents, primitives_append, primitives_append (pollIteration ..), primitives_pollIteration hc] at ha
  rw [farProgram_polled hc hs, hevents]
  generalize transferEvents s.cfg rs b ++ pollEntry = entry at hentry ha
  have hread : ((s.afterAll entry).answerAt 1).data = v := by
    rw [answerAt_afterAll, hentry, ← hsample, Nat.add_comm]
  have hpoll := completes_readyPoll (s := s.afterAll entry) (by rwa [afterAll_cfg])
    (by rw [afterAll_cfg]; exact Acks.afterAll _ ha) (by rwa [hread])
  rw [hread, afterAll_cfg, ← afterAll_append] at hpoll
  exact completes_append (completes_emitting _ s (Acks.mono ha (Nat.le_add_right ..))) hpoll

/-- Settles O17: the transfer completes with the events of `polledTransfer`, whose exit leaves the lines at rest. -/
theorem farTransferUnderPolling : Obligations.FarTransferUnderPolling := by
  intro s i rs b v hc hs hb ha hsample hv
  have hrun := run_completes (completes_farProgram hc hs ha hsample hv)
  refine ⟨_, (exec_farProgram hb).trans (congrArg _ hrun), afterAll_trace .., rfl, sameRegisters_afterAll ..,
    ((ran_afterAll s _).position []).outside, ?_⟩
  obtain ⟨d, hd⟩ := drive_transfer s.cfg rs b s.lines
  have hlines : (s.afterAll (polledTransfer s.cfg rs b [v])).lines =
      { s.lines with e := false, rs := false, rw := false, dir := .output, data := d } := by
    rw [afterAll_lines, polledTransfer_eq hc, List.foldl_append, hd, List.flatMap_singleton]
    exact drive_pollWait ..
  exact ⟨congrArg Lines.atRest hlines, congrArg Lines.rs hlines⟩

end Sys2Proof.Machine
end

section
/-!
SUPPORT. Every operation ends: under fixed delay in its own step (R161), under polling once each POLLWAIT reads a sample with
bit 3 clear (R166).
-/

namespace Sys2Proof.Machine

/-- No operation runs, or one stands in a poll loop with fewer than `n` actions behind it. -/
def PollsBelow (n : Nat) (t : State) : Prop :=
  t.position = [] ∨ ∃ ms, t.position = .poll :: ms ∧ ms.length < n

theorem run_pollsBelow (p : List Micro) (s : State) : PollsBelow p.length (run p s) := (run_shape p s).2

/-! ## Under fixed delay -/

/-- An instruction begun with no operation running ends, or stands in a poll loop. -/
theorem exec_position {i : Instr} {s t : State} (hp : s.position = []) (h : exec i s = .next t) :
    t.position = [] ∨ ∃ ms, t.position = .poll :: ms := by
  rcases exec_next_cases h with ⟨p, -, rfl⟩ | ⟨_, rfl⟩ | ⟨_, rfl⟩ | ⟨_, ⟨_, _, rfl⟩ | ⟨_, _, _, _, rfl⟩⟩
  · exact (run_pollsBelow p s).imp_right fun ⟨ms, hms, _⟩ => ⟨ms, hms⟩
  all_goals exact .inl hp

/-- Settles O22: a poll is no action that fixed delay allows. -/
theorem fixedDelayOperationsEnd : Obligations.FixedDelayOperationsEnd := by
  intro i s t hs hp h
  refine (exec_position hp h).resolve_right fun ⟨ms, hms⟩ => ?_
  obtain ⟨-, hallowed⟩ := exec_staysAllowed (by rw [hp]; rfl) h
  simp [hms, Micro.allowed, hs] at hallowed

/-! ## Under ENV_BF_CLEARS -/

/-- A step of a running operation, whatever BUS answers and whether or not the reset input comes. -/
theorem step_running {s : State} (hc : s.cfg.wf = true) (hp : s.position ≠ []) :
    ∃ t, step s = .next t ∧ t.cfg = s.cfg ∧ PollsBelow s.position.length t := by
  by_cases hr : s.resetIn = some 0
  · exact ⟨_, step_reset hc hr, State.assertReset_cfg .., .inl (State.assertReset_position ..)⟩
  · obtain ⟨m, ms, hms⟩ := List.exists_cons_of_ne_nil hp
    rw [hms]
    exact ⟨_, step_resume hc hr hms, (run_shape _ s).1, run_pollsBelow _ s⟩

/-- A step in a poll loop leaves the loop, or is one iteration whose sample is busy. -/
theorem step_poll {s : State} {ms : List Micro} (hc : s.cfg.wf = true) (hp : s.position = .poll :: ms) :
    ∃ t, step s = .next t ∧ t.cfg = s.cfg ∧
      (PollsBelow ms.length t ∨
        (8 ≤ (s.answerAt 1).data.toNat ∧ t = s.afterAll (pollEvents s.cfg (s.answerAt 1).data))) := by
  by_cases hr : s.resetIn = some 0
  · exact ⟨_, step_reset hc hr, State.assertReset_cfg .., .inl (.inl (State.assertReset_position ..))⟩
  refine ⟨_, step_resume hc hr hp, (run_shape _ s).1, ?_⟩
  rw [run]
  cases hm : Micro.poll.run s with
  | go t => exact .inl (run_pollsBelow ms t)
  | wait t =>
    obtain ⟨rfl, hbusy⟩ := pollOnce_wait hm
    exact .inr ⟨busy_eq_true.mp hbusy, by rw [← hp, ← afterAll_position s (pollEvents s.cfg (s.answerAt 1).data)]⟩
  | halt t => exact .inl (.inl (halt_position hm).1)

/-- A loop whose `k`-th sample from here is ready is left within `k + 1` steps. -/
theorem poll_progress (k : Nat) {s : State} {ms : List Micro} (hc : s.cfg.wf = true) (hp : s.position = .poll :: ms)
    (hk : (s.answerAt (k * pollCost s.cfg + 1)).data.toNat < 8) :
    ∃ n t, Host.Core.run core n s = .next t ∧ t.cfg = s.cfg ∧ PollsBelow ms.length t := by
  induction k generalizing s with
  | zero =>
    rw [Nat.zero_mul, Nat.zero_add] at hk
    obtain ⟨t, hstep, hcfg, hleft | ⟨hbusy, -⟩⟩ := step_poll hc hp
    · exact ⟨1, t, core_run_succ hstep, hcfg, hleft⟩
    · exact absurd hbusy (Nat.not_le.mpr hk)
  | succ k ih =>
    obtain ⟨t, hstep, hcfg, hleft | ⟨-, rfl⟩⟩ := step_poll hc hp
    · exact ⟨1, t, core_run_succ hstep, hcfg, hleft⟩
    · obtain ⟨n, u, hrun, hucfg, hu⟩ := ih (by rwa [hcfg]) ((afterAll_position ..).trans hp) (by
        rw [answerAt_afterAll, primitives_pollEvents, hcfg, Nat.add_right_comm, ← Nat.succ_mul]; exact hk)
      exact ⟨n + 1, u, (core_run_succ hstep).trans hrun, hucfg.trans hcfg, hu⟩

/-- Each POLLWAIT that is left leaves fewer actions to do. -/
theorem ends_of_pollsBelow (n : Nat) {s : State} (hc : s.cfg.wf = true) (he : s.EnvBfClears) (hs : PollsBelow n s) :
    ∃ m t, Host.Core.run core m s = .next t ∧ t.position = [] := by
  induction n using Nat.strongRecOn generalizing s with
  | ind n ih =>
    rcases hs with hs | ⟨ms, hp, hlen⟩
    · exact ⟨0, s, rfl, hs⟩
    · obtain ⟨k, hk⟩ := he 0 s rfl (by simp [State.inPoll, hp])
      obtain ⟨m, t, hrun, hcfg, ht⟩ := poll_progress k hc hp hk
      obtain ⟨l, u, hlast, hu⟩ := ih ms.length hlen (by rwa [hcfg]) (EnvBfClears.of_run he hrun) ht
      exact ⟨m + l, u, (core_run_add hrun l).trans hlast, hu⟩

/-- Settles O54: a first step ends the operation or brings it to a poll loop, from where each POLLWAIT is left. -/
theorem operationsEndWhenTheBusyFlagClears : Obligations.OperationsEndWhenTheBusyFlagClears := by
  intro s hc he
  by_cases hp : s.position = []
  · exact ⟨0, s, rfl, hp⟩
  · obtain ⟨t, hstep, hcfg, ht⟩ := step_running hc hp
    have hrun : Host.Core.run core 1 s = .next t := core_run_succ hstep
    obtain ⟨n, u, hlast, hu⟩ := ends_of_pollsBelow _ (by rwa [hcfg]) (EnvBfClears.of_run he hrun) ht
    exact ⟨1 + n, u, (core_run_add hrun n).trans hlast, hu⟩

end Sys2Proof.Machine
end

section
/-!
SUPPORT. The host operations other than INIT as transfers between register writes, and their run under polling (R160 to R166).
-/

namespace Sys2Proof.Machine

/-- The micro-sequence of transfers in order. -/
def transfersProgram (c : Config) (xs : List (Bool × Byte)) : List Micro := xs.flatMap fun x => farProgram c x.1 x.2

/-- The registers that a completed operation of transfers leaves: the phase as it was, the others as the operation says. -/
def RegistersAfter (s : State) (i : Instr) (t : State) : Prop :=
  t.phase = s.phase ∧ (t.curCol, t.curRow) = cursorAfter s i ∧
    t.displayControl = (displayAfter s.displayControl i).getD s.displayControl ∧
    t.entryMode = (entryAfter s.entryMode i).getD s.entryMode

/-- The operation is its transfers `xs` between the register writes `before` and `after`, and then `return OK`. -/
structure Transfers (s : State) (i : Instr) (xs : List (Bool × Byte)) (before after : List Micro) : Prop where
  program      : hostProgram s i = some (before ++ (transfersProgram s.cfg xs ++ (after ++ [.ret .ok])))
  nonempty     : xs ≠ []
  writesBefore : WritesOnly before
  writesAfter  : WritesOnly after
  registers    : RegistersAfter s i (after.foldl Micro.effect (before.foldl Micro.effect s))

theorem writesOnly_nil : WritesOnly [] := fun _ hm => absurd hm List.not_mem_nil

theorem writesOnly_singleton {m : Micro} (h : m.target ≠ none) : WritesOnly [m] :=
  fun _ hm => List.mem_singleton.mp hm ▸ h

/-! ## The programs -/

theorem transfersProgram_command (c : Config) (b : Byte) : transfersProgram c [(false, b)] = cmd c b :=
  List.flatMap_singleton ..

theorem transfersProgram_char (c : Config) (a : BitVec 7) (code : Byte) :
    transfersProgram c [(false, BitVec.ofNat 8 (128 + a.toNat)), (true, code)] = charProgram c a code := by
  simp [transfersProgram, farProgram, charProgram, ddramByte_toNat]

theorem transfersProgram_glyph (c : Config) {slot : Byte} (hslot : slot.toNat ≤ 7) (glyph : BitVec 64) :
    transfersProgram c ((false, BitVec.ofNat 8 (64 + 8 * slot.toNat))
        :: (List.range 8).map fun k => (true, BitVec.ofNat 8 (glyph.toNat / 2 ^ (8 * k)))) =
      cmd c (cgramByte (slot.extractLsb' 0 3)) ++ (glyphBytes glyph).flatMap (data c) := by
  have hlow : (slot.extractLsb' 0 3).toNat = slot.toNat := by simp; omega
  simp only [transfersProgram, List.flatMap_cons, List.flatMap_map, farProgram, glyphBytes, glyphByte_toNat,
    cgramByte_toNat, hlow, Bool.false_eq_true, if_false, if_true]

/-! ## The operations -/

section
variable {s : State} {i : Instr} {xs : List (Bool × Byte)}

/-- One command between register writes. -/
theorem transfers_oneCommand {before after : List Micro} {b : Byte}
    (hp : hostProgram s i = some (before ++ cmd s.cfg b ++ (after ++ [.ret .ok]))) (hbefore : WritesOnly before)
    (hafter : WritesOnly after) (hr : RegistersAfter s i (after.foldl Micro.effect (before.foldl Micro.effect s))) :
    Transfers s i [(false, b)] before after :=
  ⟨by rw [hp, transfersProgram_command, List.append_assoc], List.cons_ne_nil _ _, hbefore, hafter, hr⟩

/-- A display mode writes its shadow before its command (R220). -/
theorem transfers_displayMode (hp : hostProgram s i = displayModeProgram s i) (h : displayModeTransfers s i = some xs) :
    ∃ before after, Transfers s i xs before after := by
  obtain ⟨v, hv, rfl⟩ := Option.map_eq_some_iff.mp h
  obtain ⟨hcursor, hentry⟩ : cursorAfter s i = (s.curCol, s.curRow) ∧ entryAfter s.entryMode i = none := by
    cases i <;> trivial
  refine ⟨[.setDisplayControl v], [], transfers_oneCommand ?_ (writesOnly_singleton (by simp [Micro.target])) writesOnly_nil
    ⟨rfl, hcursor.symm, by rw [hv]; rfl, by rw [hentry]; rfl⟩⟩
  rw [hp, displayModeProgram, hv, ← displayByte_toNat]; rfl

/-- An entry mode likewise (R220). -/
theorem transfers_entryMode (hp : hostProgram s i = entryModeProgram s i) (h : entryModeTransfers s i = some xs) :
    ∃ before after, Transfers s i xs before after := by
  obtain ⟨v, hv, rfl⟩ := Option.map_eq_some_iff.mp h
  obtain ⟨hcursor, hdisplay⟩ : cursorAfter s i = (s.curCol, s.curRow) ∧ displayAfter s.displayControl i = none := by
    cases i <;> trivial
  refine ⟨[.setEntryMode v], [], transfers_oneCommand ?_ (writesOnly_singleton (by simp [Micro.target])) writesOnly_nil
    ⟨rfl, hcursor.symm, by rw [hdisplay]; rfl, by rw [hv]; rfl⟩⟩
  rw [hp, entryModeProgram, hv, ← entryByte_toNat]; rfl

/-- Every host operation of transfers (R190 to R194, R220, R240). -/
theorem hostTransfers_transfers (h : hostTransfers s i = some xs) : ∃ before after, Transfers s i xs before after := by
  cases i with
  | writeAt column row code =>
    obtain ⟨a, ha, rfl⟩ := Option.map_eq_some_iff.mp h
    refine ⟨[], [], ?_, List.cons_ne_nil _ _, writesOnly_nil, writesOnly_nil, rfl, rfl, rfl, rfl⟩
    rw [transfersProgram_char, hostProgram, ha]; rfl
  | writeStream byte =>
    by_cases hb : byte = s.cfg.lfCode
    case pos => rw [hostTransfers, if_pos hb] at h; cases h
    rw [hostTransfers, if_neg hb] at h
    obtain ⟨a, ha, rfl⟩ := Option.map_eq_some_iff.mp h
    refine ⟨[], [.advance], ?_, List.cons_ne_nil _ _, writesOnly_nil, writesOnly_singleton (by simp [Micro.target]), rfl,
      rfl, rfl, rfl⟩
    rw [transfersProgram_char, hostProgram, if_neg hb, ha]; rfl
  | clear | home =>
    cases h
    exact ⟨[], [.setCursor 0 0], transfers_oneCommand rfl writesOnly_nil (writesOnly_singleton (by simp [Micro.target]))
      ⟨rfl, rfl, rfl, rfl⟩⟩
  | defineGlyph slot glyph =>
    by_cases hslot : slot.toNat ≤ 7
    case neg => rw [hostTransfers, if_neg hslot] at h; cases h
    rw [hostTransfers, if_pos hslot] at h
    cases h
    refine ⟨[], [], ?_, List.cons_ne_nil _ _, writesOnly_nil, writesOnly_nil, rfl, rfl, rfl, rfl⟩
    rw [transfersProgram_glyph _ hslot, hostProgram, if_pos hslot]; rfl
  | setDisplayOff | setDisplayOn | setCursorOff | setCursorOn | setBlinkOff | setBlinkOn => exact transfers_displayMode rfl h
  | setFlowDecrement | setFlowIncrement | setShiftOff | setShiftOn => exact transfers_entryMode rfl h
  | _ => cases h

end

/-! ## The run under polling -/

/-- Register writes emit and return nothing. -/
theorem SameWorld.ran {s t : State} (h : SameWorld s t) : Ran s [] t := by
  obtain ⟨htrace, hlines, hresults, houtput, -, hreset, houtside⟩ := h.fields
  exact ⟨by rw [htrace, List.append_nil], hlines, houtput, hresults, by rw [hreset]; cases s.resetIn <;> rfl, h.ackedAt,
    houtside⟩

/-- What is returned behind the events. -/
theorem Ran.returned {s t : State} {evs : List BusEvent} (h : Ran s evs t) (st : Status) :
    Returned s { t.returnStatus st with position := [] } st := ⟨_, rfl, congrArg (· ++ _) h.results⟩

/-- Settles O55: the register writes around the transfers change places with the events, so the operation ends in the state
`done` that they leave, behind the events of its transfers. -/
theorem polledTraceOfEveryOperation : Obligations.PolledTraceOfEveryOperation := by
  intro s i xs hc hs hr hx ha
  obtain ⟨before, after, hprogram, hne, hbefore, hafter, hregisters⟩ := hostTransfers_transfers hx
  have hexec := exec_hostProgram (.inr hr) hprogram
  rw [run_of_completes (completes_writes hbefore s)] at hexec
  have hworld := sameWorld_effects hbefore s
  refine ⟨_, hexec, fun he => ?_⟩
  obtain ⟨n, vss, hrun, hlen, hready⟩ := polls_transfers hc hs xs _ _ hworld.cfg (hworld.acksAll ha) he
  rw [run_of_completes (completes_writes hafter _), ← effects_afterAll hafter] at hrun
  have hdone := hworld.trans (sameWorld_effects hafter _)
  generalize after.foldl Micro.effect (before.foldl Micro.effect s) = done at hregisters hrun hdone
  obtain ⟨hphase, hcursor, hdisplay, hentry⟩ := hregisters
  have hran := hdone.ran.trans (ran_afterAll done (polledTransfers s.cfg xs vss))
  refine ⟨n, _, vss, hrun, hlen, hready, hran.trace, rfl, hran.returned .ok, ?_, ?_, ?_, ?_, ?_, hran.outside⟩
  · exact (afterAll_phase ..).trans (hphase.trans hr)
  · exact (congrArg₂ Prod.mk (afterAll_curCol ..) (afterAll_curRow ..)).trans hcursor
  · exact (afterAll_displayControl ..).trans hdisplay
  · exact (afterAll_entryMode ..).trans hentry
  · exact (congrArg Lines.atRest hran.lines).trans (polledTransfers_atRest hc xs vss hne hlen _)

end Sys2Proof.Machine
end

section
/-!
SUPPORT. A primitive that is not acknowledged (R167, R250, R255): in the iteration that a step takes, and anywhere in a host
operation.
-/

namespace Sys2Proof.Machine

theorem Ran.failed {s t : State} {evs : List BusEvent} (h : Ran s evs t) :
    Returned s (transportFailure t) .errTransport := ⟨_, rfl, congrArg (· ++ _) h.results⟩

/-- A return emits nothing. -/
theorem Emits.ret {c : Config} {p : List Micro} {evs : List BusEvent} (h : Emits c p evs) (st : Status) :
    Emits c (p ++ [.ret st]) evs := by
  have hret : Emits c [.ret st] [] := ⟨[], [], rfl, rfl, rfl⟩
  simpa using h.append hret

section
variable {s : State} {j : Nat} (hacked : ∀ k, k < j → s.ackedAt k = true) (hnack : s.ackedAt j = false)
include hnack

/-- Acknowledged events end before the first primitive that is not acknowledged. -/
theorem Clear.primitives_le {evs : List BusEvent} (h : Clear s evs) : primitives evs ≤ j := by
  by_contra hj
  exact absurd (h.1 j (Nat.lt_of_not_le hj)) (by simp [hnack])

include hacked

/-- What ends the events is the first primitive that is not acknowledged. -/
theorem Nacked.primitives_eq {evs : List BusEvent} {ev : BusEvent} (h : Nacked s evs ev) : primitives evs = j := by
  obtain ⟨-, hevs, hev, -⟩ := h
  refine Nat.le_antisymm (Nat.le_of_not_lt fun hj => ?_) (Nat.le_of_not_lt fun hj => ?_)
  · exact absurd (hevs j hj) (by simp [hnack])
  · exact absurd (hacked _ hj) (by simp [hev])

end

/-- Settles O44: the iteration cannot be over before its `j`-th primitive, which is what cuts it short. -/
theorem nackDuringPollingEndsTheOperation : Obligations.NackDuringPollingEndsTheOperation := by
  intro s ms j hc hp hr hj hacked hnack
  have hrun : step s = .next (run (.poll :: ms) s) := step_resume hc (by simp [hr]) hp
  rw [run, Micro.run] at hrun
  rcases pollOnce_cases s hc (by simp [hr]) with ⟨_, -, hclear, -⟩ | ⟨evs, ev, rest, t, hevs, hpoll, hran, hcut⟩ |
    ⟨_, _, _, -, -, -, hreset⟩
  · have hle := hclear.primitives_le hnack
    rw [primitives_pollIteration hc] at hj hle
    omega
  · rw [hpoll] at hrun
    exact ⟨_, evs, ev, rest, hrun, by rw [State.transportFailure_trace, hran.trace, List.append_assoc], hcut.1,
      hcut.primitives_eq hacked hnack, hevs, rfl, hran.failed, rfl, hran.outside⟩
  · cases hr.symm.trans hreset

/-- Settles O57: the primitive that is not acknowledged bounds the operation, which ends before it or by it. -/
theorem nackAnywhereEndsTheOperation : Obligations.NackAnywhereEndsTheOperation := by
  intro s i p j hc hi hp hr hacked hnack
  obtain ⟨q, rfl, hq⟩ := hostProgram_goesOn hp
  obtain ⟨n, u, hrun, hend⟩ := operation_ends (j + 1) q hq s hc (by simp [hr]) (.inl ⟨j, Nat.lt_succ_self j, hnack⟩)
  rcases hend with ⟨evs, t, rfl, hran, hclear, hemits⟩ | ⟨evs, ev, rest, t, rfl, hran, hcut, hemits⟩ |
    ⟨_, _, _, -, -, hreset, -⟩
  · exact ⟨_, n, _, evs, exec_hostProgram hi hp, hrun, rfl, hran.outside,
      .inr ⟨hran.trace, hclear.primitives_le hnack, hemits.ret .ok, hran.returned .ok⟩⟩
  · exact ⟨_, n, _, evs, exec_hostProgram hi hp, hrun, rfl, hran.outside, .inl ⟨ev, rest,
      by rw [State.transportFailure_trace, hran.trace, List.append_assoc], hcut.1,
      hcut.primitives_eq hacked hnack, hemits.ret .ok, rfl, hran.failed⟩⟩
  · cases hr.symm.trans hreset

end Sys2Proof.Machine
end

section
/-!
SUPPORT. The address mapper as numbers (R180, R183) and the operations given a position outside the geometry (R182).
-/

namespace Sys2Proof.Machine

/-! ## The mapper (R180) -/

theorem ddramByte_toNat_add (a : BitVec 7) : (ddramByte a).toNat = 0x80 + a.toNat := by
  rw [ddramByte_toNat, BitVec.toNat_ofNat, Nat.mod_eq_of_lt (by omega)]

theorem ddramByte_injective : Function.Injective ddramByte := by
  intro a b h
  have hnum := congrArg BitVec.toNat h
  rw [ddramByte_toNat_add, ddramByte_toNat_add] at hnum
  exact BitVec.eq_of_toNat_eq (Nat.add_left_cancel hnum)

/-- The seven bits of an address hold the whole sum (R181). -/
theorem addr_toNat {g : Geom} {column row : Byte} {a : BitVec 7} (h : addr g column row = some a) :
    a.toNat = rowBase g row.toNat + column.toNat := by
  obtain ⟨hc, hr, rfl⟩ := addr_eq_some h
  have formed := rowBase_add_formed hc hr
  rw [BitVec.toNat_ofNat, Nat.mod_eq_of_lt (by omega)]

theorem rowBase_of_ne_g20x4 {g : Geom} {row : Nat} (hg : g ≠ .g20x4) (hr : row < rows g) :
    rowBase g row = row * 0x40 := by
  have htwo : rows g = 2 := by cases g <;> simp [rows] at hg ⊢
  rw [rowBase_eq hr]
  split_ifs <;> omega

theorem rowBase_g20x4 {row : Nat} (hr : row < rows .g20x4) :
    rowBase .g20x4 row = [0x00, 0x40, 0x14, 0x54].getD row 0 := by
  revert row; decide

/-- Settles O12: an address is a row's start and the column, and no command byte overflows. -/
theorem mapperFollowsTheRowStarts : Obligations.MapperFollowsTheRowStarts := by
  refine fun g column row => ⟨fun hin => ?_, (addr_eq_none_iff g column row).mpr⟩
  obtain ⟨a, ha⟩ := Option.ne_none_iff_exists'.mp fun hnone => (addr_eq_none_iff g column row).mp hnone hin
  refine ⟨a, ha, ddramByte_toNat_add a, fun hg => ?_, ?_⟩
  · rw [addr_toNat ha, rowBase_of_ne_g20x4 hg hin.2]
  · rintro rfl
    rw [addr_toNat ha, rowBase_g20x4 hin.2]

/-! ## The rows do not overlap (R183) -/

/-- The starts of two rows lie at least COLS apart, `0x14` in 20x4 and `0x40` elsewhere, so a row ends before the next one
in DDRAM begins. -/
theorem rowBase_add_injective {g : Geom} {c₁ r₁ c₂ r₂ : Nat} (hc₁ : c₁ < cols g) (hr₁ : r₁ < rows g)
    (hc₂ : c₂ < cols g) (hr₂ : r₂ < rows g) (h : rowBase g r₁ + c₁ = rowBase g r₂ + c₂) : c₁ = c₂ ∧ r₁ = r₂ := by
  by_cases hg : g = .g20x4
  · subst hg
    simp only [rowBase_eq hr₁, rowBase_eq hr₂] at h
    simp only [cols, rows] at hc₁ hr₁ hc₂ hr₂
    split_ifs at h <;> omega
  · have hcols := (cols_bounds g).2
    rw [rowBase_of_ne_g20x4 hg hr₁, rowBase_of_ne_g20x4 hg hr₂] at h
    omega

/-- Settles O13: equal command bytes carry equal addresses, and the rows do not overlap. -/
theorem mapperIsInjective : Obligations.MapperIsInjective := by
  intro g c₁ r₁ c₂ r₂ a b ha hb hbyte
  obtain rfl := ddramByte_injective hbyte
  obtain ⟨hc₁, hr₁, -⟩ := addr_eq_some ha
  obtain ⟨hc₂, hr₂, -⟩ := addr_eq_some hb
  have hnum := (addr_toNat ha).symm.trans (addr_toNat hb)
  obtain ⟨hc, hr⟩ := rowBase_add_injective hc₁ hr₁ hc₂ hr₂ hnum
  exact ⟨BitVec.eq_of_toNat_eq hc, BitVec.eq_of_toNat_eq hr⟩

/-! ## Outside the geometry (R182) -/

section
variable {s : State} {column row : Byte} (hp : s.phase = .ready)
include hp

theorem exec_writeAt_outOfRange (h : addr s.cfg.geom column row = none) (code : Byte) :
    exec (.writeAt column row code) s = .next (refuse .errRange s) := by
  simp only [exec, execWriteAt, whenReady_ready hp, h]

theorem exec_moveTo_outOfRange (h : inRange s.cfg.geom column row = false) :
    exec (.moveTo column row) s = .next (refuse .errRange s) := by
  simp only [exec, execMoveTo, whenReady_ready hp, h, Bool.false_eq_true, if_false]

theorem exec_writeStream_offGrid {byte : Byte} (hb : byte ≠ s.cfg.lfCode)
    (h : addr s.cfg.geom s.curCol s.curRow = none) :
    exec (.writeStream byte) s = .fault .cursorOffGrid := by
  simp only [exec, execWriteStream, whenReady_ready hp, if_neg hb, h]

end

/-- Settles O11: neither operation gets past its range check, and a refusal is `refuse`. -/
theorem outOfRangeIsRefused : Obligations.OutOfRangeIsRefused := by
  intro s column row code hp hout
  obtain ⟨haddr, hrange⟩ := addr_eq_none hout
  exact ⟨⟨_, exec_writeAt_outOfRange hp haddr code, refused_refuse s _⟩,
    ⟨_, exec_moveTo_outOfRange hp hrange, refused_refuse s _⟩⟩

/-- Settles O29: the cursor's cell has no address. -/
theorem writeStreamOffGridFaults : Obligations.WriteStreamOffGridFaults :=
  fun _ _ hp hb hout => exec_writeStream_offGrid hp hb (addr_eq_none hout).1

end Sys2Proof.Machine
end

section
/-!
SUPPORT. The text grid (44_text_grid.md): the operations that send to the cursor's or a given cell, those that only move the
cursor, and the geometry queries.
-/

namespace Sys2Proof.Machine

/-! ## The operations that send -/

/-- The state `s` with `evs` emitted, `n` answers taken and the lines left at `l`. -/
def State.transmitted (s : State) (evs : List BusEvent) (l : Lines) (n : Nat) : State :=
  { s with trace := s.trace ++ evs, lines := l, script := s.script.drop n, draws := s.draws + n }

/-- An operation that begins by sending `cmds`: the environment grants it, so what follows the transfers runs from the lines
at rest, with every register as it was. -/
theorem Sends.run_append {s : State} {p q : List Micro} {cmds : List CommandEvent} (hp : Sends s.cfg p cmds)
    (hl : s.lines.atRest = true) (hg : s.Grants (cost s.cfg (p ++ q))) :
    ∃ evs l, run (p ++ q) s = run q (s.transmitted evs l (cost s.cfg p)) ∧ l.atRest = true ∧
      commandTrace s.cfg.busWidth (.start s.lines 0) evs = cmds := by
  rw [cost_append] at hg
  obtain ⟨evs, l, hsent, hrest, hcmds⟩ := hp.completes s rfl hl (Grants.mono hg (Nat.le_add_right ..))
  exact ⟨evs, l, run_of_completes hsent q, hrest, hcmds⟩

/-- The address and the character, with the command byte as a number (R101). -/
theorem sends_char_toNat (c : Config) (a : BitVec 7) (code : Byte) :
    Sends c (charProgram c a code) [.cmd (BitVec.ofNat 8 (128 + a.toNat)), .data code] := by
  rw [← ddramByte_toNat]
  exact sends_char c a code

/-- Settles O26: nothing follows the two transfers but the status. -/
theorem writeAtWritesItsCell : Obligations.WriteAtWritesItsCell := by
  intro s column row code a hp hl ha hg
  obtain ⟨evs, l, hrun, hrest, hcmds⟩ := (sends_char_toNat s.cfg a code).run_append hl hg
  exact ⟨_, (exec_writeAt hp ha).trans (congrArg _ hrun), ⟨⟨evs, rfl, hcmds⟩, rfl, hrest⟩, ⟨_, rfl, rfl⟩, hp,
    ⟨rfl, rfl⟩, ⟨rfl, rfl⟩, rfl, rfl, rfl, rfl⟩

/-- Settles O27: behind the two transfers the cursor, which they leave alone, advances. -/
theorem writeStreamWritesAtTheCursor : Obligations.WriteStreamWritesAtTheCursor := by
  intro s byte a hp hl hb ha hg
  obtain ⟨hcol, hrow, -⟩ := addr_eq_some ha
  obtain ⟨evs, l, hrun, hrest, hcmds⟩ := (sends_char_toNat s.cfg a byte).run_append hl hg
  exact ⟨_, (exec_writeStream hp hb ha).trans (congrArg _ hrun), ⟨⟨evs, rfl, hcmds⟩, rfl, hrest⟩, ⟨_, rfl, rfl⟩,
    advance_curCol_toNat s hcol, advance_curRow_toNat s hrow, hp, ⟨rfl, rfl⟩, rfl, rfl, rfl, rfl⟩

/-- One command, then the cursor to (0,0): what CLEAR and HOME have in common (R193, R194). -/
theorem command_thenOrigin {s : State} {i : Instr} {b : Byte}
    (hexec : exec i s = .next (run (cmd s.cfg b ++ [.setCursor 0 0, .ret .ok]) s)) (hp : s.phase = .ready)
    (hl : s.lines.atRest = true) (hg : s.Grants (cost s.cfg (cmd s.cfg b ++ [.setCursor 0 0, .ret .ok]))) :
    ∃ t, exec i s = .next t ∧ Sent s t 0 [.cmd b] ∧ Returned s t .ok ∧
      t.curCol = 0 ∧ t.curRow = 0 ∧ t.phase = .ready ∧ SameShadows s t ∧ SameOutside s t := by
  obtain ⟨evs, l, hrun, hrest, hcmds⟩ := (sends_cmd s.cfg b).run_append hl hg
  exact ⟨_, hexec.trans (congrArg _ hrun), ⟨⟨evs, rfl, hcmds⟩, rfl, hrest⟩, ⟨_, rfl, rfl⟩, rfl, rfl, hp, ⟨rfl, rfl⟩,
    rfl, rfl, rfl, rfl⟩

/-- Settles O31: CLEAR is the command 0x01, then the cursor to (0,0). -/
theorem clearSendsOneCommand : Obligations.ClearSendsOneCommand :=
  fun _ hp hl hg => command_thenOrigin (exec_clear hp) hp hl hg

/-- Settles O32: HOME is the command 0x02, then the cursor to (0,0). -/
theorem homeSendsOneCommand : Obligations.HomeSendsOneCommand :=
  fun _ hp hl hg => command_thenOrigin (exec_home hp) hp hl hg

/-! ## The operations that only move the cursor -/

/-- Settles O28: NEWLINE is the whole operation. -/
theorem lineFeedMovesToTheNextRow : Obligations.LineFeedMovesToTheNextRow :=
  fun s hp hrow => ⟨_, exec_lineFeed hp, ⟨_, rfl, rfl⟩, rfl, nextRow_toNat _ s.curRow hrow, rfl, hp, ⟨rfl, rfl⟩, rfl, rfl,
    rfl, rfl, rfl, rfl⟩

/-- Settles O30: in range the new cursor is the whole operation. -/
theorem moveToSetsTheCursor : Obligations.MoveToSetsTheCursor :=
  fun s column row hp hcol hrow => ⟨_, exec_moveTo hp ((inRange_iff s.cfg.geom column row).mpr ⟨hcol, hrow⟩), ⟨_, rfl, rfl⟩,
    rfl, rfl, rfl, hp, ⟨rfl, rfl⟩, rfl, rfl, rfl, rfl, rfl, rfl⟩

/-! ## Repeated advances -/

@[simp] theorem advance_iterate_cfg (s : State) (k : Nat) : (State.advance^[k] s).cfg = s.cfg := by
  induction k with
  | zero => rfl
  | succ k ih => rw [Function.iterate_succ_apply', State.advance_cfg, ih]

/-- The column wraps (R199) where one more cell fills a whole row. -/
theorem dvd_succ_iff {n : Nat} (hn : 0 < n) (k : Nat) : n ∣ k + 1 ↔ k % n + 1 = n := by
  obtain ⟨m, rfl⟩ := Nat.exists_eq_add_one_of_ne_zero hn.ne'
  rw [Nat.dvd_iff_mod_eq_zero, Nat.succ_mod_succ_eq_zero_iff, Nat.add_right_cancel_iff]

/-- From column 0, `k` advances lead `k` cells on in reading order (R199): the column is what whole rows leave of `k`, and
each whole row moves the row on by one. -/
theorem advance_iterate_toNat {s : State} (hcol : s.curCol = 0) (hrow : s.curRow.toNat < rows s.cfg.geom) (k : Nat) :
    (State.advance^[k] s).curCol.toNat = k % cols s.cfg.geom ∧
      (State.advance^[k] s).curRow.toNat = (s.curRow.toNat + k / cols s.cfg.geom) % rows s.cfg.geom := by
  have hcols : 0 < cols s.cfg.geom := Nat.lt_of_lt_of_le (by decide) (cols_bounds s.cfg.geom).1
  have hrows : 0 < rows s.cfg.geom := Nat.zero_lt_of_lt hrow
  induction k with
  | zero => simp [hcol, Nat.mod_eq_of_lt hrow]
  | succ k ih =>
    obtain ⟨ihcol, ihrow⟩ := ih
    have hc := advance_curCol_toNat (State.advance^[k] s) (by simp [ihcol, Nat.mod_lt _ hcols])
    have hr := advance_curRow_toNat (State.advance^[k] s) (by simp [ihrow, Nat.mod_lt _ hrows])
    rw [advance_iterate_cfg, ihcol] at hc hr
    rw [Function.iterate_succ_apply', hc, hr, ihrow, Nat.mod_add_mod, Nat.mod_add_mod, Nat.succ_div]
    refine ⟨rfl, ?_⟩
    simp only [dvd_succ_iff hcols]
    split <;> rfl

/-- Settles O34: as many advances as there are columns are one whole row, and one more is one column. -/
theorem oneRowOfAdvancesWraps : Obligations.OneRowOfAdvancesWraps := by
  intro s hcol hrow
  have hcols := (cols_bounds s.cfg.geom).1
  obtain ⟨hc, hr⟩ := advance_iterate_toNat hcol hrow (cols s.cfg.geom)
  obtain ⟨hc', hr'⟩ := advance_iterate_toNat hcol hrow (cols s.cfg.geom + 1)
  rw [Nat.mod_self] at hc
  rw [Nat.div_self (by omega)] at hr
  rw [Nat.add_mod_left, Nat.mod_eq_of_lt (by omega)] at hc'
  rw [Nat.add_div_left _ (by omega), Nat.div_eq_of_lt (by omega)] at hr'
  exact ⟨BitVec.eq_of_toNat_eq hc, hr, BitVec.eq_of_toNat_eq hc', hr'⟩

/-! ## The geometry queries -/

/-- An operation that only returns a value leaves all that a refusal leaves (R195, R196). -/
theorem refused_returnValue (s : State) (st : Status) (v : Byte) : Refused s (s.returnValue st v) st :=
  ⟨⟨v, rfl, rfl⟩, rfl, rfl, ⟨rfl, rfl⟩, ⟨rfl, rfl⟩, rfl, rfl, ⟨rfl, rfl, rfl, rfl⟩, rfl⟩

/-- The columns fit the returned byte. -/
theorem toNat_ofNat_cols (g : Geom) : (BitVec.ofNat 8 (cols g)).toNat = cols g := by cases g <;> rfl

/-- The rows fit the returned byte. -/
theorem toNat_ofNat_rows (g : Geom) : (BitVec.ofNat 8 (rows g)).toNat = rows g := by cases g <;> rfl

/-- The words of the two queries (R195, R196), whatever the glyph operand holds. -/
theorem decodeHost_queries (glyph : BitVec 64) :
    decodeHost ⟨0x80000000, glyph⟩ = .instr .columns ∧ decodeHost ⟨0x90000000, glyph⟩ = .instr .rows := by
  simp [decodeHost, HostWord.op, HostWord.rsv]

/-- Settles O33: outside phase Ready as every host operation, in it the geometry's number as the value. -/
theorem queriesReturnTheGeometry : Obligations.QueriesReturnTheGeometry :=
  ⟨decodeHost_queries,
    fun s hp => ⟨⟨_, exec_notReady rfl (by decide) hp, refused_refuse s _⟩,
      ⟨_, exec_notReady rfl (by decide) hp, refused_refuse s _⟩⟩,
    fun s hp => ⟨⟨_, exec_columns hp, refused_returnValue s .ok _, _, rfl, toNat_ofNat_cols s.cfg.geom⟩,
      ⟨_, exec_rows hp, refused_returnValue s .ok _, _, rfl, toNat_ofNat_rows s.cfg.geom⟩⟩⟩

end Sys2Proof.Machine
end

section
/-!
SUPPORT. SET_MODE (45_display_mode.md): the words of the ten modes, and the shadow and the one command that each of them sends.
-/

namespace Sys2Proof.Machine

/-! ## The words of the modes -/

/-- The word of SET_MODE decodes as its mode code does, whatever the glyph operand holds (R80, R85). -/
theorem decodeHost_mode (c : Byte) (glyph : BitVec 64) : decodeHost (packedWord 0x6 0 0 c glyph) = decodeMode c := by
  simp [decodeHost]

/-! ## One command and the status -/

/-- The cost of a command does not depend on its byte: only primitives count, and the readiness wait of another class
differs in a delay at most (R105, R161, R162). -/
theorem cost_cmd_eq (c : Config) (b b' : Byte) : cost c (cmd c b) = cost c (cmd c b') := by
  have hwait : cost c (waitFor c (waitClass b)) = cost c (waitFor c (waitClass b')) := by
    cases hs : c.strategy <;> simp [waitFor, hs, fixedWait]
  simp only [cmd, cost_append, cost_emitting, primitives_transfer, hwait]

/-- What follows the shadow in an operation of SET_MODE (R220): run from `w`, the state with the shadow written, it sends the
one command and returns OK, and no register changes any more. -/
theorem command_thenOk {s w : State} {i : Instr} {b : Byte}
    (hexec : exec i s = .next (run (cmd w.cfg b ++ [.ret .ok]) w)) (hl : w.lines.atRest = true)
    (hg : w.Grants (cost w.cfg (cmd w.cfg b ++ [.ret .ok]))) :
    ∃ t, exec i s = .next t ∧ Sent w t 0 [.cmd b] ∧ Returned w t .ok ∧
      t.phase = w.phase ∧ SameCursor w t ∧ SameShadows w t ∧ SameOutside w t := by
  obtain ⟨evs, l, hrun, hrest, hcmds⟩ := (sends_cmd w.cfg b).run_append hl hg
  exact ⟨_, hexec.trans (congrArg _ hrun), ⟨⟨evs, rfl, hcmds⟩, rfl, hrest⟩, ⟨_, rfl, rfl⟩, rfl, ⟨rfl, rfl⟩, ⟨rfl, rfl⟩,
    rfl, rfl, rfl, rfl⟩

/-! ## The display modes -/

/-- Settles O35: the shadow is written first, so the command is formed and sent from the changed shadow (R220). -/
theorem displayModesChangeTheirBit : Obligations.DisplayModesChangeTheirBit := by
  refine ⟨fun glyph => ⟨decodeHost_mode 0 glyph, decodeHost_mode 1 glyph, decodeHost_mode 2 glyph, decodeHost_mode 3 glyph,
    decodeHost_mode 4 glyph, decodeHost_mode 5 glyph⟩, fun s i v hp hl hv hg => ?_⟩
  obtain ⟨t, hexec, hsent, hret, hphase, hcursor, ⟨hdisplay, hentry⟩, houtside⟩ :=
    command_thenOk (w := { s with displayControl := v }) (exec_displayMode hp hv) hl (Grants.mono hg (Nat.le_add_left _ _))
  rw [displayByte_toNat] at hsent
  exact ⟨t, hexec, hsent, hret, hdisplay, hentry, hphase.trans hp, hcursor, houtside⟩

/-! ## The entry modes -/

/-- Settles O36: as for the display modes, with the other shadow. -/
theorem entryModesChangeTheirBit : Obligations.EntryModesChangeTheirBit := by
  refine ⟨fun glyph => ⟨decodeHost_mode 6 glyph, decodeHost_mode 7 glyph, decodeHost_mode 8 glyph, decodeHost_mode 9 glyph⟩,
    fun s i v hp hl hv hg => ?_⟩
  obtain ⟨t, hexec, hsent, hret, hphase, hcursor, ⟨hdisplay, hentry⟩, houtside⟩ :=
    command_thenOk (w := { s with entryMode := v }) (exec_entryMode hp hv) hl (Grants.mono hg (Nat.le_add_left _ _))
  rw [entryByte_toNat] at hsent
  exact ⟨t, hexec, hsent, hret, hentry, hdisplay, hphase.trans hp, hcursor, houtside⟩

/-! ## Two display modes in a row -/

theorem SameOutside.trans {s t u : State} (h : SameOutside s t) (g : SameOutside t u) : SameOutside s u := by
  obtain ⟨hcfg, htransport, hhost, htransfer⟩ := h
  obtain ⟨gcfg, gtransport, ghost, gtransfer⟩ := g
  exact ⟨gcfg.trans hcfg, gtransport.trans htransport, ghost.trans hhost, gtransfer.trans htransfer⟩

/-- A display mode, whatever the lines: where the environment grants one command (of any byte `b`, as all cost the same) and
`n` primitives more, it completes with its shadow changed, and the `n` primitives are still granted. -/
theorem displayMode_completes {s : State} {i : Instr} {v : BitVec 3} {n : Nat} (b : Byte) (hp : s.phase = .ready)
    (hv : displayAfter s.displayControl i = some v) (hg : s.Grants (cost s.cfg (cmd s.cfg b) + n)) :
    ∃ t, exec i s = .next t ∧ t.phase = .ready ∧ t.displayControl = v ∧ SameOutside s t ∧ t.Grants n := by
  rw [cost_cmd_eq s.cfg b (displayByte v)] at hg
  let w : State := { s with displayControl := v }
  obtain ⟨evs, hsent, hprim, -⟩ := sends_cmd s.cfg (displayByte v) w rfl (Grants.mono hg (Nat.le_add_right ..))
  have hleft : (w.afterAll evs).Grants n := Grants.afterAll evs (by rw [hprim]; exact hg)
  exact ⟨_, (exec_displayMode hp hv).trans (congrArg _ (run_of_completes hsent [.ret .ok])), (afterAll_phase w evs).trans hp,
    afterAll_displayControl w evs, (ran_afterAll w evs).outside, hleft⟩

/-- The masks of R225 and R224 one after the other, where the cursor bit was clear. -/
theorem setCursorBit_clearCursorBit (v : BitVec 3) (h : v.getLsbD 1 = false) : (v ||| 0b010) &&& 0b101 = v := by
  revert v; decide

/-- Settles O37: CURSOR_OFF takes back the one bit that CURSOR_ON set, in the state that CURSOR_ON leaves. -/
theorem cursorOnThenOffRestoresTheShadow : Obligations.CursorOnThenOffRestoresTheShadow := by
  intro s hp hclear hg
  rw [Nat.two_mul] at hg
  obtain ⟨t, ht, htphase, htdisplay, htoutside, htgrants⟩ :=
    displayMode_completes (i := .setCursorOn) 0x0E hp rfl hg
  rw [← htoutside.1] at htgrants
  obtain ⟨u, hu, -, hudisplay, huoutside, -⟩ :=
    displayMode_completes (i := .setCursorOff) (n := 0) 0x0E htphase rfl htgrants
  rw [htdisplay, setCursorBit_clearCursorBit _ hclear] at hudisplay
  exact ⟨t, u, ht, hu, htdisplay, hudisplay, htoutside.trans huoutside⟩

end Sys2Proof.Machine
end

section
/-!
SUPPORT. DEFINE_GLYPH (46_glyph.md): the transfers of a glyph in a slot of 0 to 7, and a slot above 7.
-/

namespace Sys2Proof.Machine

/-- The glyph's transfers with the bytes as numbers (R242): the slot's CGRAM address, then the eight bytes in index order. -/
theorem sends_glyph_toNat (c : Config) {slot : Byte} (hslot : slot.toNat ≤ 7) (glyph : BitVec 64) :
    Sends c (cmd c (cgramByte (slot.extractLsb' 0 3)) ++ (glyphBytes glyph).flatMap (data c))
      (.cmd (BitVec.ofNat 8 (64 + 8 * slot.toNat))
        :: (List.range 8).map fun k => .data (BitVec.ofNat 8 (glyph.toNat / 2 ^ (8 * k)))) := by
  have hlow : (slot.extractLsb' 0 3).toNat = slot.toNat := by simp; omega
  have haddr : cgramByte (slot.extractLsb' 0 3) = BitVec.ofNat 8 (64 + 8 * slot.toNat) := by rw [cgramByte_toNat, hlow]
  have hbytes : (glyphBytes glyph).map CommandEvent.data
      = (List.range 8).map fun k => .data (BitVec.ofNat 8 (glyph.toNat / 2 ^ (8 * k))) := by
    simp only [glyphBytes, List.map_map, Function.comp_def, glyphByte_toNat]
  rw [← haddr, ← hbytes]
  exact (sends_cmd c _).append (sends_datas c (glyphBytes glyph) (by simp [glyphBytes]))

/-- Settles O38: nothing follows the nine transfers but the status, and no transfer writes a register. -/
theorem defineGlyphSendsEightBytes : Obligations.DefineGlyphSendsEightBytes := by
  intro s slot glyph hp hl hslot hg
  obtain ⟨evs, l, hrun, hrest, hcmds⟩ := (sends_glyph_toNat s.cfg hslot glyph).run_append (q := [.ret .ok]) hl hg
  exact ⟨_, (exec_glyph hp hslot).trans (congrArg _ hrun), ⟨⟨evs, rfl, hcmds⟩, rfl, hrest⟩, ⟨_, rfl, rfl⟩, hp,
    ⟨rfl, rfl⟩, ⟨rfl, rfl⟩, rfl, rfl, rfl, rfl⟩

/-- Settles O39: both answers are refusals, by the slot in phase Ready and by the phase in every other. -/
theorem invalidSlotIsASilentNoOp : Obligations.InvalidSlotIsASilentNoOp := by
  intro s slot glyph hslot
  by_cases hp : s.phase = .ready
  · rw [if_pos hp]
    exact ⟨_, exec_invalidSlot hp hslot, refused_refuse s .ok⟩
  · rw [if_neg hp]
    exact ⟨_, exec_notReady rfl nofun hp, refused_refuse s .errNotReady⟩

end Sys2Proof.Machine
end

section
/-!
SUPPORT. The two refusals that come before an operation runs (R252, R253).
-/

namespace Sys2Proof.Machine

/-- A step with a word at the port that names no operation takes the word and refuses it, whatever the phase (R252). -/
theorem step_illegalWord {s : State} {h : HostWord} {rest : List HostWord} (hc : s.cfg.wf = true)
    (hr : s.resetIn ≠ some 0) (hp : s.position = []) (hx : s.transferPort = none) (hw : s.hostPort = h :: rest)
    (hd : ∃ why, decodeHost h = .reject why) : step s = .next (refuse .errIllegalOp s.takeWord) := by
  obtain ⟨why, hwhy⟩ := hd
  rw [step, if_pos hc, task_word hr hp hx hw]
  simp only [hwhy]

/-- Settles O9: the decoder rejects exactly such words. -/
theorem illegalWordIsRefusedInEveryPhase : Obligations.IllegalWordIsRefusedInEveryPhase := by
  intro s h rest hc hr hp hx hw hillegal
  refine ⟨_, step_illegalWord hc hr hp hx hw ((illegalHostWordsAreTheListed h).mpr hillegal), ?_⟩
  rw [takeWord_eq hw]
  exact refused_refuse _ _

/-- Settles O10: every such operation asks for phase Ready before anything else. -/
theorem notReadyIsRefused : Obligations.NotReadyIsRefused :=
  fun s _ hi hn hp => ⟨_, exec_notReady hi hn hp, refused_refuse s _⟩

end Sys2Proof.Machine
end

section
/-!
SUPPORT. An operation cut short (R255, R281): under fixed delay in its own step, and by the reset input under either strategy.
-/

namespace Sys2Proof.Machine

/-! ## Under fixed delay -/

theorem Micro.goesOn_of_plain {m : Micro} (h : m.plain = true) : m.goesOn = true := by
  cases m with
  | poll => rfl
  | ret st => exact h
  | _ => rfl

theorem not_mem_poll_of_plain {p : List Micro} (h : plain p = true) : .poll ∉ p :=
  fun hm => absurd (List.all_eq_true.mp h _ hm) (by decide)

/-- POLLWAIT has more than one event list, as busy iterations may stand before any, and a plain micro-sequence has one. -/
theorem not_plain_of_emits_poll {c : Config} {p ms : List Micro} {evs : List BusEvent}
    (h : ∀ b, Emits c (.poll :: ms) b → Emits c p (evs ++ b)) : plain p ≠ true := by
  intro hp
  obtain ⟨b, hb⟩ := emits_exists c (.poll :: ms)
  have hone := (emits_plain hp).mp (h b hb)
  have hmore := (emits_plain hp).mp (h _ (hb.busy (v := 8) (by decide)))
  have hlen := congrArg List.length (hone.trans hmore.symm)
  have hpos : 0 < (pollIteration c 8).length := by unfold pollIteration; cases c.busWidth <;> simp
  simp only [List.length_append] at hlen
  omega

/-- A plain micro-sequence, with `r` behind it: the run reaches `r` behind all its events, or was cut short. -/
theorem run_plain_ends {q : List Micro} (hq : plain q = true) (r : List Micro) {s : State} (h : s.resetIn ≠ some 0) :
    (∃ t, run (q ++ r) s = run r t ∧ Ran s (emitted q) t ∧ Clear s (emitted q)) ∨ CutShort s q (run (q ++ r) s) := by
  have hgoes : q.all Micro.goesOn = true :=
    List.all_eq_true.mpr fun m hm => Micro.goesOn_of_plain (List.all_eq_true.mp hq m hm)
  rcases run_ends q hgoes r s (fun hm => absurd hm (not_mem_poll_of_plain hq)) h with ⟨evs, t, hrun, hran, hclear, hemits⟩ |
    ⟨evs, ms, -, -, -, -, -, hemits⟩ | hcut
  · cases (emits_plain hq).mp hemits
    exact .inl ⟨t, hrun, hran, hclear⟩
  · exact absurd hq (not_plain_of_emits_poll hemits)
  · exact .inr hcut

theorem cost_append_ret (c : Config) {q : List Micro} (hq : plain q = true) (st : Status) :
    cost c (q ++ [.ret st]) = primitives (emitted q) := by
  rw [cost_append, cost_plain c q hq]; rfl

/-- Settles O43: the operation cannot be over before its `j`-th primitive, which is what cuts it short. -/
theorem nackEndsTheOperation : Obligations.NackEndsTheOperation := by
  intro s i p j hs hi hp hr hj hacked hnack
  obtain ⟨q, rfl, hq⟩ := hostProgram_plain hs hp
  rw [cost_append_ret s.cfg hq] at hj
  rcases run_plain_ends hq [.ret .ok] (s := s) (by simp [hr]) with ⟨_, -, -, hclear⟩ |
    ⟨evs, ev, rest, t, ht, hran, hcut, hemits⟩ | ⟨_, _, _, -, -, hreset, -⟩
  · exact absurd (hclear.primitives_le hnack) (Nat.not_le.mpr hj)
  · exact ⟨_, evs, ev, rest, (exec_hostProgram hi hp).trans (congrArg _ ht),
      by rw [State.transportFailure_trace, hran.trace, List.append_assoc], hcut.1, hcut.primitives_eq hacked hnack,
      hemits.ret .ok, rfl, hran.failed, rfl, hran.outside⟩
  · cases hr.symm.trans hreset

/-! ## By the reset input -/

/-- The primitive that is not acknowledged lies behind all that are known to be acknowledged. -/
theorem Nacked.le_primitives {s : State} {evs : List BusEvent} {ev : BusEvent} {n : Nat} (h : Nacked s evs ev)
    (hacked : ∀ k, k < n → s.ackedAt k = true) : n ≤ primitives evs := by
  obtain ⟨-, -, hnack, -⟩ := h
  exact Nat.le_of_not_lt fun hlt => absurd (hacked _ hlt) (by simp [hnack])

/-- The actions that emit an event are those whose event is in the list. -/
theorem countP_emits (p : List Micro) : p.countP Micro.emits = (emitted p).length := by
  have hemits : Micro.emits = fun m => m.event.isSome := funext fun m => by cases m <;> rfl
  rw [hemits, emitted, List.length_filterMap_eq_countP]

/-- Settles O47: the reset input comes no later than the last event, and no primitive of the operation fails before it. -/
theorem resetInputCutsTheOperation : Obligations.ResetInputCutsTheOperation := by
  intro s i p n hs hi hp hr hpos hn hacked
  obtain ⟨q, rfl, hq⟩ := hostProgram_plain hs hp
  rw [cost_append_ret s.cfg hq] at hacked
  have hlen : n ≤ (emitted q).length := by
    rwa [countP_emits, emitted_append, show emitted [.ret .ok] = [] from rfl, List.append_nil] at hn
  rcases run_plain_ends hq [.ret .ok] (s := s) (by rw [hr]; simp; omega) with ⟨_, -, -, -, hbefore⟩ |
    ⟨evs, ev, rest, t, -, -, hcut, hemits⟩ | ⟨evs, rest, t, ht, hran, hreset, hemits⟩
  · exact absurd (hbefore n hr) (Nat.not_lt.mpr hlen)
  · have ⟨hprim, _⟩ := hcut
    have hle := hcut.le_primitives hacked
    rw [← (emits_plain hq).mp hemits, primitives_append, primitives_append, primitives_cons, if_pos hprim] at hle
    omega
  · cases hr.symm.trans hreset
    exact ⟨_, evs, rest, (exec_hostProgram hi hp).trans (congrArg _ ht), hran.trace, rfl, hemits.ret .ok, hran.lines, rfl,
      rfl, rfl, hran.results, hran.outside⟩

/-- Settles O58: the reset input bounds the operation, which ends before it or by it. -/
theorem resetAnywhereCutsTheOperation : Obligations.ResetAnywhereCutsTheOperation := by
  intro s i p n hc hi hp hr hpos hacked
  obtain ⟨q, rfl, hq⟩ := hostProgram_goesOn hp
  obtain ⟨m, u, hrun, hend⟩ := operation_ends n q hq s hc (by rw [hr]; simp; omega) (.inr ⟨n, Nat.le_refl n, hr⟩)
  rcases hend with ⟨evs, t, rfl, hran, hclear, hemits⟩ | ⟨evs, ev, rest, t, -, -, hcut, -⟩ |
    ⟨evs, rest, t, rfl, hran, hreset, hemits⟩
  · exact ⟨_, m, _, evs, exec_hostProgram hi hp, hrun, hran.trace, hran.lines, rfl, hran.outside,
      .inr ⟨hclear.2 n hr, hemits.ret .ok, hran.returned .ok, hran.resetIn.trans (by rw [hr]; rfl)⟩⟩
  · have ⟨_, _, _, hbefore⟩ := hcut
    have hlt := hbefore n hr
    have hle := hcut.le_primitives hacked
    have hprims : primitives evs ≤ evs.length := List.countP_le_length
    rw [List.length_append] at hlt
    omega
  · cases hr.symm.trans hreset
    exact ⟨_, m, _, evs, exec_hostProgram hi hp, hrun, hran.trace, hran.lines, rfl, hran.outside,
      .inl ⟨rest, rfl, hemits.ret .ok, rfl, rfl, hran.results, rfl⟩⟩

end Sys2Proof.Machine
end

section
/-!
SUPPORT. The durations of the operations (R298): under fixed delay, 4-bit width and the default constants of R6.
-/

namespace Sys2Proof.Machine

/-- The delays that the instruction emits sum to `n`. -/
def Lasts (s : State) (i : Instr) (n : Nat) : Prop :=
  ∃ t evs, exec i s = .next t ∧ t.trace = s.trace ++ evs ∧ delaySum evs = n

/-- An operation without events takes no time. -/
theorem lasts_of_silent {s t : State} {i : Instr} (h : exec i s = .next t) (ht : t.trace = s.trace) : Lasts s i 0 :=
  ⟨t, [], h, by rw [ht, List.append_nil], rfl⟩

/-! ## Transfers with the default constants -/

/-- In 4-bit width only the two pulses of a byte wait (R110, R112). -/
theorem delaySum_transferEvents {c : Config} (hw : c.busWidth = .w4) (rs : Bool) (b : Byte) :
    delaySum (transferEvents c rs b) = 2 * (c.tELow + c.tEHigh + c.tHold) := by
  simp only [transferEvents, hw, pulseEvents, delaySum_append, delaySum_cons, delaySum_nil, BusEvent.duration]
  omega

theorem delaySum_fixedTransfer (g : Geom) (rs : Bool) (b : Byte) :
    delaySum (fixedTransfer (.standard g .fixedDelay .w4) rs b) = 88 + fixedTime (.standard g .fixedDelay .w4) rs b := by
  rw [fixedTransfer, delaySum_append, delaySum_transferEvents rfl, delaySum_cons, delaySum_nil, Nat.add_zero]
  rfl

/-- Register-select, and each nibble with the three edges of its pulse. -/
theorem primitives_fixedTransfers (g : Geom) (xs : List (Bool × Byte)) :
    primitives (fixedTransfers (.standard g .fixedDelay .w4) xs) = 9 * xs.length := by
  induction xs with
  | nil => rfl
  | cons x xs ih =>
    have hone : primitives (fixedTransfer (.standard g .fixedDelay .w4) x.1 x.2) = 9 := rfl
    rw [fixedTransfers, List.flatMap_cons, primitives_append, hone, ← fixedTransfers, ih, List.length_cons]
    omega

/-- A transfer after which fixed delay waits `T_CMD`: data, or a command other than CLEAR_DISPLAY and RETURN_HOME (R105). -/
def Ordinary (x : Bool × Byte) : Prop := x.1 = true ∨ 2 < x.2.toNat

theorem Ordinary.fixedTime {x : Bool × Byte} (h : Ordinary x) (c : Config) : fixedTime c x.1 x.2 = c.tCmd := by
  have hne {b : Byte} (hb : b.toNat ≤ 2) : ¬ (x.1 = false ∧ x.2 = b) := by
    rintro ⟨hrs, rfl⟩
    exact absurd (h.resolve_left (by simp [hrs])) (Nat.not_lt.mpr hb)
  rw [Machine.fixedTime, if_neg (hne (by decide)), if_neg (hne (by decide))]

theorem delaySum_ordinary (g : Geom) {xs : List (Bool × Byte)} (h : ∀ x ∈ xs, Ordinary x) :
    delaySum (fixedTransfers (.standard g .fixedDelay .w4) xs) = 128 * xs.length := by
  induction xs with
  | nil => rfl
  | cons x xs ih =>
    rw [List.forall_mem_cons] at h
    obtain ⟨hx, hxs⟩ := h
    have hone : delaySum (fixedTransfer (.standard g .fixedDelay .w4) x.1 x.2) = 128 := by
      rw [delaySum_fixedTransfer, hx.fixedTime]; rfl
    rw [fixedTransfers, List.flatMap_cons, delaySum_append, hone, ← fixedTransfers, ih hxs, List.length_cons]
    omega

/-! ## The operations -/

section
variable {s : State} {g : Geom} (hc : s.cfg = .standard g .fixedDelay .w4) (ha : s.Acks 200)
include hc ha

/-- INIT, of whatever geometry: only the delays count, and the geometry is in its first command's byte alone. -/
theorem lasts_init : Lasts s .init 52612 := by
  have hprims : primitives (emitted (initProgram s.cfg)) = 61 := by rw [hc]; cases g <;> decide
  have hsum : delaySum (emitted (initProgram s.cfg)) = 52612 := by rw [hc]; cases g <;> decide
  obtain ⟨t, hexec, htrace, -⟩ := exec_hostProgram_fixed (i := .init) (by rw [hc]; rfl) (.inl rfl) rfl
    (Acks.mono ha (by rw [hprims]; decide))
  exact ⟨t, _, hexec, htrace, hsum⟩

variable {i : Instr} (hp : s.phase = .ready)
include hp

/-- An operation of transfers lasts as long as they do; 200 primitives are enough for 22. -/
theorem lasts_of_transfers {xs : List (Bool × Byte)} (hx : hostTransfers s i = some xs) (hlen : xs.length ≤ 22) :
    Lasts s i (delaySum (fixedTransfers (.standard g .fixedDelay .w4) xs)) := by
  have hprims : primitives (fixedTransfers s.cfg xs) ≤ 200 := by rw [hc, primitives_fixedTransfers]; omega
  obtain ⟨t, hexec, htrace, -⟩ := fixedDelayTraceOfEveryOperation s i xs (by rw [hc]; rfl) (by rw [hc]; rfl) hp hx
    (Acks.mono ha hprims)
  exact ⟨t, _, hexec, htrace, by rw [hc]; rfl⟩

/-- Ordinary transfers last 128 microseconds each. -/
theorem lasts_of_ordinary {xs : List (Bool × Byte)} {n : Nat} (hx : hostTransfers s i = some xs)
    (h : ∀ x ∈ xs, Ordinary x) (hlen : xs.length = n) (hn : n ≤ 22 := by decide) : Lasts s i (128 * n) := by
  rw [← hlen, ← delaySum_ordinary g h]
  exact lasts_of_transfers hc ha hp hx (hlen ▸ hn)

/-- One command and its wait (R193, R194). -/
theorem lasts_command {b : Byte} (hx : hostTransfers s i = some [(false, b)]) :
    Lasts s i (88 + fixedTime (.standard g .fixedDelay .w4) false b) := by
  have h := lasts_of_transfers hc ha hp hx (by simp)
  rwa [fixedTransfers, List.flatMap_singleton, delaySum_fixedTransfer] at h

/-- The address and the character (R190, R191). -/
theorem lasts_char {a : BitVec 7} {code : Byte}
    (hx : hostTransfers s i = some [(false, BitVec.ofNat 8 (128 + a.toNat)), (true, code)]) : Lasts s i 256 :=
  lasts_of_ordinary hc ha hp (n := 2) hx (by simp [Ordinary]; omega) rfl

/-- One command formed from the display shadow (R220). -/
theorem lasts_displayMode {v : BitVec 3} (hi : hostTransfers s i = displayModeTransfers s i)
    (hv : displayAfter s.displayControl i = some v) : Lasts s i 128 :=
  lasts_of_ordinary hc ha hp (n := 1) (by rw [hi, displayModeTransfers, hv]; rfl) (by simp [Ordinary]; omega) rfl

/-- One command formed from the entry shadow (R220). -/
theorem lasts_entryMode {v : BitVec 2} (hi : hostTransfers s i = entryModeTransfers s i)
    (hv : entryAfter s.entryMode i = some v) : Lasts s i 128 :=
  lasts_of_ordinary hc ha hp (n := 1) (by rw [hi, entryModeTransfers, hv]; rfl) (by simp [Ordinary]; omega) rfl

/-- The slot's address and the eight bytes (R240). -/
theorem lasts_glyph {slot : Byte} (glyph : BitVec 64) (hslot : slot.toNat ≤ 7) :
    Lasts s (.defineGlyph slot glyph) 1152 :=
  lasts_of_ordinary hc ha hp (n := 9) (i := .defineGlyph slot glyph) (by rw [hostTransfers, if_pos hslot])
    (by simp [Ordinary]; omega) rfl

end

/-- Settles O42: an operation either emits nothing or lasts as long as its transfers do; the cursor on the grid gives
WRITE_STREAM its address. -/
theorem durationsUnderFixedDelay : Obligations.DurationsUnderFixedDelay := by
  intro s g i bound hc hp hcursor ha hb
  change Lasts s i bound
  have hg : s.cfg.geom = g := by rw [hc]; rfl
  have hlf : s.cfg.lfCode = 0x0A := by rw [hc]; rfl
  have haddr {column row : Byte} (h : inRange g column row = true) : ∃ a, addr s.cfg.geom column row = some a :=
    ⟨_, by rw [hg]; exact if_pos h⟩
  cases i with
  | init => cases hb; exact lasts_init hc ha
  | writeAt column row code =>
    by_cases hr : inRange g column row = true
    · rw [durationBound, if_pos hr] at hb
      cases hb
      obtain ⟨a, hcell⟩ := haddr hr
      exact lasts_char hc ha hp (congrArg (Option.map _) hcell)
    · rw [durationBound, if_neg hr] at hb
      cases hb
      exact lasts_of_silent (exec_writeAt_outOfRange hp (by rw [hg]; exact if_neg hr) code) rfl
  | writeStream byte =>
    by_cases hl : byte = 0x0A
    · rw [durationBound, if_pos hl] at hb
      cases hb
      rw [hl, ← hlf]
      exact lasts_of_silent (exec_lineFeed hp) rfl
    · rw [durationBound, if_neg hl] at hb
      cases hb
      obtain ⟨a, hcell⟩ := haddr hcursor
      exact lasts_char hc ha hp ((if_neg (by rwa [hlf])).trans (congrArg (Option.map _) hcell))
  | moveTo column row =>
    cases hb
    cases hr : inRange s.cfg.geom column row with
    | true => exact lasts_of_silent (exec_moveTo hp hr) rfl
    | false => exact lasts_of_silent (exec_moveTo_outOfRange hp hr) rfl
  | clear => cases hb; exact lasts_command hc ha hp (i := .clear) (b := 0x01) rfl
  | home => cases hb; exact lasts_command hc ha hp (i := .home) (b := 0x02) rfl
  | defineGlyph slot glyph =>
    by_cases hslot : slot.toNat ≤ 7
    · rw [durationBound, if_pos hslot] at hb
      cases hb
      exact lasts_glyph hc ha hp glyph hslot
    · rw [durationBound, if_neg hslot] at hb
      cases hb
      exact lasts_of_silent (exec_invalidSlot hp (by omega)) rfl
  | setDisplayOff | setDisplayOn | setCursorOff | setCursorOn | setBlinkOff | setBlinkOn =>
    cases hb; exact lasts_displayMode hc ha hp rfl rfl
  | setFlowDecrement | setFlowIncrement | setShiftOff | setShiftOn =>
    cases hb; exact lasts_entryMode hc ha hp rfl rfl
  | columns => cases hb; exact lasts_of_silent (exec_columns hp) rfl
  | rows => cases hb; exact lasts_of_silent (exec_rows hp) rfl
  | _ => cases hb

end Sys2Proof.Machine
end
